-- ==== Sys2Proof/Word.lean ====
section
/-! DEFINITION. The word types of the block: a byte, and a 12-bit window position (spec/00_scope.md R8, R11). -/

namespace Sys2Proof

/-- A byte: 8 bits, unsigned 0..255 (R8). -/
abbrev Byte := BitVec 8

/-- A window position: "a 12-bit window index 0..4095" (R11).  Sums of positions wrap modulo 4096, which is the
`& 0xFFF` of every rule that masks a position (R8, R26, R61). -/
abbrev Pos := BitVec 12

end Sys2Proof
end

