-- ==== Sys2Proof/Config.lean ====
section
/-! DEFINITION. The constants of the block (spec/00_scope.md R3, R5), the parameters it leaves open, and the free values. -/

namespace Sys2Proof.Config

/-- N: the window has 4096 positions (R3). -/
abbrev windowSize : Nat := 4096
/-- F: the longest match and the length of a tree key and of the lookahead (R3). -/
abbrev maxMatch : Nat := 18
/-- THRESHOLD: a match of this length or less is emitted as a literal (R3, R146). -/
abbrev threshold : Nat := 2
/-- MIN_MATCH = THRESHOLD + 1 (R3). -/
abbrev minMatch : Nat := 3
/-- INIT_POS = N - F = 4078 (R3). -/
abbrev initPos : Pos := 0xFEE#12
/-- PRIME_BYTE: the space that fills the primed part of the window (R3). -/
abbrev primeByte : Byte := 0x20#8
/-- RING cells 0..4077 are primed (R3, R35). -/
abbrev primedCells : Nat := 4078
/-- RING_CELLS = N + F - 1 (R3). -/
abbrev ringCells : Nat := 4113
/-- The mirror cells 4096..4112 stand for cells 0..16 (R62). -/
abbrev mirrorCells : Nat := 17
/-- TREE_CELLS = N + 257 (R3, R36). -/
abbrev treeCells : Nat := 4353
/-- GROUP_TOKENS: a group has up to 8 tokens (R3). -/
abbrev groupTokens : Nat := 8
/-- The number of positions inserted before R when the tree is seeded (R144). -/
abbrev seedNodes : Nat := 18

/-- The bound on a walk through the tree: one link more than the tree has cells to visit is only possible in a cyclic
tree, which R191 excludes.  Kept folded in proofs. -/
@[irreducible] def walkBound : Nat := 4353

/-- The parameters that the spec leaves to an implementation and that "the model takes as an argument" (R5, D4, D12).
They stand in State so that one model covers every value of them (notes/assumptions/1.md). -/
structure Params where
  /-- UNPRIMED_FILL: what ring cells 4078..4112 hold at the start of a call (R5, R35, D4). -/
  unprimedFill : Byte
  /-- MAX_INPUT_LEN: the longest input an operation accepts (R5, D12, OPEN). -/
  maxInputLen : Nat
deriving DecidableEq, Repr

/-- The values the spec takes: UNPRIMED_FILL = 0x00 (D4) and MAX_INPUT_LEN = 2^32 - 1 (D12, the suggested value). -/
def Params.taken : Params := { unprimedFill := 0x00#8, maxInputLen := 4294967295 }

/-- A free value: a byte of CODE_BUF[1..16] at the start of a COMPRESS call, "unspecified (written before read)"
(R41, D23, U5).  No body: nothing in Lean knows a value of it (notes/assumptions/5.md). -/
opaque freeByte : Nat → Byte

/-- A free value: LAST_LEN and I at the start of a COMPRESS call, "unspecified (written before read)"
(R41, D23, U5; notes/assumptions/5.md). -/
opaque freeCount : Nat → BitVec 5

/-- DATA_CORRUPTION_SCOPE: what the host gives up when a decompressed length is wrong (R228, D19, OPEN).
A parameter of the host, never read by the block. -/
inductive CorruptionScope where
  /-- only the entry with the wrong length -/
  | entry
  /-- the whole unpack -/
  | unpack
deriving DecidableEq, Repr

end Sys2Proof.Config
end

