-- ==== Sys2Proof/Syntax.lean ====
section
/-! DEFINITION. The instructions: one constructor per row of spec/opcode_table.json (R2, R80 to R83, R92, R94). -/

namespace Sys2Proof

/-- The block's "instruction set" (R2): the three elements of the LZSS bitstream, and the two host commands. -/
inductive Instr where
  /-- CTRL: the control byte that opens a group; bit n is the kind of token n, 1 = match, 0 = literal (R81). -/
  | ctrl (c : Byte)
  /-- LIT: a literal token, one output byte verbatim (R82). -/
  | lit (d : Byte)
  /-- MATCH: a match token, an absolute window position and a length 3..18 (R83, R84; the syntax of R92). -/
  | matchTok (pos : Pos) (len : Nat)
  /-- CMD_COMPRESS: START with OP = 0 and the input IN (R94, R140, R220). -/
  | cmdCompress (input : List Byte)
  /-- CMD_DECOMPRESS: START with OP = 1 and the input IN (R94, R100, R220). -/
  | cmdDecompress (input : List Byte)
deriving DecidableEq, Repr

end Sys2Proof
end

