-- ==== Sys2Proof/WellFormed.lean ====
section
/-! DEFINITION. Which instruction terms stand for something the encoding can hold. -/

namespace Sys2Proof

/-- A match has a length 3..18 (R83: lcode 0..15 is the length minus 3); every other term is well formed, because
"every value 0x00..0xFF is valid" (R81, R82), every position is valid (R84), and a command takes any byte string
(MAX_INPUT_LEN is the port's precondition, R301, not a matter of form). -/
def Instr.wf : Instr → Bool
  | .ctrl _ => true
  | .lit _ => true
  | .matchTok _ len => decide (Config.minMatch ≤ len) && decide (len ≤ Config.maxMatch)
  | .cmdCompress _ => true
  | .cmdDecompress _ => true

end Sys2Proof
end

