-- ==== Sys2Proof/Decode.lean ====
section
/-! DEFINITION. Decoding the bitstream and the host's commands, and the encoder that inverts it
(spec/30_encoding.md R80 to R94). -/

namespace Sys2Proof

/-- What the decoder is about to read: the stream's bytes "carry no length or kind information" (R86), so the kind
comes from FLAGS, the sentinel bit and bit 0 (R101). -/
inductive Kind where
  /-- a control byte: FLAGS[8] = 0 after the shift -/
  | control
  /-- a literal token: control bit 0 -/
  | literal
  /-- a match token: control bit 1 -/
  | matched
deriving DecidableEq, Repr

/-- Why no token can be read: the four places a stream can end (R87, R105).  No bit pattern is refused (R89). -/
inductive DecodeError where
  /-- IN ends before a control byte -/
  | endBeforeControl
  /-- IN ends before a literal -/
  | endBeforeLiteral
  /-- IN ends before a match's first byte -/
  | endBeforeMatch
  /-- IN ends between a match's two bytes -/
  | endInsideMatch
deriving DecidableEq, Repr

/-- Bytes of the unfinished group or token that are consumed at each of the four places (R105's table). -/
def DecodeError.consumed : DecodeError → Nat
  | .endBeforeControl => 0
  | .endBeforeLiteral => 0
  | .endBeforeMatch => 0
  | .endInsideMatch => 1

/-- pos = zext_12(i) | ((zext_12(j) & 0xF0) << 4) (R84). -/
def matchPosOf (i j : Byte) : Pos :=
  i.setWidth 12 ||| ((j.setWidth 12 &&& 0xF0#12) <<< 4)

/-- len = (j & 0x0F) + 2 + 1 (R84). -/
def matchLenOf (j : Byte) : Nat :=
  (j &&& 0x0F#8).toNat + 2 + 1

/-- B0 = MATCH_POS & 0xFF (R85). -/
def matchByte0 (pos : Pos) : Byte :=
  (pos &&& 0xFF#12).setWidth 8

/-- B1 = ((MATCH_POS >> 4) & 0xF0) | (MATCH_LEN - 3) (R85). -/
def matchByte1 (pos : Pos) (len : Nat) : Byte :=
  ((pos >>> 4) &&& 0xF0#12).setWidth 8 ||| BitVec.ofNat 8 (len - 3)

/-- Read one element of the given kind from the front of the stream: the instruction and the bytes after it, or the
place at which the stream ends (R81 to R84, R86, R105). -/
def decode : Kind → List Byte → Except DecodeError (Instr × List Byte)
  | .control, [] => .error .endBeforeControl
  | .control, c :: rest => .ok (.ctrl c, rest)
  | .literal, [] => .error .endBeforeLiteral
  | .literal, d :: rest => .ok (.lit d, rest)
  | .matched, [] => .error .endBeforeMatch
  | .matched, [_] => .error .endInsideMatch
  | .matched, i :: j :: rest => .ok (.matchTok (matchPosOf i j) (matchLenOf j), rest)

/-- A host command: OP = 0 is COMPRESS and OP = 1 is DECOMPRESS (R94). -/
def decodeCommand (op : BitVec 1) (input : List Byte) : Instr :=
  if op = 0#1 then .cmdCompress input else .cmdDecompress input

/-- The stream bytes of an instruction (R81, R82, R85).  A command is "not part of the bitstream" (R94): it has none. -/
def encode : Instr → List Byte
  | .ctrl c => [c]
  | .lit d => [d]
  | .matchTok pos len => [matchByte0 pos, matchByte1 pos len]
  | .cmdCompress _ => []
  | .cmdDecompress _ => []

/-- What the host sends at START for a command (R94, R220); nothing for a stream element. -/
def encodeCommand : Instr → Option (BitVec 1 × List Byte)
  | .ctrl _ => none
  | .lit _ => none
  | .matchTok _ _ => none
  | .cmdCompress input => some (0#1, input)
  | .cmdDecompress input => some (1#1, input)

/-- The kind under which the decoder reads a stream element; a command is never read from the stream. -/
def Instr.kind? : Instr → Option Kind
  | .ctrl _ => some .control
  | .lit _ => some .literal
  | .matchTok _ _ => some .matched
  | .cmdCompress _ => none
  | .cmdDecompress _ => none

/-- The table's length_bytes for the row: 1, 1, 2, and 0 for a command (spec/opcode_table.json, R86). -/
def Instr.lengthBytes : Instr → Nat
  | .ctrl _ => 1
  | .lit _ => 1
  | .matchTok _ _ => 2
  | .cmdCompress _ => 0
  | .cmdDecompress _ => 0

/-- The control bit of a token: 1 for a match, 0 for a literal (R81). -/
def Instr.controlBit : Instr → Bool
  | .ctrl _ => false
  | .lit _ => false
  | .matchTok _ _ => true
  | .cmdCompress _ => false
  | .cmdDecompress _ => false

/-- c = sum over n of (2^n if t_n is MATCH else 0), token 0 first (R93). -/
def groupControl : List Instr → Nat → Byte
  | [], _ => 0#8
  | t :: rest, n => (if t.controlBit then BitVec.ofNat 8 (2 ^ n) else 0#8) ||| groupControl rest (n + 1)

/-- The pseudo-instruction GROUP: its control byte, then its tokens in order (R93). -/
def encodeGroup (tokens : List Instr) : List Byte :=
  groupControl tokens 0 :: tokens.flatMap encode

/-- Byte number k of a table word: bits 8k+7..8k, the first byte of the stream lowest. -/
def tableByte (w k : Nat) : Byte :=
  BitVec.ofNat 8 (w / 256 ^ k)

/-- The instruction an entry of a decoding stands for. -/
def decodedInstr : Except DecodeError (Instr × List Byte) → Option Instr
  | .ok (i, _) => some i
  | .error _ => none

/-- The instruction read from a table word.  The table's rows are told apart by context, not by bits: a command's
word is the OP bit (no stream byte, R94), a word of one byte is read where a stream starts, so as a control byte
(R102: "the first cycle of every call refills"; an 8-bit LIT row has the same bits, R82), and a word of two bytes is
a match, the only two-byte element (R86).  notes/assumptions/11.md. -/
def decodeTableWord (nbits w : Nat) : Option Instr :=
  if nbits < 8 then some (decodeCommand (BitVec.ofNat 1 w) [])
  else if nbits = 8 then decodedInstr (decode .control [tableByte w 0])
  else if nbits = 16 then decodedInstr (decode .matched [tableByte w 0, tableByte w 1])
  else none

end Sys2Proof
end

