-- ==== Sys2Proof/Machine/State.lean ====
section
/-! DEFINITION. The state of the block and of its host port, the reasons a step can stop, and the state after block
reset (spec/10_state.md R20 to R42, spec/43_host_interface.md R220). -/

namespace Sys2Proof.Machine

/-- STATUS (R21): a 2-bit register whose value 3 is never written. -/
inductive Status where
  /-- no operation has started since block reset -/
  | idle
  /-- an operation is running -/
  | busy
  /-- the last operation has ended; OUT holds its complete output -/
  | done
deriving DecidableEq, Repr

/-- SEQ: the sequencer state, the block's program-counter analogue (R40). -/
inductive Seq where
  /-- after block reset -/
  | idle
  /-- decoder per-call initialisation (R401) -/
  | dInit
  /-- one decoder token cycle (R101) -/
  | dCycle
  /-- encoder per-call initialisation (R402) -/
  | eInit
  /-- initial lookahead load (R142) -/
  | eLoad
  /-- tree seeding (R144) -/
  | eSeed
  /-- one encoder iteration (R145 to R152) -/
  | eIter
  /-- final flush (R153) -/
  | eFlush
  /-- result available -/
  | done
deriving DecidableEq, Repr

/-- A tree index 0..4352 (R36): window positions 0..4095, NIL = 4096, ROOT(c) = 4097 + c. -/
abbrev TreeIdx := Fin 4353

/-- NIL, the "no node" index (R5, R36, D5). -/
def nilIdx : TreeIdx := ⟨4096, by omega⟩

/-- An array held as the cells that differ from what an unlisted index reads as, at rising indices. -/
abbrev Cells (α : Type) := List (Nat × α)

/-- RING, the block's only byte memory (R35, R60). -/
abbrev Memory := List Host.Cell

/-- What the host does at one step (R220).  `pass` leaves the step to the block's sequencer. -/
inductive HostMove where
  /-- the host does nothing: the sequencer takes the step -/
  | pass
  /-- START(op, IN) -/
  | start (op : BitVec 1) (input : List Byte)
  /-- read STATUS -/
  | readStatus
  /-- read OUT and OUT_LEN -/
  | readOut
  /-- block reset -/
  | blockReset
deriving DecidableEq, Repr

/-- What the host gets back from a read (R220). -/
inductive Reply where
  /-- the 2-bit STATUS value (R21) -/
  | status (value : BitVec 2)
  /-- OUT and OUT_LEN = |OUT| (R25, R223) -/
  | out (bytes : List Byte) (length : Nat)
deriving DecidableEq, Repr

/-- The state: host-visible state, working registers, working arrays (R20), the parameters of the implementation
(R5), the host's side of the port (R220) and the model's counter of free values. -/
structure State where
  /-- UNPRIMED_FILL and MAX_INPUT_LEN (R5); no step changes them -/
  params : Config.Params
  /-- STATUS (R21) -/
  status : Status
  /-- OP, latched at START (R22) -/
  op : BitVec 1
  /-- IN, latched at START (R23, R224) -/
  input : List Byte
  /-- IP, the input index (R24) -/
  ip : Nat
  /-- OUT (R25) -/
  out : List Byte
  /-- SEQ (R40) -/
  seq : Seq
  /-- R, the cursor (R26) -/
  r : BitVec 12
  /-- FLAGS (R27) -/
  flags : BitVec 16
  /-- S (R28) -/
  s : BitVec 12
  /-- LEN (R29) -/
  len : BitVec 5
  /-- MATCH_POS (R30) -/
  matchPos : BitVec 12
  /-- MATCH_LEN (R30) -/
  matchLen : BitVec 5
  /-- LAST_LEN (R31) -/
  lastLen : BitVec 5
  /-- I, the slide counter (R31) -/
  i : BitVec 5
  /-- MASK (R32) -/
  mask : BitVec 8
  /-- CODE_PTR (R33) -/
  codePtr : BitVec 5
  /-- CODE_BUF[0..16] (R34) -/
  codeBuf : Vector Byte 17
  /-- RING[0..4112] (R35): the cells that differ from their call-start contents -/
  ring : Memory
  /-- LSON[0..4352] (R36): the cells that differ from NIL -/
  lson : Cells TreeIdx
  /-- RSON[0..4352] (R36) -/
  rson : Cells TreeIdx
  /-- DAD[0..4352] (R36) -/
  dad : Cells TreeIdx
  /-- the host's next moves, first one first: which agent moves next is read from here (R220, R310) -/
  host : List HostMove
  /-- what the host last got back from the port (R220) -/
  reply : Option Reply
  /-- the number of free values taken so far (the model's own; notes/assumptions/5.md) -/
  frees : Nat
deriving DecidableEq, Repr

/-- What stops the machine.  "The block itself never faults" (R301): each of these stands for a state that no call
reaches, where the procedures of spec/42_match_tree.md and spec/41_compress.md would leave their arrays or not end.
All are SAFE: the model stops where the spec gives nothing. -/
inductive Fault where
  /-- Raised by InsertNode's descent and DeleteNode's walk when they have followed more links than the tree has
  cells, which needs a cyclic tree (R191 excludes it).  Safe. -/
  | treeCycle
  /-- Raised by InsertNode's descent when a child link leads to a root cell, which is no window position (R68, R180
  exclude it).  Safe. -/
  | treeLinkNotNode
  /-- Raised by a token emission when CODE_PTR is past CODE_BUF[16] (R33, R34 exclude it).  Safe. -/
  | codeBufFull
deriving DecidableEq, Repr

/-- What the machine turns away by name. -/
inductive Refusal where
  /-- An instruction with no meaning yet: none in this model.  Safe. -/
  | notModelled (mnemonic : String)
  /-- START while STATUS = BUSY, raised by the two commands: "a model refuses such a run by name" (R222, R301).  Safe. -/
  | startWhileBusy
  /-- START with |IN| > MAX_INPUT_LEN, raised by the two commands (R301, D12, U3).  Safe. -/
  | inputTooLong
  /-- A read of OUT while STATUS is not DONE, raised by the port (R220, R223, U8).  Safe. -/
  | outNotReadable
deriving DecidableEq, Repr

/-- The state after block reset: STATUS and SEQ are IDLE (R400).  Every other piece of state is "unspecified" there
(R41); the model names zero, empty, RING's call-start contents and NIL for them (notes/assumptions/4.md). -/
def State.reset : State where
  params := Config.Params.taken
  status := .idle
  op := 0#1
  input := []
  ip := 0
  out := []
  seq := .idle
  r := 0#12
  flags := 0#16
  s := 0#12
  len := 0#5
  matchPos := 0#12
  matchLen := 0#5
  lastLen := 0#5
  i := 0#5
  mask := 0#8
  codePtr := 0#5
  codeBuf := #v[0, 0, 0, 0, 0, 0, 0, 0, 0, 0, 0, 0, 0, 0, 0, 0, 0]
  ring := []
  lson := []
  rson := []
  dad := []
  host := []
  reply := none
  frees := 0

end Sys2Proof.Machine
end

