-- ==== Sys2Proof/Machine/Memory.lean ====
section
/-! DEFINITION. Arrays as sparse lists in one canonical form: RING over bytes, LSON/RSON/DAD over tree indices
(spec/20_memory.md R60 to R69; what an unlisted cell reads as is the array's call-start contents, R41). -/

namespace Sys2Proof.Machine

/-- Read index a: the listed value, else what an unlisted index reads as. -/
def Cells.read {α : Type} (dflt : Nat → α) : Cells α → Nat → α
  | [], a => dflt a
  | (b, v) :: rest, a => if a = b then v else Cells.read dflt rest a

/-- Take every entry of index a out. -/
def Cells.erase {α : Type} (a : Nat) : Cells α → Cells α
  | [] => []
  | (b, v) :: rest => if a = b then Cells.erase a rest else (b, v) :: Cells.erase a rest

/-- Put an entry in before the first greater index. -/
def Cells.insert {α : Type} (a : Nat) (v : α) : Cells α → Cells α
  | [] => [(a, v)]
  | (b, w) :: rest => if a < b then (a, v) :: (b, w) :: rest else (b, w) :: Cells.insert a v rest

/-- Write index a; writing what an unlisted index reads as takes the entry out. -/
def Cells.write {α : Type} [DecidableEq α] (dflt : Nat → α) (m : Cells α) (a : Nat) (v : α) : Cells α :=
  if v = dflt a then Cells.erase a m else Cells.insert a v (Cells.erase a m)

/-- The canonical form, for indices from lo up: indices strictly rising and below size, no entry equal to what an
unlisted index reads as. -/
def Cells.wfFrom {α : Type} [DecidableEq α] (dflt : Nat → α) (size : Nat) : Nat → Cells α → Bool
  | _, [] => true
  | lo, (a, v) :: rest =>
    decide (lo ≤ a) && decide (a < size) && decide (v ≠ dflt a) && Cells.wfFrom dflt size (a + 1) rest

/-- RING's call-start contents: 0x20 in cells 0..4077 and UNPRIMED_FILL in cells 4078..4112 (R35, R67). -/
def ringDefault (fill : Byte) (a : Nat) : Byte :=
  if a < Config.primedCells then Config.primeByte else fill

/-- A tree cell's call-start contents: NIL (R36, R181). -/
def treeDefault (_ : Nat) : TreeIdx := nilIdx

/-- Read one byte of RING. -/
def Memory.read (fill : Byte) (m : Memory) (a : Nat) : Byte :=
  Cells.read (ringDefault fill) m a

/-- Write one byte of RING. -/
def Memory.write (fill : Byte) (m : Memory) (a : Nat) (v : Byte) : Memory :=
  Cells.write (ringDefault fill) m a v

/-- RING's canonical form: rising addresses 0..4112, no entry equal to the call-start contents. -/
def Memory.wf (fill : Byte) (m : Memory) : Bool :=
  Cells.wfFrom (ringDefault fill) Config.ringCells 0 m

/-- The canonical form of LSON, RSON and DAD: rising indices 0..4352, no entry NIL. -/
def treeWf (m : Cells TreeIdx) : Bool :=
  Cells.wfFrom treeDefault Config.treeCells 0 m

end Sys2Proof.Machine
end

