-- ==== Sys2Proof/Machine/Ops.lean ====
section
/-! DEFINITION. The named operations over memory and registers that every meaning is written with: the primitives of
spec/00_scope.md R9, RING and the tree arrays, `stop`, block reset, and the per-call initialisation of
spec/70_reset_and_hazards.md R400 to R402.  The block takes no exception and returns from none (R300, R304, R305). -/

namespace Sys2Proof.Machine

/-- The 2-bit value of STATUS (R21). -/
def Status.value : Status → BitVec 2
  | .idle => 0#2
  | .busy => 1#2
  | .done => 2#2

/-- Turn the result of an encoder procedure into an outcome of a step. -/
def outcomeOf (x : Except Fault State) : Host.Outcome State Fault Refusal :=
  match x with
  | .ok st => .next st
  | .error f => .fault f

/-- Go on from a next state; a fault or a refusal stops. -/
def andThen (x : Host.Outcome State Fault Refusal) (f : State → Host.Outcome State Fault Refusal) :
    Host.Outcome State Fault Refusal :=
  match x with
  | .next st => f st
  | .fault r => .fault r
  | .refused r => .refused r

/-! RING and the tree arrays (R9, R60) -/

/-- RING[a] (R9). -/
def State.ringRead (st : State) (a : Nat) : Byte :=
  Memory.read st.params.unprimedFill st.ring a

/-- RING[a] <- v (R9). -/
def State.ringWrite (st : State) (a : Nat) (v : Byte) : State :=
  { st with ring := Memory.write st.params.unprimedFill st.ring a v }

/-- LSON[i] (R9). -/
def State.lsonAt (st : State) (i : TreeIdx) : TreeIdx := Cells.read treeDefault st.lson i.val
/-- RSON[i] (R9). -/
def State.rsonAt (st : State) (i : TreeIdx) : TreeIdx := Cells.read treeDefault st.rson i.val
/-- DAD[i] (R9). -/
def State.dadAt (st : State) (i : TreeIdx) : TreeIdx := Cells.read treeDefault st.dad i.val

/-- LSON[i] <- v (R9). -/
def State.setLson (st : State) (i v : TreeIdx) : State :=
  { st with lson := Cells.write treeDefault st.lson i.val v }
/-- RSON[i] <- v (R9). -/
def State.setRson (st : State) (i v : TreeIdx) : State :=
  { st with rson := Cells.write treeDefault st.rson i.val v }
/-- DAD[i] <- v (R9). -/
def State.setDad (st : State) (i v : TreeIdx) : State :=
  { st with dad := Cells.write treeDefault st.dad i.val v }

/-! Input and output (R9) -/

/-- InAvail(): IP < L (R9). -/
def State.inAvail (st : State) : Bool := decide (st.ip < st.input.length)

/-- IP <- IP + n, for the n input bytes that an element takes through InByte() (R9, R24). -/
def State.advance (st : State) (n : Nat) : State := { st with ip := st.ip + n }

/-- InByte(): IN[IP], and IP moves on by 1; nothing when InAvail() does not hold (R9). -/
def State.inByte? (st : State) : Option (Byte × State) :=
  match st.input[st.ip]? with
  | some c => some (c, st.advance 1)
  | none => none

/-- The input bytes not yet read. -/
def State.unread (st : State) : List Byte := st.input.drop st.ip

/-- OutByte(v): append v to OUT (R9). -/
def State.outByte (st : State) (v : Byte) : State := { st with out := st.out ++ [v] }

/-- Append bytes to OUT, the first one first (R149, R153). -/
def State.outBytes (st : State) (vs : List Byte) : State := { st with out := st.out ++ vs }

/-- `stop`: SEQ <- DONE and STATUS <- DONE in one step (R9, R40). -/
def State.stop (st : State) : State := { st with seq := .done, status := .done }

/-- Emit one decoded byte: OutByte(c); RING[R] <- c; R <- (R + 1) & 0xFFF (R103, R104). -/
def State.emitDecoded (st : State) (c : Byte) : State :=
  let st1 := (st.outByte c).ringWrite st.r.toNat c
  { st1 with r := st1.r + 1#12 }

/-! Reset and call start -/

/-- Block reset (R400): STATUS and SEQ become IDLE, a running operation is abandoned and OUT is discarded (R225), and
everything else is what State.reset names for it.  The parameters, the host's moves and the host's last reply are
not the block's working state. -/
def State.blockReset (st : State) : State :=
  { State.reset with params := st.params, host := st.host, reply := st.reply, frees := st.frees }

/-- START(op, IN), accepted (R221): latch OP and IN, STATUS <- BUSY, SEQ to D_INIT (op = 1) or E_INIT (op = 0).
START also sets IP to 0 and OUT to the empty sequence (R24, R25). -/
def State.latchStart (st : State) (op : BitVec 1) (input : List Byte) : State :=
  { st with
    op := op
    input := input
    ip := 0
    out := []
    status := .busy
    seq := if op = 0#1 then .eInit else .dInit }

/-- START(op, IN): refused by name while STATUS = BUSY (R222) and for an input longer than MAX_INPUT_LEN (R301). -/
def State.startCall (st : State) (op : BitVec 1) (input : List Byte) : Host.Outcome State Fault Refusal :=
  if st.status = .busy then .refused .startWhileBusy
  else if st.params.maxInputLen < input.length then .refused .inputTooLong
  else .next (st.latchStart op input)

/-- D_INIT: decoder per-call initialisation (R401).  RING with nothing listed reads as its call-start contents. -/
def State.decoderInit (st : State) : State :=
  { st with
    ring := []
    r := Config.initPos
    flags := 0x0000#16
    ip := 0
    out := []
    seq := .dCycle }

/-- CODE_BUF at a COMPRESS call start: CODE_BUF[0] = 0x00, the other cells free values (R402, R41). -/
def freshCodeBuf (k : Nat) : Vector Byte 17 :=
  #v[0x00#8, Config.freeByte k, Config.freeByte (k + 1), Config.freeByte (k + 2), Config.freeByte (k + 3),
    Config.freeByte (k + 4), Config.freeByte (k + 5), Config.freeByte (k + 6), Config.freeByte (k + 7),
    Config.freeByte (k + 8), Config.freeByte (k + 9), Config.freeByte (k + 10), Config.freeByte (k + 11),
    Config.freeByte (k + 12), Config.freeByte (k + 13), Config.freeByte (k + 14), Config.freeByte (k + 15)]

/-- E_INIT: encoder per-call initialisation (R402).  LAST_LEN, I and CODE_BUF[1..16] are unspecified there (R41): they
become free values, eighteen of them. -/
def State.encoderInit (st : State) : State :=
  { st with
    ring := []
    lson := []
    rson := []
    dad := []
    r := Config.initPos
    s := 0#12
    len := 0#5
    matchPos := 0#12
    matchLen := 0#5
    lastLen := Config.freeCount st.frees
    i := Config.freeCount (st.frees + 1)
    mask := 0x01#8
    codePtr := 1#5
    codeBuf := freshCodeBuf (st.frees + 2)
    ip := 0
    out := []
    seq := .eLoad
    frees := st.frees + 18 }

end Sys2Proof.Machine
end

