-- ==== Sys2Proof/Machine/Operands.lean ====
section
/-! DEFINITION. Every operand form: the ring addresses of the decoder and of the encoder (spec/20_memory.md R61, R62),
the tree indices of positions and roots (R36, R68), and key bytes (spec/42_match_tree.md R180). -/

namespace Sys2Proof.Machine

/-- The source position of byte k of a match: (pos + k) & 0xFFF (R61, R104). -/
def matchSource (pos : Pos) (k : Nat) : Pos := pos + BitVec.ofNat 12 k

/-- RING at a window position (R61): the address is 0..4095. -/
def State.windowByte (st : State) (p : Pos) : Byte := st.ringRead p.toNat

/-- Byte i of key(p): RING[p + i], not masked; p + i <= 4112 for i <= 17 (R62, R180). -/
def State.keyByte (st : State) (p : Pos) (i : Nat) : Byte := st.ringRead (p.toNat + i)

/-- The tree index of a window position (R36). -/
def nodeIdx (p : Pos) : TreeIdx := ⟨p.toNat, by have := p.isLt; omega⟩

/-- ROOT(c) = 4097 + c (R5, R36). -/
def rootIdx (c : Byte) : TreeIdx := ⟨4097 + c.toNat, by have := c.isLt; omega⟩

/-- The window position of a tree index, if it is a node's (R36, R68). -/
def nodeOf? (t : TreeIdx) : Option Pos :=
  if t.val < 4096 then some (BitVec.ofNat 12 t.val) else none

/-- RING after the slide's write: RING[S] <- c, and when S < 17 the mirror cell RING[S + 4096] <- c (R62, R150). -/
def mirroredRing (st : State) (c : Byte) : Memory :=
  if st.s.toNat < Config.mirrorCells then
    Memory.write st.params.unprimedFill (Memory.write st.params.unprimedFill st.ring st.s.toNat c)
      (st.s.toNat + Config.windowSize) c
  else Memory.write st.params.unprimedFill st.ring st.s.toNat c

/-- The window write of the slide, both cells in the same step (R150, R406). -/
def State.mirrorWrite (st : State) (c : Byte) : State := { st with ring := mirroredRing st c }

/-- CODE_BUF[CODE_PTR] <- v; CODE_PTR <- CODE_PTR + 1 (R147, R148).  CODE_BUF has cells 0..16 (R34). -/
def State.pushCode (st : State) (v : Byte) : Except Fault State :=
  if h : st.codePtr.toNat < 17 then
    .ok { st with codeBuf := st.codeBuf.set st.codePtr.toNat v h, codePtr := st.codePtr + 1#5 }
  else .error .codeBufFull

/-- CODE_BUF[0..CODE_PTR-1], the bytes a flush emits (R149, R153). -/
def State.pendingCode (st : State) : List Byte := st.codeBuf.toList.take st.codePtr.toNat

end Sys2Proof.Machine
end

