-- ==== Sys2Proof/Machine/Flags.lean ====
section
/-! DEFINITION. Every computation on FLAGS, the decoder's control shift register (spec/10_state.md R27,
spec/40_decompress.md R101, R102), and on MASK and the control byte CODE_BUF[0], the encoder's (R32, R34, R148, R149). -/

namespace Sys2Proof.Machine

/-- FLAGS <- FLAGS >> 1, a 16-bit logical shift (R101). -/
def State.shiftFlags (st : State) : State := { st with flags := st.flags >>> 1 }

/-- The sentinel test: refill when FLAGS[8] = 0 (R101). -/
def State.needsRefill (st : State) : Bool := !st.flags.getLsbD 8

/-- FLAGS <- 0xFF00 | zext_16(c) (R102). -/
def refillValue (c : Byte) : BitVec 16 := 0xFF00#16 ||| c.setWidth 16

/-- The kind of the current token: FLAGS[0] = 0 is a literal, 1 a match (R101). -/
def State.tokenKind (st : State) : Kind := if st.flags.getLsbD 0 then .matched else .literal

/-- MASK <- (MASK << 1) & 0xFF (R32, R149). -/
def State.shiftMask (st : State) : State := { st with mask := st.mask <<< 1 }

/-- CODE_BUF[0] <- CODE_BUF[0] | MASK: the control bit of a match (R148). -/
def State.markMatch (st : State) : State :=
  { st with codeBuf := st.codeBuf.set 0 (st.codeBuf[0] ||| st.mask) }

/-- MASK advance and group flush (R149): after 8 tokens MASK is 0, the group goes to OUT, control byte first, and a
new group starts. -/
def State.closeToken (st : State) : State :=
  let st1 := st.shiftMask
  if st1.mask = 0#8 then
    { st1.outBytes st1.pendingCode with
      codeBuf := st1.codeBuf.set 0 0x00#8
      codePtr := 1#5
      mask := 0x01#8 }
  else st1

end Sys2Proof.Machine
end

