-- ==== Sys2Proof/Machine/Commands.lean ====
section
/-! DEFINITION. The meanings of the two host commands: START with OP = 0 and with OP = 1 (R94, R140, R100, R221). -/

namespace Sys2Proof.Machine

/-- CMD_COMPRESS: START(0, IN) (R140, R221). -/
def execCmdCompress (input : List Byte) (st : State) : Host.Outcome State Fault Refusal :=
  st.startCall 0#1 input

/-- CMD_DECOMPRESS: START(1, IN) (R100, R221). -/
def execCmdDecompress (input : List Byte) (st : State) : Host.Outcome State Fault Refusal :=
  st.startCall 1#1 input

end Sys2Proof.Machine
end

