-- ==== Sys2Proof/Machine/Tokens.lean ====
section
/-! DEFINITION. The meanings of the three stream elements: CTRL (R102), LIT (R103), MATCH (R104).
Each tests for end of input as its rule does, and takes its bytes through InByte() (R9). -/

namespace Sys2Proof.Machine

/-- CTRL (R102): the next input byte, c, refills FLAGS; at end of input the operation stops. -/
def execCtrl (c : Byte) (st : State) : Host.Outcome State Fault Refusal :=
  if st.inAvail then .next { st.advance 1 with flags := refillValue c }
  else .next st.stop

/-- LIT (R103): the next input byte, d, goes to OUT and into the window at R; at end of input the operation stops. -/
def execLit (d : Byte) (st : State) : Host.Outcome State Fault Refusal :=
  if st.inAvail then .next ((st.advance 1).emitDecoded d)
  else .next st.stop

/-- The copy loop of MATCH (R104), byte-serial (R404): n bytes are left, the next one is byte k. -/
def copyMatch (pos : Pos) : Nat → Nat → State → State
  | 0, _, st => st
  | n + 1, k, st => copyMatch pos n (k + 1) (st.emitDecoded (st.windowByte (matchSource pos k)))

/-- MATCH (R104): two input bytes, tested one by one (a match cut after its first byte has consumed it and emits
nothing, R105), then the copy of len bytes from the window. -/
def execMatch (pos : Pos) (len : Nat) (st : State) : Host.Outcome State Fault Refusal :=
  if st.inAvail then
    let st1 := st.advance 1
    if st1.inAvail then .next (copyMatch pos len 0 (st1.advance 1))
    else .next st1.stop
  else .next st.stop

end Sys2Proof.Machine
end

