-- ==== Sys2Proof/Machine/Dispatch.lean ====
section
/-! DEFINITION. One arm per instruction. -/

namespace Sys2Proof.Machine

def exec (i : Instr) (s : State) : Host.Outcome State Fault Refusal :=
  match i with
  | .ctrl c => Sys2Proof.Machine.execCtrl c s
  | .lit d => Sys2Proof.Machine.execLit d s
  | .matchTok pos len => Sys2Proof.Machine.execMatch pos len s
  | .cmdCompress input => Sys2Proof.Machine.execCmdCompress input s
  | .cmdDecompress input => Sys2Proof.Machine.execCmdDecompress input s

end Sys2Proof.Machine
end

