-- ==== Sys2Proof/Machine/MatchTree.lean ====
section
/-! DEFINITION. The match finder: InsertNode (spec/42_match_tree.md R182 to R186) and DeleteNode (R187 to R189), with
the scratch writes to DAD[NIL] as the pseudocode has them (R190). -/

namespace Sys2Proof.Machine

/-- The comparison loop of InsertNode (R182, R183): n key bytes are left, the next one is byte i.  The result is the
number of leading equal bytes and the signed difference of unsigned bytes at the first difference (0 if none). -/
def compareKeys (st : State) (r p : Pos) : Nat → Nat → Nat × Int
  | 0, i => (i, 0)
  | n + 1, i =>
    let cmp : Int := ((st.keyByte r i).toNat : Int) - ((st.keyByte p i).toNat : Int)
    if cmp ≠ 0 then (i, cmp) else compareKeys st r p n (i + 1)

/-- Attach r under p (R182, R186): as right child when cmp >= 0, else as left child. -/
def attachNode (st : State) (r : Pos) (p : TreeIdx) (cmp : Int) : State :=
  if 0 ≤ cmp then (st.setRson p (nodeIdx r)).setDad (nodeIdx r) p
  else (st.setLson p (nodeIdx r)).setDad (nodeIdx r) p

/-- Re-parent: the link from DAD[p] to p now leads to q (the last lines of both procedures, R182, R187). -/
def relinkParent (st : State) (p q : TreeIdx) : State :=
  if st.rsonAt (st.dadAt p) = p then st.setRson (st.dadAt p) q else st.setLson (st.dadAt p) q

/-- replace: r takes p's place in the tree (R182, R185). -/
def replaceNode (st : State) (r p : Pos) : State :=
  let rn := nodeIdx r
  let pn := nodeIdx p
  let st1 := st.setDad rn (st.dadAt pn)
  let st2 := st1.setLson rn (st1.lsonAt pn)
  let st3 := st2.setRson rn (st2.rsonAt pn)
  let st4 := st3.setDad (st3.lsonAt pn) rn
  let st5 := st4.setDad (st4.rsonAt pn) rn
  let st6 := relinkParent st5 pn rn
  st6.setDad pn nilIdx

/-- MATCH_POS and MATCH_LEN change only when a visited node's count is strictly greater (R182, R184). -/
def recordMatch (st : State) (p : Pos) (i : Nat) : State :=
  if st.matchLen.toNat < i then { st with matchPos := p, matchLen := BitVec.ofNat 5 i } else st

/-- The descent of InsertNode (R182): at p with comparison result cmp, go to the right child when cmp >= 0 and to the
left child otherwise; attach r at a missing child, replace a node with an equal key.  Config.walkBound bounds the walk. -/
def descend (r : Pos) : Nat → State → TreeIdx → Int → Except Fault State
  | 0, _, _, _ => .error .treeCycle
  | fuel + 1, st, p, cmp =>
    let child := if 0 ≤ cmp then st.rsonAt p else st.lsonAt p
    if child = nilIdx then .ok (attachNode st r p cmp)
    else
      match nodeOf? child with
      | none => .error .treeLinkNotNode
      | some q =>
        let found := compareKeys st r q 17 1
        let st1 := recordMatch st q found.1
        if Config.maxMatch ≤ found.1 ∧ st.matchLen.toNat < found.1 then .ok (replaceNode st1 r q)
        else descend r fuel st1 child found.2

/-- InsertNode(r) (R182): the search starts at ROOT(RING[r]) with cmp = +1 and MATCH_LEN = 0. -/
def insertNode (r : Pos) (st : State) : Except Fault State :=
  let rn := nodeIdx r
  let st1 := (st.setRson rn nilIdx).setLson rn nilIdx
  descend r Config.walkBound { st1 with matchLen := 0#5 } (rootIdx (st.keyByte r 0)) 1

/-- repeat: q <- RSON[q] until RSON[q] == NIL (R187), from a q whose right child may be missing.  Config.walkBound bounds it. -/
def rightmost (st : State) : Nat → TreeIdx → Except Fault TreeIdx
  | 0, _ => .error .treeCycle
  | fuel + 1, q => if st.rsonAt q = nilIdx then .ok q else rightmost st fuel (st.rsonAt q)

/-- The last lines of DeleteNode (R187): q takes p's place under p's parent, and p leaves the tree. -/
def promoteChild (st : State) (p q : TreeIdx) : State :=
  let st1 := st.setDad q (st.dadAt p)
  let st2 := relinkParent st1 p q
  st2.setDad p nilIdx

/-- The two-child case when p's left child has a right child (R187, R189): q, the rightmost node of the left subtree,
is unlinked from its parent, whose right link takes q's left subtree, and takes p's left subtree. -/
def unlinkPredecessor (st : State) (p q : TreeIdx) : State :=
  let st1 := st.setRson (st.dadAt q) (st.lsonAt q)
  let st2 := st1.setDad (st1.lsonAt q) (st1.dadAt q)
  let st3 := st2.setLson q (st2.lsonAt p)
  st3.setDad (st3.lsonAt p) q

/-- q takes p's right subtree (R187, R189). -/
def takeRightSubtree (st : State) (p q : TreeIdx) : State :=
  let st1 := st.setRson q (st.rsonAt p)
  st1.setDad (st1.rsonAt p) q

/-- The two-child case of DeleteNode: p is replaced by its in-order predecessor (R187, R189). -/
def deleteTwoChildren (st : State) (p : TreeIdx) : Except Fault State :=
  if st.rsonAt (st.lsonAt p) = nilIdx then
    .ok (promoteChild (takeRightSubtree st p (st.lsonAt p)) p (st.lsonAt p))
  else
    match rightmost st Config.walkBound (st.rsonAt (st.lsonAt p)) with
    | .error f => .error f
    | .ok q => .ok (promoteChild (takeRightSubtree (unlinkPredecessor st p q) p q) p q)

/-- DeleteNode(p) (R187): nothing when p is in no tree (R188). -/
def deleteNode (p : Pos) (st : State) : Except Fault State :=
  let pn := nodeIdx p
  if st.dadAt pn = nilIdx then .ok st
  else if st.rsonAt pn = nilIdx then .ok (promoteChild st pn (st.lsonAt pn))
  else if st.lsonAt pn = nilIdx then .ok (promoteChild st pn (st.rsonAt pn))
  else deleteTwoChildren st pn

end Sys2Proof.Machine
end

