-- ==== Sys2Proof/Machine/Encoder.lean ====
section
/-! DEFINITION. The phases of COMPRESS after its initialisation: load (R142, R143), seeding (R144), one iteration
(R145 to R152) and the final flush (R153), spec/41_compress.md. -/

namespace Sys2Proof.Machine

/-- The load loop of R142: while LEN < 18 and InAvail(), RING[0xFEE + LEN] <- InByte() with no mirror write. -/
def loadLoop : Nat → State → State
  | 0, st => st
  | n + 1, st =>
    match st.inByte? with
    | none => st
    | some (c, st1) =>
      let st2 := st1.ringWrite (Config.initPos.toNat + st.len.toNat) c
      loadLoop n { st2 with len := st.len + 1#5 }

/-- E_LOAD (R142): LEN <- 0 and the load; an empty input stops with OUT empty (R143), else seeding follows (R40). -/
def State.encoderLoad (st : State) : State :=
  let st1 := loadLoop Config.maxMatch { st with len := 0#5 }
  if st1.len = 0#5 then st1.stop else { st1 with seq := .eSeed }

/-- The seeding loop (R144): InsertNode(R - i) for i = k, k+1, ..., n of them. -/
def seedLoop : Nat → Nat → State → Except Fault State
  | 0, _, st => .ok st
  | n + 1, k, st =>
    match insertNode (st.r - BitVec.ofNat 12 k) st with
    | .error f => .error f
    | .ok st1 => seedLoop n (k + 1) st1

/-- E_SEED (R144): positions R-1 down to R-18, then R, whose result is the first match candidate. -/
def State.encoderSeed (st : State) : Except Fault State :=
  match seedLoop Config.seedNodes 1 st with
  | .error f => .error f
  | .ok st1 =>
    match insertNode st1.r st1 with
    | .error f => .error f
    | .ok st2 => .ok { st2 with seq := .eIter }

/-- Clamp (R145): if MATCH_LEN > LEN then MATCH_LEN <- LEN. -/
def State.clampMatch (st : State) : State :=
  if st.len < st.matchLen then { st with matchLen := st.len } else st

/-- Literal emission (R147): the current byte RING[R]; the control bit stays 0. -/
def emitLiteral (st : State) : Except Fault State :=
  st.pushCode (st.windowByte st.r)

/-- Match emission (R148): the control bit selected by MASK is set, and the two bytes of R85 follow. -/
def emitMatch (st : State) : Except Fault State :=
  let st1 := st.markMatch
  match st1.pushCode (matchByte0 st.matchPos) with
  | .error f => .error f
  | .ok st2 => st2.pushCode (matchByte1 st.matchPos st.matchLen.toNat)

/-- Token choice (R146): MATCH_LEN <= 2 gives a literal and MATCH_LEN <- 1, else a match. -/
def State.chooseToken (st : State) : Except Fault State :=
  if st.matchLen.toNat ≤ Config.threshold then emitLiteral { st with matchLen := 1#5 } else emitMatch st

/-- S <- (S + 1) & 0xFFF; R <- (R + 1) & 0xFFF, in the same step (R28, R150, R151). -/
def State.advanceWindow (st : State) : State := { st with s := st.s + 1#12, r := st.r + 1#12 }

/-- One turn of the slide while input remains (R150), with the input byte c: delete, write and mirror, advance,
insert, count (R405 to R407). -/
def slideByte (c : Byte) (st : State) : Except Fault State :=
  match deleteNode st.s st with
  | .error f => .error f
  | .ok st1 =>
    let st2 := (st1.mirrorWrite c).advanceWindow
    match insertNode st2.r st2 with
    | .error f => .error f
    | .ok st3 => .ok { st3 with i := st3.i + 1#5 }

/-- The slide while input remains (R150): while I < LAST_LEN and InAvail(). -/
def slideLoop : Nat → State → Except Fault State
  | 0, st => .ok st
  | n + 1, st =>
    if st.i < st.lastLen then
      match st.inByte? with
      | none => .ok st
      | some (c, st1) =>
        match slideByte c st1 with
        | .error f => .error f
        | .ok st2 => slideLoop n st2
    else .ok st

/-- One turn of the slide after input is exhausted (R151): RING[S] is not overwritten, LEN shrinks, and nothing is
inserted once LEN is 0. -/
def tailByte (st : State) : Except Fault State :=
  let st0 := { st with i := st.i + 1#5 }
  match deleteNode st0.s st0 with
  | .error f => .error f
  | .ok st1 =>
    let st2 := st1.advanceWindow
    let st3 := { st2 with len := st2.len - 1#5 }
    if st3.len = 0#5 then .ok st3 else insertNode st3.r st3

/-- The slide after input is exhausted (R151): while I < LAST_LEN. -/
def tailLoop : Nat → State → Except Fault State
  | 0, st => .ok st
  | n + 1, st =>
    if st.i < st.lastLen then
      match tailByte st with
      | .error f => .error f
      | .ok st1 => tailLoop n st1
    else .ok st

/-- The slide (R150, R151): LAST_LEN <- MATCH_LEN; I <- 0; both loops.  I counts up to LAST_LEN, which bounds them. -/
def State.slideWindow (st : State) : Except Fault State :=
  let st1 := { st with lastLen := st.matchLen, i := 0#5 }
  match slideLoop st1.lastLen.toNat st1 with
  | .error f => .error f
  | .ok st2 => tailLoop st2.lastLen.toNat st2

/-- The loop test (R152): another iteration while LEN > 0, else the final flush. -/
def State.loopTest (st : State) : State :=
  if st.len = 0#5 then { st with seq := .eFlush } else { st with seq := .eIter }

/-- E_ITER: one iteration, R145, R146, R147 or R148, R149, R150 and R151, then the test of R152 (R141). -/
def State.encoderIter (st : State) : Except Fault State :=
  match st.clampMatch.chooseToken with
  | .error f => .error f
  | .ok st1 =>
    match st1.closeToken.slideWindow with
    | .error f => .error f
    | .ok st2 => .ok st2.loopTest

/-- E_FLUSH (R153): a partial last group goes to OUT; stop. -/
def State.encoderFlush (st : State) : State :=
  (if 1 < st.codePtr.toNat then st.outBytes st.pendingCode else st).stop

end Sys2Proof.Machine
end

