-- ==== Sys2Proof/Machine/Sequencer.lean ====
section
/-! DEFINITION. The two agents (R310): the block's sequencer, one transition of R40 a step (D1), and the host at its
port (R220). -/

namespace Sys2Proof.Machine

/-- `stop` where the stream ends inside an element: the bytes of R105's table are consumed, nothing else changes. -/
def State.stopShort (st : State) (e : DecodeError) : State := (st.advance e.consumed).stop

/-- Fetch the element of the given kind at IP and run it; where the stream ends first, stop (R105). -/
def runElement (k : Kind) (st : State) : Host.Outcome State Fault Refusal :=
  match decode k st.unread with
  | .ok (i, _) => exec i st
  | .error e => .next (st.stopShort e)

/-- The token part of a cycle: FLAGS[0] selects LIT or MATCH (R101). -/
def runToken (st : State) : Host.Outcome State Fault Refusal := runElement st.tokenKind st

/-- After the CTRL step: "a cycle that reaches stop makes no further change" (R101). -/
def afterRefill (st : State) : Host.Outcome State Fault Refusal :=
  if st.seq = .done then .next st else runToken st

/-- One decoder token cycle (R101): shift FLAGS, refill when the sentinel is exhausted, run one token. -/
def decoderCycle (st : State) : Host.Outcome State Fault Refusal :=
  let st1 := st.shiftFlags
  if st1.needsRefill then andThen (runElement .control st1) afterRefill else runToken st1

/-- One transition of the sequencer (R40).  In IDLE and DONE it takes none until START (R312). -/
def blockStep (st : State) : Host.Outcome State Fault Refusal :=
  match st.seq with
  | .idle => .next st
  | .dInit => .next st.decoderInit
  | .dCycle => decoderCycle st
  | .eInit => .next st.encoderInit
  | .eLoad => .next st.encoderLoad
  | .eSeed => outcomeOf st.encoderSeed
  | .eIter => outcomeOf st.encoderIter
  | .eFlush => .next st.encoderFlush
  | .done => .next st

/-- Read OUT: only when STATUS = DONE (R220, R223); a read at another time is refused by name (U8). -/
def readOut (st : State) : Host.Outcome State Fault Refusal :=
  if st.status = .done then .next { st with reply := some (.out st.out st.out.length) }
  else .refused .outNotReadable

/-- Read STATUS: "a truthful value, without side effect" (R220). -/
def readStatus (st : State) : State := { st with reply := some (.status st.status.value) }

/-- One interaction of the host (R220), or the sequencer's transition when the host passes. -/
def hostStep (m : HostMove) (st : State) : Host.Outcome State Fault Refusal :=
  match m with
  | .pass => blockStep st
  | .start op input => exec (decodeCommand op input) st
  | .readStatus => .next (readStatus st)
  | .readOut => readOut st
  | .blockReset => .next st.blockReset

/-- One step of the machine: the host's next move if it has one, else a transition of the sequencer. -/
def nextMove (st : State) : Host.Outcome State Fault Refusal :=
  match st.host with
  | [] => blockStep st
  | m :: rest => hostStep m { st with host := rest }

/-- A command placed at the port, with the block ready for it (withFetchWord's command case). -/
def placeCommand (st : State) (op : BitVec 1) : State :=
  { st with status := .idle, seq := .idle, host := [.start op []] }

/-- A stream placed at IN with the sequencer at a token cycle, and FLAGS before that cycle's shift as given
(withFetchWord's stream cases). -/
def placeStream (st : State) (flags : BitVec 16) (bytes : List Byte) : State :=
  { st with status := .busy, seq := .dCycle, op := 1#1, host := [], input := bytes, ip := 0, flags := flags }

/-- The state whose next step runs the table word w of nbits bits: the OP bit at the port, a control byte where a
stream starts (FLAGS = 0, R109), or a match after a control byte 0x02 and its first token (FLAGS = 0xFF02). -/
def placeTableWord (st : State) (nbits w : Nat) : State :=
  if nbits < 8 then placeCommand st (BitVec.ofNat 1 w)
  else if nbits = 8 then placeStream st 0x0000#16 [tableByte w 0]
  else placeStream st 0xFF02#16 [tableByte w 0, tableByte w 1]

end Sys2Proof.Machine
end

