-- ==== Sys2Proof/Machine/Step.lean ====
section
/-! DEFINITION. The step of the machine, and the state in which a given table word is what it runs next. -/

namespace Sys2Proof.Machine

/-- One step: a host interaction or one sequencer transition (R40, R220, D1). -/
def step (st : State) : Host.Outcome State Fault Refusal := nextMove st

/-- st with the table word w placed where the next step fetches. -/
def State.withFetchWord (st : State) (nbits w : Nat) : State := placeTableWord st nbits w

end Sys2Proof.Machine
end

