-- ==== Sys2Proof/Machine/Client.lean ====
section
/-! DEFINITION. How the container codec, the block's host, uses the block's results (spec/43_host_interface.md R226 to
R230, spec/60_exceptions.md R306).  These functions work on byte strings only and add nothing to the block: the rest of
the container is out of scope (spec/00_scope.md R7). -/

namespace Sys2Proof.Machine

/-- The host's errors, none raised by the block (R306). -/
inductive ClientError where
  /-- "bad filename pattern, empty file list" -/
  | invalidInput
  /-- "bad slot count, out-of-range offsets, insufficient trailing slack" -/
  | invalidFormat
  /-- "decompressed length mismatch": the only one that depends on the block's output (R228) -/
  | dataCorruption
  /-- an I/O failure -/
  | ioFailure
deriving DecidableEq, Repr

/-- What the host reads from the front of a stored entry (R230). -/
inductive EntryKind where
  /-- a compressed entry, with its original (unpacked) length -/
  | compressed (unpackedLen : Nat)
  /-- an uncompressed entry -/
  | uncompressed
deriving DecidableEq, Repr

/-- A 32-bit little-endian field: u0 is the least significant byte (R230).  Of a longer number, its low 32 bits
(notes/assumptions/20.md). -/
def le32 (n : Nat) : List Byte :=
  [BitVec.ofNat 8 n, BitVec.ofNat 8 (n / 256), BitVec.ofNat 8 (n / 65536), BitVec.ofNat 8 (n / 16777216)]

/-- The number a 32-bit little-endian field holds (R230). -/
def ofLe32 (b0 b1 b2 b3 : Byte) : Nat :=
  b0.toNat + 256 * b1.toNat + 65536 * b2.toNat + 16777216 * b3.toNat

/-- The 4-byte uncompressed micro-header 00 00 00 00 (R230). -/
def rawHeader : List Byte := [0x00#8, 0x00#8, 0x00#8, 0x00#8]

/-- The 6-byte compressed micro-header 01 00 u0 u1 u2 u3 (R230).  DESIGN CHOICE: the header of a file longer than
2^32 - 1 bytes, for which the spec gives no treatment, holds the length modulo 2^32 (notes/assumptions/20.md). -/
def compressedHeader (unpackedLen : Nat) : List Byte := [0x01#8, 0x00#8] ++ le32 unpackedLen

/-- COMPRESS is run only "if compression is requested and the file is larger than 8 bytes" (R226). -/
def runsCompress (requested : Bool) (raw : List Byte) : Bool := requested && decide (8 < raw.length)

/-- The stored entry: the compressed form when COMPRESS was run and it is strictly smaller than the raw data, else the
raw data (R226); `compressed` is the block's OUT for `raw`. -/
def storedEntry (requested : Bool) (raw compressed : List Byte) : List Byte :=
  if runsCompress requested raw && decide (compressed.length < raw.length) then
    compressedHeader raw.length ++ compressed
  else rawHeader ++ raw

/-- The kind of a stored entry: low 16 bits equal to 1 is compressed, four zero bytes or "OggS" at offset 4 is
uncompressed; the spec leaves every other header unclassified (R230, spec/93_implementation_defined.md U13). -/
def classifyEntry (bytes : List Byte) : Option EntryKind :=
  match bytes with
  | 0x01#8 :: 0x00#8 :: b0 :: b1 :: b2 :: b3 :: _ => some (.compressed (ofLe32 b0 b1 b2 b3))
  | _ =>
    if bytes.take 4 = rawHeader then some .uncompressed
    else if (bytes.drop 4).take 4 = [0x4F#8, 0x67#8, 0x67#8, 0x53#8] then some .uncompressed
    else none

/-- What the host passes to DECOMPRESS for the signature peek: the first 16 bytes of the payload (R227, D24). -/
def peekInput (payload : List Byte) : List Byte := payload.take 16

/-- The signature: the first 4 decompressed bytes, none when fewer were decoded (R227, D24). -/
def peekSignature (out : List Byte) : Option (List Byte) :=
  if 4 ≤ out.length then some (out.take 4) else none

/-- The host's length check of a compressed entry (R228); `out` is the block's OUT for the payload. -/
def checkLength (unpackedLen : Nat) (out : List Byte) : Except ClientError (List Byte) :=
  if out.length = unpackedLen then .ok out else .error .dataCorruption

/-- Whether a DataCorruption of one entry ends the whole unpack: "an implementation choice" (R228, D19), so an
argument. -/
def endsUnpack (scope : Config.CorruptionScope) : Bool :=
  match scope with
  | .entry => false
  | .unpack => true

end Sys2Proof.Machine
end

