-- ==== Sys2Proof/Safety.lean ====
section
/-! DEFINITION. The terms in which claims speak of the machine: runs, calls, the invariants of a well-formed state, of
a running encoder (spec/41_compress.md R160, R161, spec/20_memory.md R63) and of the search tree (spec/42_match_tree.md
R191). -/

namespace Sys2Proof.Machine

/-! Runs and calls -/

/-- n steps, stopping at the first fault or refusal. -/
def stepMany : Nat → State → Host.Outcome State Fault Refusal
  | 0, st => .next st
  | n + 1, st => andThen (step st) (stepMany n)

/-- The call of operation op on input b, started in st, ends in t: START is accepted and some number of steps later
STATUS is DONE (R21, R221). -/
def CallEnds (st : State) (op : BitVec 1) (b : List Byte) (t : State) : Prop :=
  ∃ s n, exec (decodeCommand op b) st = .next s ∧ stepMany n s = .next t ∧ t.status = .done

/-- The port's preconditions of a call, with no further host move waiting (R220, R222, R301). -/
def CanStart (st : State) (b : List Byte) : Prop :=
  st.host = [] ∧ st.status ≠ .busy ∧ b.length ≤ st.params.maxInputLen

/-! Well-formed states -/

/-- STATUS and SEQ agree: IDLE with IDLE, DONE with DONE, BUSY with every other (R21, R40). -/
def State.statusMatchesSeq (st : State) : Bool :=
  match st.seq with
  | .idle => decide (st.status = .idle)
  | .done => decide (st.status = .done)
  | .dInit | .dCycle | .eInit | .eLoad | .eSeed | .eIter | .eFlush => decide (st.status = .busy)

/-- OP and SEQ agree while an operation runs: OP = 1 in the decoder's states, 0 in the encoder's (R22, R40). -/
def State.opMatchesSeq (st : State) : Bool :=
  match st.seq with
  | .idle | .done => true
  | .dInit | .dCycle => decide (st.op = 1#1)
  | .eInit | .eLoad | .eSeed | .eIter | .eFlush => decide (st.op = 0#1)

/-- A well-formed state: the arrays are in canonical form, STATUS, OP and SEQ agree, 0 <= IP <= L (R24) and
L <= MAX_INPUT_LEN (R23). -/
def State.wf (st : State) : Bool :=
  Memory.wf st.params.unprimedFill st.ring && treeWf st.lson && treeWf st.rson && treeWf st.dad &&
    st.statusMatchesSeq && st.opMatchesSeq && decide (st.ip ≤ st.input.length) &&
    decide (st.input.length ≤ st.params.maxInputLen)

/-! The running encoder -/

/-- The encoder's state between its initialisation and DONE. -/
def State.encoding (st : State) : Bool :=
  match st.seq with
  | .eLoad | .eSeed | .eIter | .eFlush => true
  | .idle | .dInit | .dCycle | .eInit | .done => false

/-- The number of match tokens among the first k tokens of a group with control byte c (R86). -/
def matchCount (c : Byte) : Nat → Nat
  | 0 => 0
  | k + 1 => matchCount c k + (if c.getLsbD k then 1 else 0)

/-- The group buffer holds k < 8 tokens: MASK selects bit k, CODE_PTR is the group's length in bytes (R86), and the
control bits from k on are still 0 (R32, R33, R34, R149). -/
def State.GroupOpen (st : State) : Prop :=
  ∃ k, k < 8 ∧ st.mask = 1#8 <<< k ∧ st.codePtr.toNat = 1 + k + matchCount st.codeBuf[0] k ∧
    ∀ n, k ≤ n → st.codeBuf[0].getLsbD n = false

/-- Mirror coherence (R63): cell 4096 + k equals cell k once the slide has written it; before that, both hold their
call-start contents. -/
def State.MirrorCoherent (st : State) : Prop :=
  ∀ k, k < 17 → st.ringRead (4096 + k) = st.ringRead k ∨
    (st.ringRead k = Config.primeByte ∧ st.ringRead (4096 + k) = st.params.unprimedFill)

/-- The lookahead (R161), with E = IP - LEN bytes encoded so far: LEN = min(18, L - E), IP = min(L, E + 18), and
lookahead byte k is input byte E + k. -/
def State.Lookahead (st : State) : Prop :=
  st.len.toNat ≤ st.ip ∧ st.len.toNat = min 18 (st.input.length - (st.ip - st.len.toNat)) ∧
    st.ip = min st.input.length (st.ip - st.len.toNat + 18) ∧
    ∀ k, k < st.len.toNat →
      st.input[st.ip - st.len.toNat + k]? = some (st.windowByte (st.r + BitVec.ofNat 12 k))

/-- The state in which the load starts (R402): every register the encoder reads is at its call-start value. -/
def State.AtCallStart (st : State) : Prop :=
  st.ip = 0 ∧ st.out = [] ∧ st.r = Config.initPos ∧ st.s = 0#12 ∧ st.len = 0#5 ∧ st.matchPos = 0#12 ∧
    st.matchLen = 0#5 ∧ st.mask = 1#8 ∧ st.codePtr = 1#5 ∧ st.codeBuf[0] = 0#8 ∧ st.ring = [] ∧ st.lson = [] ∧
    st.rson = [] ∧ st.dad = []

/-- What holds of the encoder's registers and window in each of its states: R = S + 4078 (R160), MATCH_LEN <= 18
(R30), the group buffer (R32 to R34), mirror coherence (R63), and the lookahead (R161), which is not empty before a
token is chosen. -/
def State.EncoderInv (st : State) : Prop :=
  match st.seq with
  | .eLoad => st.AtCallStart
  | .eSeed =>
    st.r = st.s + Config.initPos ∧ st.matchLen.toNat ≤ 18 ∧ st.GroupOpen ∧ st.MirrorCoherent ∧ st.Lookahead ∧
      st.len ≠ 0#5
  | .eIter =>
    st.r = st.s + Config.initPos ∧ st.matchLen.toNat ≤ 18 ∧ st.GroupOpen ∧ st.MirrorCoherent ∧ st.Lookahead ∧
      st.len ≠ 0#5
  | .eFlush =>
    st.r = st.s + Config.initPos ∧ st.matchLen.toNat ≤ 18 ∧ st.GroupOpen ∧ st.MirrorCoherent ∧ st.Lookahead ∧
      st.len = 0#5
  | .idle | .dInit | .dCycle | .eInit | .done => True

/-- One position of the slide, written out from R150 (an input byte c remains) and R151 (none does), in the order of
R405 to R407. -/
def slideTurn (st : State) : Except Fault State :=
  match st.input[st.ip]? with
  | some c => do
    let st1 ← deleteNode st.s { st with ip := st.ip + 1 }
    let st2 := st1.ringWrite st1.s.toNat c
    let st3 := if st1.s.toNat < 17 then st2.ringWrite (st1.s.toNat + 4096) c else st2
    let st4 := { st3 with s := st3.s + 1#12, r := st3.r + 1#12 }
    let st5 ← insertNode st4.r st4
    pure { st5 with i := st5.i + 1#5 }
  | none => do
    let st1 ← deleteNode st.s { st with i := st.i + 1#5 }
    let st2 := { st1 with s := st1.s + 1#12, r := st1.r + 1#12, len := st1.len - 1#5 }
    if st2.len = 0#5 then pure st2 else insertNode st2.r st2

/-! The search tree -/

/-- A binary tree of window positions. -/
inductive TreeShape where
  /-- no node -/
  | leaf
  /-- a node, its position and its two subtrees -/
  | node (left : TreeShape) (p : Pos) (right : TreeShape)
deriving DecidableEq, Repr

/-- The positions of a tree, in order (R191). -/
def TreeShape.nodes : TreeShape → List Pos
  | .leaf => []
  | .node l p r => l.nodes ++ p :: r.nodes

/-- The arrays hold the tree t under the link that parent's child cell holds, with DAD consistent with the child links
(R180, R191). -/
def State.Holds (st : State) : TreeIdx → TreeIdx → TreeShape → Prop
  | _, link, .leaf => link = nilIdx
  | parent, link, .node l p r =>
    link = nodeIdx p ∧ st.dadAt (nodeIdx p) = parent ∧
      st.Holds (nodeIdx p) (st.lsonAt (nodeIdx p)) l ∧ st.Holds (nodeIdx p) (st.rsonAt (nodeIdx p)) r

/-- key(p): the 18 bytes RING[p..p+17] (R180). -/
def State.key (st : State) (p : Pos) : List Byte := (List.range 18).map (st.keyByte p)

/-- p is in a tree: DAD[p] is not NIL (R180). -/
def State.inTree (st : State) (p : Pos) : Prop := st.dadAt (nodeIdx p) ≠ nilIdx

/-- The search-tree invariant (R191): under every root stands a tree whose in-order walk lists nodes with strictly
increasing keys, all beginning with the root's byte; DAD agrees with the child links; and DAD[p] = NIL exactly when p
is in no tree. -/
def State.TreeInv (st : State) : Prop :=
  ∃ shape : Byte → TreeShape,
    (∀ c, st.Holds (rootIdx c) (st.rsonAt (rootIdx c)) (shape c)) ∧
    (∀ c, (shape c).nodes.Pairwise (fun p q => st.key p < st.key q)) ∧
    (∀ c, ∀ p ∈ (shape c).nodes, st.keyByte p 0 = c) ∧
    (∀ p, st.inTree p ↔ ∃ c, p ∈ (shape c).nodes)

/-- The number of leading equal bytes of two keys, 0..18 (R183). -/
def State.sharedBytes (st : State) (p q : Pos) : Nat :=
  ((List.range 18).takeWhile (fun i => st.keyByte p i == st.keyByte q i)).length

/-- Membership (R192): every node is R itself or a window position 1..4078 behind R, that is in S..R. -/
def State.NodesInWindow (st : State) : Prop :=
  ∀ p, st.inTree p → (st.r - p).toNat ≤ 4078

/-- The search result the next token is chosen from (R157, R192): a match lies 1..4078 positions behind R, and its
first MATCH_LEN key bytes are those of R. -/
def State.ResultValid (st : State) : Prop :=
  0 < st.matchLen.toNat →
    1 ≤ (st.r - st.matchPos).toNat ∧ (st.r - st.matchPos).toNat ≤ 4078 ∧
      ∀ k, k < st.matchLen.toNat → st.keyByte st.matchPos k = st.keyByte st.r k

/-- What holds of the tree in each of the encoder's states: empty before the seeding (R181, with R = INIT_POS), a
search tree over the window with a valid search result before a token is chosen (R191, R192). -/
def State.SearchInv (st : State) : Prop :=
  match st.seq with
  | .eSeed => st.r = Config.initPos ∧ st.lson = [] ∧ st.rson = [] ∧ st.dad = []
  | .eIter => st.TreeInv ∧ st.NodesInWindow ∧ st.ResultValid
  | .idle | .dInit | .dCycle | .eInit | .eLoad | .eFlush | .done => True

end Sys2Proof.Machine
end

