-- ==== Sys2Proof/Certificates/Slice0/Obligations.lean ====
section
/-! DEFINITION. The statements for the provers.  Each docstring names the rule of spec/ it formalises; OBLIGATIONS.json
lists them with their tiers and quotes. -/

open Sys2Proof Sys2Proof.Machine

/-! ## Encoding (spec/30_encoding.md) -/

/-- Words written out from the encodings of R81, R82, R83 and the command encoding of R94 decode to what they stand
for: the bytes are those of the vectors DV13, DV4, DV5 and EV12b. -/
def Obligations.WrittenOutWordsDecode : Prop :=
  decode .control [0x0A#8, 0x41#8] = .ok (.ctrl 0x0A#8, [0x41#8]) ∧
  decode .literal [0x41#8, 0xEE#8] = .ok (.lit 0x41#8, [0xEE#8]) ∧
  decode .matched [0xED#8, 0xF0#8] = .ok (.matchTok 0xFED#12 3, []) ∧
  decode .matched [0x00#8, 0x0F#8, 0x99#8] = .ok (.matchTok 0x000#12 18, [0x99#8]) ∧
  decode .matched [0x11#8, 0x01#8] = .ok (.matchTok 0x011#12 4, []) ∧
  decodeCommand 0#1 [0x41#8] = .cmdCompress [0x41#8] ∧
  decodeCommand 1#1 [0x00#8, 0x41#8] = .cmdDecompress [0x00#8, 0x41#8]

/-- R85: a match is written as B0 = pos[7:0] and B1 = {pos[11:8], len - 3}, and decoding inverts encoding for every
well-formed stream element and every command, whatever bytes follow. -/
def Obligations.DecodeInvertsEncode : Prop :=
  (∀ (pos : Pos) (len : Nat), 3 ≤ len → len ≤ 18 →
    encode (.matchTok pos len) =
      [BitVec.ofNat 8 (pos.toNat % 256), BitVec.ofNat 8 (pos.toNat / 256 * 16 + (len - 3))]) ∧
  (∀ (i : Instr) (k : Kind) (rest : List Byte), i.wf = true → i.kind? = some k →
    decode k (encode i ++ rest) = .ok (i, rest)) ∧
  (∀ (i : Instr) (op : BitVec 1) (b : List Byte), encodeCommand i = some (op, b) → decodeCommand op b = i)

/-- R89: there is no illegal bit pattern.  Under each kind, bytes either decode to a well-formed element of that kind
which encodes back to exactly the bytes read, or they are too few for one element, and then all of them are consumed. -/
def Obligations.EveryByteStringDecodes : Prop :=
  ∀ (k : Kind) (bytes : List Byte),
    (∃ i rest, decode k bytes = .ok (i, rest) ∧ i.wf = true ∧ i.kind? = some k ∧ encode i ++ rest = bytes) ∨
    (∃ e, decode k bytes = .error e ∧ e.consumed = bytes.length ∧
      bytes.length < (match k with | .control => 1 | .literal => 1 | .matched => 2))

/-! ## Host commands and the port (spec/43_host_interface.md) -/

/-- R221: START(0, IN) on an idle or finished block latches OP and IN, sets STATUS to BUSY and SEQ to E_INIT, with
IP = 0 (R24) and OUT empty (R25; in this step: log entry 3), and changes nothing else. -/
def Obligations.CompressCommandStartsCall : Prop :=
  ∀ (st : State) (b : List Byte), st.status ≠ .busy → b.length ≤ st.params.maxInputLen →
    exec (.cmdCompress b) st =
      .next { st with op := 0#1, input := b, ip := 0, out := [], status := .busy, seq := .eInit }

/-- R221: START(1, IN) does the same with OP = 1 and SEQ = D_INIT (log entry 3). -/
def Obligations.DecompressCommandStartsCall : Prop :=
  ∀ (st : State) (b : List Byte), st.status ≠ .busy → b.length ≤ st.params.maxInputLen →
    exec (.cmdDecompress b) st =
      .next { st with op := 1#1, input := b, ip := 0, out := [], status := .busy, seq := .dInit }

/-- R222, R301: START is refused by name while STATUS = BUSY, and for an input longer than MAX_INPUT_LEN.  That a START
which is both is named startWhileBusy is the model's choice (log entry 9). -/
def Obligations.StartIsRefusedWhenBusyOrTooLong : Prop :=
  ∀ (st : State) (op : BitVec 1) (b : List Byte),
    (st.status = .busy → exec (decodeCommand op b) st = .refused .startWhileBusy) ∧
    (st.status ≠ .busy → st.params.maxInputLen < b.length →
      exec (decodeCommand op b) st = .refused .inputTooLong)

/-- A step with a START waiting at the port is exec of the command the OP bit selects (R94), once the move is taken
(the queue of host moves is the model's: log entry 2). -/
def Obligations.PortRunsTheCommand : Prop :=
  ∀ (st : State) (op : BitVec 1) (b : List Byte) (rest : List HostMove), st.host = .start op b :: rest →
    (op = 0#1 → step st = exec (.cmdCompress b) { st with host := rest }) ∧
    (op = 1#1 → step st = exec (.cmdDecompress b) { st with host := rest })

/-- R220, R21: reading STATUS gives the host the 2-bit value 0, 1 or 2 and changes nothing of the block
(the reply field is the model's record of the port: log entry 13). -/
def Obligations.ReadStatusHasNoSideEffect : Prop :=
  ∀ (st : State) (rest : List HostMove), st.host = .readStatus :: rest →
    (st.status = .idle → step st = .next { st with host := rest, reply := some (.status 0#2) }) ∧
    (st.status = .busy → step st = .next { st with host := rest, reply := some (.status 1#2) }) ∧
    (st.status = .done → step st = .next { st with host := rest, reply := some (.status 2#2) })

/-- R220, R223: reading OUT at DONE gives OUT and its length and changes nothing of the block; at another time it is
refused by name (U8; log entries 9 and 13). -/
def Obligations.ReadOutOnlyWhenDone : Prop :=
  ∀ (st : State) (rest : List HostMove), st.host = .readOut :: rest →
    (st.status = .done →
      step st = .next { st with host := rest, reply := some (.out st.out st.out.length) }) ∧
    (st.status ≠ .done → step st = .refused .outNotReadable)

/-- R400, R225: a block reset, at any time, gives STATUS = IDLE and SEQ = IDLE, and the host may START at once.  That
it keeps the parameters and the rest of the host's moves is the model's choice (log entries 1, 2 and 4). -/
def Obligations.BlockResetGivesIdle : Prop :=
  State.reset.status = .idle ∧ State.reset.seq = .idle ∧
  ∀ (st : State) (rest : List HostMove), st.host = .blockReset :: rest →
    ∃ t, step st = .next t ∧ t.status = .idle ∧ t.seq = .idle ∧ t.host = rest ∧ t.params = st.params ∧
      ∀ (op : BitVec 1) (b : List Byte), b.length ≤ st.params.maxInputLen →
        ∃ u, exec (decodeCommand op b) t = .next u ∧ u.status = .busy

/-- R312: in IDLE and in DONE the block takes no step until START (a host that passes: log entry 2). -/
def Obligations.WaitingBlockTakesNoStep : Prop :=
  ∀ st : State, (st.seq = .idle ∨ st.seq = .done) →
    (st.host = [] → step st = .next st) ∧
    (∀ rest, st.host = .pass :: rest → step st = .next { st with host := rest })

/-- R220, R302, R40: where the host passes, in whatever state the sequencer is, the step is the sequencer's own: what it
is with no host move waiting, next state or fault, with the rest of the moves still waiting (the pass move is the model's:
log entry 2). -/
def Obligations.PassLetsTheSequencerStep : Prop :=
  ∀ (st : State) (rest : List HostMove), st.host = .pass :: rest →
    (∀ u, step { st with host := [] } = .next u → step st = .next { u with host := rest }) ∧
    (∀ f, step { st with host := [] } = .fault f → step st = .fault f) ∧
    (∀ f, step st ≠ .refused f)

/-- R223: OUT and STATUS = DONE stay until the next START or block reset. -/
def Obligations.OutputStaysUntilNextCall : Prop :=
  ∀ st t : State, st.wf = true → st.status = .done → step st = .next t →
    (∃ op b rest, st.host = .start op b :: rest) ∨ (∃ rest, st.host = .blockReset :: rest) ∨
      (t.out = st.out ∧ t.status = .done ∧ t.input = st.input ∧ t.ip = st.ip)

/-! ## The sequencer (spec/10_state.md R40) -/

/-- A decoder cycle runs what it decodes (R101): FLAGS is shifted; if FLAGS[8] = 0 the control byte at IP runs first;
then the token that FLAGS[0] selects, at the IP reached, runs.  Where the stream ends first, the bytes left are
consumed and the operation stops (R102, R105).  That a cycle decodes an element and then runs exec of it is the model's
choice (log entry 10). -/
def Obligations.CycleRunsTheDecodedElements : Prop :=
  ∀ st s1 : State, st.host = [] → st.seq = .dCycle → s1 = { st with flags := st.flags >>> 1 } →
    (s1.flags.getLsbD 8 = true →
      ∀ k, k = (if s1.flags.getLsbD 0 then Kind.matched else Kind.literal) →
        (∀ i rest, decode k (s1.input.drop s1.ip) = .ok (i, rest) → step st = exec i s1) ∧
        (∀ e, decode k (s1.input.drop s1.ip) = .error e →
          step st = .next { s1 with ip := s1.ip + e.consumed, seq := .done, status := .done })) ∧
    (s1.flags.getLsbD 8 = false →
      (∀ e, decode .control (s1.input.drop s1.ip) = .error e →
        step st = .next { s1 with seq := .done, status := .done }) ∧
      (∀ i rest, decode .control (s1.input.drop s1.ip) = .ok (i, rest) →
        ∃ s2, exec i s1 = .next s2 ∧
          ∀ k, k = (if s2.flags.getLsbD 0 then Kind.matched else Kind.literal) →
            (∀ j rest', decode k (s2.input.drop s2.ip) = .ok (j, rest') → step st = exec j s2) ∧
            (∀ e, decode k (s2.input.drop s2.ip) = .error e →
              step st = .next { s2 with ip := s2.ip + e.consumed, seq := .done, status := .done })))

/-- R40: the transitions of SEQ, and START's. -/
def Obligations.SequencerTransitions : Prop :=
  ∀ st t : State, st.host = [] → step st = .next t →
    match st.seq with
    | .idle => t = st
    | .dInit => t.seq = .dCycle
    | .dCycle => t.seq = .dCycle ∨ (t.seq = .done ∧ t.status = .done)
    | .eInit => t.seq = .eLoad
    | .eLoad => (t.len = 0#5 ∧ t.seq = .done ∧ t.status = .done) ∨ (t.len ≠ 0#5 ∧ t.seq = .eSeed)
    | .eSeed => t.seq = .eIter
    | .eIter => (t.len ≠ 0#5 ∧ t.seq = .eIter) ∨ (t.len = 0#5 ∧ t.seq = .eFlush)
    | .eFlush => t.seq = .done ∧ t.status = .done
    | .done => t = st

/-- R301, R300: the sequencer itself refuses nothing, and only the two phases that walk the tree can stop at all. -/
def Obligations.SequencerStopsOnlyInTreePhases : Prop :=
  ∀ st : State, st.host = [] →
    (∀ r, step st ≠ .refused r) ∧
    (st.seq ≠ .eSeed → st.seq ≠ .eIter → ∃ t, step st = .next t)

/-- R23, R72: a sequencer step leaves IN, OP, the parameters and the host's side of the port alone, takes free values
only in E_INIT (log entry 5), and after the call's initialisation only appends to OUT. -/
def Obligations.SequencerStepFrame : Prop :=
  ∀ st t : State, st.host = [] → step st = .next t →
    t.input = st.input ∧ t.op = st.op ∧ t.params = st.params ∧ t.host = st.host ∧ t.reply = st.reply ∧
    (st.seq ≠ .eInit → t.frees = st.frees) ∧
    (st.seq ≠ .dInit → st.seq ≠ .eInit → ∃ more, t.out = st.out ++ more)

/-- R37, R61: DECOMPRESS touches none of the encoder's registers and arrays, and a token cycle touches no ring cell
above 4095 (log entry 6). -/
def Obligations.DecompressLeavesEncoderStateAlone : Prop :=
  ∀ st t : State, st.host = [] → (st.seq = .dInit ∨ st.seq = .dCycle) → step st = .next t →
    t.s = st.s ∧ t.len = st.len ∧ t.matchPos = st.matchPos ∧ t.matchLen = st.matchLen ∧ t.lastLen = st.lastLen ∧
    t.i = st.i ∧ t.mask = st.mask ∧ t.codePtr = st.codePtr ∧ t.codeBuf = st.codeBuf ∧ t.lson = st.lson ∧
    t.rson = st.rson ∧ t.dad = st.dad ∧
    (st.seq = .dCycle → ∀ a, 4096 ≤ a → t.ringRead a = st.ringRead a)

/-- R37: COMPRESS does not touch FLAGS (log entry 6), and an iteration writes RING only at the cells from S on that its input bytes
overwrite and at their mirror cells (R62, R150). -/
def Obligations.CompressFrame : Prop :=
  ∀ st t : State, st.host = [] → st.opMatchesSeq = true → st.op = 0#1 → step st = .next t →
    t.flags = st.flags ∧
    (st.seq = .eIter → ∀ a,
      (∀ j, st.ip + j < t.ip → a ≠ (st.s + BitVec.ofNat 12 j).toNat ∧ a ≠ (st.s + BitVec.ofNat 12 j).toNat + 4096) →
        t.ringRead a = st.ringRead a)

/-! ## Invariants -/

/-- The state after reset meets the invariants of this file; its values but STATUS and SEQ are the model's choice (log
entry 4). -/
def Obligations.ResetMeetsTheInvariants : Prop :=
  State.reset.wf = true ∧ State.reset.EncoderInv ∧ State.reset.SearchInv ∧
    Memory.wf State.reset.params.unprimedFill State.reset.ring = true

/-- Every step keeps the state well formed: canonical arrays (the model's form: log entry 7), STATUS, OP and SEQ in agreement (R21, R22, R40),
0 <= IP <= L (R24) and L <= MAX_INPUT_LEN (R23). -/
def Obligations.StepKeepsStateWellFormed : Prop :=
  ∀ st t : State, st.wf = true → step st = .next t → t.wf = true

/-- Every step keeps the encoder's invariant: R = S + 4078 (R160), the group buffer (R32 to R34, R149), mirror
coherence (R63) and the lookahead (R161). -/
def Obligations.StepKeepsEncoderInvariant : Prop :=
  ∀ st t : State, st.EncoderInv → step st = .next t → t.EncoderInv

/-- R191, R192, R157, R221: in a state that meets the encoder's and the search's invariants, the running encoder always
has a next state, and it meets both again. -/
def Obligations.EncoderNeverFaults : Prop :=
  ∀ st : State, st.host = [] → st.encoding = true → st.EncoderInv → st.SearchInv →
    ∃ t, step st = .next t ∧ t.EncoderInv ∧ t.SearchInv

/-! ## DECOMPRESS (spec/40_decompress.md) -/

/-- R401: decoder call start.  That what R401 does not write keeps its value is log entry 6, and that UNPRIMED_FILL is
read from the state is log entry 1. -/
def Obligations.DecoderInitialises : Prop :=
  ∀ st : State, st.host = [] → st.seq = .dInit →
    ∃ t, step st = .next t ∧
      t = { st with ring := t.ring, r := 0xFEE#12, flags := 0x0000#16, ip := 0, out := [], seq := .dCycle } ∧
      (∀ a, a ≤ 4077 → t.ringRead a = 0x20#8) ∧
      (∀ a, 4078 ≤ a → a ≤ 4112 → t.ringRead a = st.params.unprimedFill)

/-- R102: CTRL refills FLAGS with 0xFF00 | c and takes one input byte; at end of input the operation stops. -/
def Obligations.CtrlRefillsFlags : Prop :=
  (∀ (c : Byte) (rest : List Byte), decode .control (c :: rest) = .ok (.ctrl c, rest)) ∧
  (∀ (c : Byte) (st : State), st.ip < st.input.length →
    exec (.ctrl c) st = .next { st with ip := st.ip + 1, flags := 0xFF00#16 ||| c.setWidth 16 }) ∧
  (∀ (c : Byte) (st : State), st.input.length ≤ st.ip →
    exec (.ctrl c) st = .next { st with seq := .done, status := .done })

/-- R103: LIT takes one input byte, appends it to OUT, writes it to RING[R] and advances R modulo 4096; every other
cell of RING and everything else is unchanged.  At end of input the operation stops. -/
def Obligations.LitEmitsTheByte : Prop :=
  (∀ (d : Byte) (rest : List Byte), decode .literal (d :: rest) = .ok (.lit d, rest)) ∧
  (∀ (d : Byte) (st : State), st.ip < st.input.length →
    ∃ t, exec (.lit d) st = .next t ∧
      t = { st with ip := st.ip + 1, out := st.out ++ [d], r := st.r + 1#12, ring := t.ring } ∧
      ∀ a, t.ringRead a = if a = st.r.toNat then d else st.ringRead a) ∧
  (∀ (d : Byte) (st : State), st.input.length ≤ st.ip →
    exec (.lit d) st = .next { st with seq := .done, status := .done })

/-- R104, R404: MATCH takes two input bytes and copies len bytes from the window, byte-serially: byte k comes from
position pos + k (modulo 4096), and where an earlier byte j < k of the same match was written there (R + j = pos + k),
it is that byte, else the old contents.  The copied bytes are appended to OUT and written at R, R + 1, ...; R advances
by len; every other cell of RING and everything else is unchanged.  Where the input ends before either byte, the bytes
left are consumed and the operation stops with nothing emitted. -/
def Obligations.MatchCopiesByteSerially : Prop :=
  (∀ (i j : Byte) (rest : List Byte), ∃ pos len, decode .matched (i :: j :: rest) = .ok (.matchTok pos len, rest) ∧
    pos.toNat = i.toNat + 256 * (j.toNat / 16) ∧ len = j.toNat % 16 + 3) ∧
  (∀ (st : State) (pos : Pos) (len : Nat), 3 ≤ len → len ≤ 18 → st.ip + 2 ≤ st.input.length →
    ∃ t copied, exec (.matchTok pos len) st = .next t ∧ copied.length = len ∧
      t = { st with ip := st.ip + 2, out := st.out ++ copied, r := st.r + BitVec.ofNat 12 len, ring := t.ring } ∧
      (∀ k, k < len → copied[k]? = some
        (if (pos + BitVec.ofNat 12 k - st.r).toNat < k then copied.getD (pos + BitVec.ofNat 12 k - st.r).toNat 0#8
          else st.ringRead (pos + BitVec.ofNat 12 k).toNat)) ∧
      (∀ k, k < len → copied[k]? = some (t.ringRead (st.r + BitVec.ofNat 12 k).toNat)) ∧
      (∀ a, (∀ k, k < len → a ≠ (st.r + BitVec.ofNat 12 k).toNat) → t.ringRead a = st.ringRead a)) ∧
  (∀ (st : State) (pos : Pos) (len : Nat), st.ip + 1 = st.input.length →
    exec (.matchTok pos len) st = .next { st with ip := st.ip + 1, seq := .done, status := .done }) ∧
  (∀ (st : State) (pos : Pos) (len : Nat), st.input.length ≤ st.ip →
    exec (.matchTok pos len) st = .next { st with seq := .done, status := .done })

/-- R404: a match at distance 1 repeats the byte before the cursor len times; a copy that read all its source bytes
first would not. -/
def Obligations.DistanceOneMatchRepeatsTheByte : Prop :=
  ∀ (st : State) (len : Nat), 3 ≤ len → len ≤ 18 → st.ip + 2 ≤ st.input.length →
    ∃ t, exec (.matchTok (st.r - 1#12) len) st = .next t ∧
      t.out = st.out ++ List.replicate len (st.ringRead (st.r - 1#12).toNat)

/-- R109: the refill cadence.  The first cycle of a call needs a refill.  Let a cycle that needs one find the control byte
c at IP: it is the group's cycle 0.  For k < 8, cycle k (reached by k steps with no stop) takes a control byte only for
k = 0, runs one token of the kind c[k] at the IP reached, and has FLAGS = (0xFF00 | c) >> k; and cycle 8 needs a refill
again.  The runs are of the model's runElement, decode and then exec (log entry 10). -/
def Obligations.ControlByteGovernsEightTokens : Prop :=
  (∀ st t : State, st.host = [] → st.seq = .dInit → step st = .next t →
    t.seq = .dCycle ∧ t.shiftFlags.needsRefill = true) ∧
  (∀ (st : State) (c : Byte), st.host = [] → st.seq = .dCycle → st.shiftFlags.needsRefill = true →
    st.input[st.ip]? = some c →
      (∀ (k : Nat) (t : State), k < 8 → stepMany k st = .next t → t.seq = .dCycle →
        step t = runElement (if c.getLsbD k then .matched else .literal)
          { t with flags := refillValue c >>> k, ip := if k = 0 then t.ip + 1 else t.ip }) ∧
      (∀ t : State, stepMany 8 st = .next t → t.seq = .dCycle →
        t.flags = refillValue c >>> 7 ∧ t.shiftFlags.needsRefill = true))

/-- R105: a token cycle either completes its token, with input consumed, or stops, and then IP = L and neither OUT,
RING nor R has changed. -/
def Obligations.DecoderStopsOnlyAtEndOfInput : Prop :=
  ∀ st t : State, st.host = [] → st.seq = .dCycle → st.ip ≤ st.input.length → step st = .next t →
    (t.seq = .dCycle ∧ st.ip < t.ip ∧ t.ip ≤ st.input.length ∧ st.out.length < t.out.length) ∨
    (t.seq = .done ∧ t.status = .done ∧ t.ip = st.input.length ∧ t.out = st.out ∧ t.ring = st.ring ∧ t.r = st.r)

/-- R111, R107, R221: DECOMPRESS of every input reaches DONE, within one step of initialisation and L + 1 token cycles
after START, with IP = L and R = (0xFEE + |OUT|) mod 4096. -/
def Obligations.DecompressReachesDone : Prop :=
  ∀ (st : State) (b : List Byte), CanStart st b →
    ∃ s n t, exec (.cmdDecompress b) st = .next s ∧ n ≤ b.length + 2 ∧ stepMany n s = .next t ∧ t.status = .done ∧
      t.seq = .done ∧ t.ip = b.length ∧ t.r = 0xFEE#12 + BitVec.ofNat 12 t.out.length

/-- R110: the output of DECOMPRESS is at most nine times its input. -/
def Obligations.DecompressOutputBound : Prop :=
  ∀ (st t : State) (b : List Byte), CanStart st b → CallEnds st 1#1 b t → t.out.length ≤ 9 * b.length

/-- R227: DECOMPRESS of a prefix of a stream gives a prefix of the stream's output. -/
def Obligations.PrefixDecompressesToPrefix : Prop :=
  ∀ (st st' t t' : State) (b more : List Byte), CanStart st b → CanStart st' (b ++ more) →
    st.params.unprimedFill = st'.params.unprimedFill → CallEnds st 1#1 b t → CallEnds st' 1#1 (b ++ more) t' →
      ∃ rest, t'.out = t.out ++ rest

/-- R42: two calls with the same OP and IN, on blocks with the same UNPRIMED_FILL, produce the same OUT, whatever ran
before. -/
def Obligations.OutputDependsOnInputAlone : Prop :=
  ∀ (st st' t t' : State) (op : BitVec 1) (b : List Byte), CanStart st b → CanStart st' b →
    st.params.unprimedFill = st'.params.unprimedFill → CallEnds st op b t → CallEnds st' op b t' → t.out = t'.out

/-! ## COMPRESS (spec/41_compress.md) -/

/-- R402: encoder call start.  LAST_LEN, I and CODE_BUF[1..16] are left free (R41; log entry 5).  That what R402 does not
write keeps its value, FLAGS among it, is log entry 6, and that UNPRIMED_FILL is read from the state is log entry 1. -/
def Obligations.EncoderInitialises : Prop :=
  ∀ st : State, st.host = [] → st.seq = .eInit →
    ∃ t, step st = .next t ∧
      t = { st with
        r := 0xFEE#12, s := 0#12, len := 0#5, matchPos := 0#12, matchLen := 0#5, mask := 0x01#8, codePtr := 1#5,
        ip := 0, out := [], seq := .eLoad, ring := t.ring, lson := t.lson, rson := t.rson, dad := t.dad,
        codeBuf := t.codeBuf, lastLen := t.lastLen, i := t.i, frees := t.frees } ∧
      t.codeBuf[0] = 0x00#8 ∧
      (∀ j, t.lsonAt j = nilIdx ∧ t.rsonAt j = nilIdx ∧ t.dadAt j = nilIdx) ∧
      (∀ a, a ≤ 4077 → t.ringRead a = 0x20#8) ∧
      (∀ a, 4078 ≤ a → a ≤ 4112 → t.ringRead a = st.params.unprimedFill)

/-- R142, R143: the load takes min(18, L) bytes into cells 4078, 4079, ..., with no mirror write; an empty input stops
with OUT unchanged (empty). -/
def Obligations.LoadFillsTheLookahead : Prop :=
  ∀ st : State, st.host = [] → st.seq = .eLoad → st.ip = 0 →
    ∃ t, step st = .next t ∧ t.len.toNat = min 18 st.input.length ∧ t.ip = min 18 st.input.length ∧
      (∀ k, k < min 18 st.input.length → st.input[k]? = some (t.ringRead (4078 + k))) ∧
      (∀ a, (a < 4078 ∨ 4078 + min 18 st.input.length ≤ a) → t.ringRead a = st.ringRead a) ∧
      t = { st with
        len := t.len, ip := t.ip, ring := t.ring,
        seq := if st.input = [] then .done else .eSeed,
        status := if st.input = [] then .done else st.status }

/-- R144: seeding inserts positions R-1, R-2, ..., R-18 and then R, in this order. -/
def Obligations.SeedingInsertsNineteenPositions : Prop :=
  ∀ st : State, st.host = [] → st.seq = .eSeed →
    step st = outcomeOf
      ((((List.range 18).map (fun k => st.r - BitVec.ofNat 12 (k + 1)) ++ [st.r]).foldlM
        (fun (s : State) (p : Pos) => insertNode p s) st).map (fun s => { s with seq := Seq.eIter }))

/-- R145, R146: the clamp of MATCH_LEN to LEN and the comparison with 2: 2 or less makes a literal emission with
MATCH_LEN = 1, more makes a match emission.  IterationEmitsOneTokenAndSlides says that an iteration does so. -/
def Obligations.TokenChoiceClampsAndCompares : Prop :=
  ∀ (st : State) (m : Nat), m = min st.matchLen.toNat st.len.toNat →
    (m ≤ 2 → st.clampMatch.chooseToken = emitLiteral { st with matchLen := 1#5 }) ∧
    (2 < m → st.clampMatch.chooseToken = emitMatch { st with matchLen := BitVec.ofNat 5 m })

/-- R147: a literal emission appends RING[R] to the group buffer; where CODE_PTR is 1 or more, as R33 has it, the control
byte is unchanged. -/
def Obligations.LiteralEmissionAppendsTheByte : Prop :=
  ∀ (st : State) (h : st.codePtr.toNat < 17),
    emitLiteral st = .ok { st with
      codeBuf := st.codeBuf.set st.codePtr.toNat (st.ringRead st.r.toNat) h
      codePtr := st.codePtr + 1#5 } ∧
    (1 ≤ st.codePtr.toNat → ∀ t, emitLiteral st = .ok t → t.codeBuf[0] = st.codeBuf[0])

/-- R148: a match emission sets the control bit selected by MASK, appends the two bytes of the match, which decode to
MATCH_POS and MATCH_LEN, and changes nothing else. -/
def Obligations.MatchEmissionAppendsTwoBytes : Prop :=
  ∀ st : State, 1 ≤ st.codePtr.toNat → st.codePtr.toNat ≤ 15 → 3 ≤ st.matchLen.toNat → st.matchLen.toNat ≤ 18 →
    ∃ t b0 b1, emitMatch st = .ok t ∧ t.codeBuf[0] = st.codeBuf[0] ||| st.mask ∧
      t.codeBuf[st.codePtr.toNat]? = some b0 ∧ t.codeBuf[st.codePtr.toNat + 1]? = some b1 ∧
      b0.toNat = st.matchPos.toNat % 256 ∧
      b1.toNat = st.matchPos.toNat / 256 * 16 + (st.matchLen.toNat - 3) ∧
      (∀ j, 1 ≤ j → j ≠ st.codePtr.toNat → j ≠ st.codePtr.toNat + 1 → t.codeBuf[j]? = st.codeBuf[j]?) ∧
      t = { st with codeBuf := t.codeBuf, codePtr := st.codePtr + 2#5 }

/-- R149: MASK moves on by one bit; when it becomes 0 the group, control byte first, is appended to OUT and a new group
starts. -/
def Obligations.FullGroupIsFlushed : Prop :=
  ∀ st : State,
    (st.mask <<< 1 ≠ 0#8 → st.closeToken = { st with mask := st.mask <<< 1 }) ∧
    (st.mask <<< 1 = 0#8 → st.closeToken = { st with
      out := st.out ++ st.codeBuf.toList.take st.codePtr.toNat
      codeBuf := st.codeBuf.set 0 0x00#8
      codePtr := 1#5
      mask := 0x01#8 })

/-- R141, R145 to R152: an iteration is one token and then the slide of its length.  With m the clamped match length:
for m <= 2 the token is one literal, RING[R] at CODE_PTR; for m > 2 it is one match, its control bit and the two bytes of
R85; nothing else changes but MATCH_LEN, the length n of the token.  Then MASK moves on (closeToken), LAST_LEN is n and I
is 0, slideTurn runs n times, and the loop test decides where SEQ goes. -/
def Obligations.IterationEmitsOneTokenAndSlides : Prop :=
  ∀ (st : State) (m n : Nat), st.host = [] → st.seq = .eIter → st.EncoderInv →
    m = min st.matchLen.toNat st.len.toNat → n = (if m ≤ 2 then 1 else m) →
    1 ≤ n ∧ n ≤ 18 ∧ n ≤ st.len.toNat ∧
    ∃ tok : State, st.clampMatch.chooseToken = .ok tok ∧ tok.matchLen = BitVec.ofNat 5 n ∧
      (m ≤ 2 → tok = { st with codeBuf := tok.codeBuf, codePtr := st.codePtr + 1#5, matchLen := tok.matchLen } ∧
        tok.codeBuf[st.codePtr.toNat]? = some (st.ringRead st.r.toNat) ∧
        (∀ j, j ≠ st.codePtr.toNat → tok.codeBuf[j]? = st.codeBuf[j]?)) ∧
      (2 < m → tok = { st with codeBuf := tok.codeBuf, codePtr := st.codePtr + 2#5, matchLen := tok.matchLen } ∧
        tok.codeBuf[0] = st.codeBuf[0] ||| st.mask ∧
        tok.codeBuf[st.codePtr.toNat]? = some (BitVec.ofNat 8 (st.matchPos.toNat % 256)) ∧
        tok.codeBuf[st.codePtr.toNat + 1]? = some (BitVec.ofNat 8 (st.matchPos.toNat / 256 * 16 + (m - 3))) ∧
        (∀ j, 1 ≤ j → j ≠ st.codePtr.toNat → j ≠ st.codePtr.toNat + 1 → tok.codeBuf[j]? = st.codeBuf[j]?)) ∧
      step st = outcomeOf
        (((List.range n).foldlM (fun (s : State) _ => slideTurn s)
          { tok.closeToken with lastLen := BitVec.ofNat 5 n, i := 0#5 }).map
            (fun s => { s with seq := if s.len = 0#5 then Seq.eFlush else Seq.eIter }))

/-- R150, R151, R152: an iteration encodes n bytes, n = 1 for a literal and the clamped match length for a match: R, S
and the number of encoded bytes IP - LEN advance by n, IP by n as far as input remains, and the input bytes taken
stand in the window from S on. -/
def Obligations.IterationAdvancesByTheToken : Prop :=
  ∀ (st t : State) (m n : Nat), st.host = [] → st.seq = .eIter → st.EncoderInv → step st = .next t →
    m = min st.matchLen.toNat st.len.toNat → n = (if m ≤ 2 then 1 else m) →
    t.r = st.r + BitVec.ofNat 12 n ∧ t.s = st.s + BitVec.ofNat 12 n ∧ t.ip = min st.input.length (st.ip + n) ∧
    t.len.toNat + n = st.len.toNat + (t.ip - st.ip) ∧
    (∀ j, st.ip + j < t.ip →
      st.input[st.ip + j]? = some (t.ringRead (st.s + BitVec.ofNat 12 j).toNat))

/-- R153: the final flush appends a partial group to OUT and stops. -/
def Obligations.FinalFlushEmitsThePartialGroup : Prop :=
  ∀ st : State, st.host = [] → st.seq = .eFlush →
    (1 < st.codePtr.toNat → step st = .next { st with
      out := st.out ++ st.codeBuf.toList.take st.codePtr.toNat
      seq := .done
      status := .done }) ∧
    (st.codePtr.toNat ≤ 1 → step st = .next { st with seq := .done, status := .done })

/-- R221, R152: COMPRESS of every input reaches DONE, within initialisation, load, seeding, L iterations and the flush
after START, with the whole input read and no lookahead left. -/
def Obligations.CompressReachesDone : Prop :=
  ∀ (st : State) (b : List Byte), CanStart st b →
    ∃ s n t, exec (.cmdCompress b) st = .next s ∧ n ≤ b.length + 4 ∧ stepMany n s = .next t ∧ t.status = .done ∧
      t.seq = .done ∧ t.ip = b.length ∧ t.len = 0#5

/-- R88: the output of COMPRESS is a sequence of groups of literals and matches, all but the last of exactly 8 tokens,
the last of 1 to 8, each with the control byte of its tokens and 0 for absent ones (R93); the empty input gives the
empty stream. -/
def Obligations.CompressEmitsWholeGroups : Prop :=
  ∀ (st t : State) (b : List Byte), CanStart st b → CallEnds st 0#1 b t →
    ∃ groups : List (List Instr), t.out = groups.flatMap encodeGroup ∧
      (∀ g ∈ groups, 1 ≤ g.length ∧ g.length ≤ 8 ∧
        ∀ i ∈ g, i.wf = true ∧ (i.kind? = some .literal ∨ i.kind? = some .matched)) ∧
      (∀ g ∈ groups.dropLast, g.length = 8) ∧ (b = [] → groups = [])

/-- R158: COMPRESS expands its input by at most one byte in eight. -/
def Obligations.CompressOutputBound : Prop :=
  ∀ (st t : State) (b : List Byte), CanStart st b → CallEnds st 0#1 b t →
    t.out.length ≤ b.length + (b.length + 7) / 8

/-- R156: for every input, what COMPRESS returns DECOMPRESS turns back into that input, whatever UNPRIMED_FILL the one
and the other use. -/
def Obligations.DecompressInvertsCompress : Prop :=
  ∀ (st st' : State) (b : List Byte), CanStart st b →
    ∃ t, CallEnds st 0#1 b t ∧ (CanStart st' t.out → ∃ t', CallEnds st' 1#1 t.out t' ∧ t'.out = b)

/-! ## The match finder (spec/42_match_tree.md) -/

/-- R182: InsertNode changes only the tree arrays, MATCH_POS and MATCH_LEN, and reports at most 18 bytes. -/
def Obligations.InsertNodeFrame : Prop :=
  ∀ (st t : State) (r : Pos), insertNode r st = .ok t →
    t = { st with lson := t.lson, rson := t.rson, dad := t.dad, matchPos := t.matchPos, matchLen := t.matchLen } ∧
      t.matchLen.toNat ≤ 18

/-- R183: the bytes from 1 up to the reported length are equal in the key of the reported position and in r's key. -/
def Obligations.ReportedMatchBytesAgree : Prop :=
  ∀ (st t : State) (r : Pos), insertNode r st = .ok t → ∀ k, 1 ≤ k → k < t.matchLen.toNat →
    st.ringRead (t.matchPos.toNat + k) = st.ringRead (r.toNat + k)

/-- R182: InsertNode under an empty root attaches r as the root's right child and reports length 0. -/
def Obligations.InsertUnderEmptyRootAttaches : Prop :=
  ∀ (st : State) (r : Pos), st.rsonAt (rootIdx (st.ringRead r.toNat)) = nilIdx →
    ∃ t, insertNode r st = .ok t ∧ t.matchLen = 0#5 ∧ t.matchPos = st.matchPos ∧
      (∀ j, t.rsonAt j = if j = rootIdx (st.ringRead r.toNat) then nodeIdx r
        else if j = nodeIdx r then nilIdx else st.rsonAt j) ∧
      (∀ j, t.lsonAt j = if j = nodeIdx r then nilIdx else st.lsonAt j) ∧
      (∀ j, t.dadAt j = if j = nodeIdx r then rootIdx (st.ringRead r.toNat) else st.dadAt j)

/-- R182, R185, R191: InsertNode of a position that is in no tree succeeds and keeps the search tree: r is in it, every
other node was, and a node that left had r's key. -/
def Obligations.InsertNodeKeepsSearchTree : Prop :=
  ∀ (st : State) (r : Pos), st.TreeInv → ¬ st.inTree r →
    ∃ t, insertNode r st = .ok t ∧ t.TreeInv ∧ t.inTree r ∧
      (∀ p, t.inTree p → p = r ∨ st.inTree p) ∧
      (∀ p, st.inTree p → t.inTree p ∨ (p = t.matchPos ∧ t.matchLen = 18#5 ∧ st.key p = st.key r))

/-- R193: MATCH_LEN is the largest number of leading equal bytes between key(r) and the key of any node in the tree,
0 when the tree under r's root is empty, and MATCH_POS is a node that has it. -/
def Obligations.InsertNodeFindsTheLongestMatch : Prop :=
  ∀ (st t : State) (r : Pos), st.TreeInv → ¬ st.inTree r → insertNode r st = .ok t →
    (∀ p, st.inTree p → st.sharedBytes r p ≤ t.matchLen.toNat) ∧
    (0 < t.matchLen.toNat → st.inTree t.matchPos ∧ st.sharedBytes r t.matchPos = t.matchLen.toNat)

/-- R187, R189, R191: DeleteNode always succeeds on a search tree and keeps it, without p and with every other node. -/
def Obligations.DeleteNodeKeepsSearchTree : Prop :=
  ∀ (st : State) (p : Pos), st.TreeInv →
    ∃ t, deleteNode p st = .ok t ∧ t.TreeInv ∧ (∀ q, t.inTree q ↔ st.inTree q ∧ q ≠ p) ∧
      t = { st with lson := t.lson, rson := t.rson, dad := t.dad }

/-- R188: deleting a position that is in no tree changes nothing. -/
def Obligations.DeleteOfAbsentPositionDoesNothing : Prop :=
  ∀ (st : State) (p : Pos), st.dadAt (nodeIdx p) = nilIdx → deleteNode p st = .ok st

/-! ## The host's use of the block (spec/43_host_interface.md) -/

/-- R226, R230: the stored entry is compressed only when compression was requested, the file is larger than 8 bytes and
the compressed form is strictly smaller; its size is then compressedLen + 6, else rawLen + 4; and the header tells
which it is, with the unpacked length of a file whose size fits 32 bits. -/
def Obligations.StoredEntryFollowsThePolicy : Prop :=
  ∀ (requested : Bool) (raw compressed : List Byte),
    (requested = true → 8 < raw.length → compressed.length < raw.length →
      (storedEntry requested raw compressed).length = compressed.length + 6 ∧
      (raw.length < 4294967296 →
        classifyEntry (storedEntry requested raw compressed) = some (.compressed raw.length))) ∧
    ((requested = false ∨ raw.length ≤ 8 ∨ raw.length ≤ compressed.length) →
      (storedEntry requested raw compressed).length = raw.length + 4 ∧
      classifyEntry (storedEntry requested raw compressed) = some .uncompressed)
end

