-- ==== Sys2Proof/Laws/Memory.lean ====
section
/-! SUPPORT. The laws of the sparse arrays: what a read gives after a write, that a write keeps the canonical form, and
that two canonical arrays with the same contents are equal. -/

namespace Sys2Proof.Machine

variable {α : Type}

@[simp] theorem Cells.read_nil (d : Nat → α) (a : Nat) : Cells.read d [] a = d a := rfl

theorem Cells.read_erase (d : Nat → α) (m : Cells α) (a b : Nat) :
    Cells.read d (Cells.erase a m) b = if b = a then d b else Cells.read d m b := by
  induction m with
  | nil => simp [Cells.erase, Cells.read]
  | cons c rest ih =>
    obtain ⟨k, v⟩ := c
    by_cases h : a = k
    · subst h
      simp only [Cells.erase, if_true, ih, Cells.read]
      split <;> simp_all
    · simp only [Cells.erase, if_neg h, Cells.read, ih]
      split <;> split <;> simp_all

theorem Cells.read_insert_self (d : Nat → α) (m : Cells α) (a : Nat) (v : α) :
    Cells.read d (Cells.insert a v (Cells.erase a m)) a = v := by
  induction m with
  | nil => simp [Cells.erase, Cells.insert, Cells.read]
  | cons c rest ih =>
    obtain ⟨k, w⟩ := c
    by_cases h : a = k
    · simpa [Cells.erase, h] using ih
    · simp only [Cells.erase, if_neg h, Cells.insert]
      split
      · simp [Cells.read]
      · simp [Cells.read, h, ih]

theorem Cells.read_insert_other (d : Nat → α) (m : Cells α) {a b : Nat} (v : α) (h : b ≠ a) :
    Cells.read d (Cells.insert a v m) b = Cells.read d m b := by
  induction m with
  | nil => simp [Cells.insert, Cells.read, h]
  | cons c rest ih =>
    obtain ⟨k, w⟩ := c
    simp only [Cells.insert]
    split
    · simp [Cells.read, h]
    · simp [Cells.read, ih]

/-- A read after a write: the value written at its index, the old value elsewhere. -/
theorem Cells.read_write [DecidableEq α] (d : Nat → α) (m : Cells α) (a b : Nat) (v : α) :
    Cells.read d (Cells.write d m a v) b = if b = a then v else Cells.read d m b := by
  unfold Cells.write
  split
  · rw [Cells.read_erase]; split <;> simp_all
  · by_cases hb : b = a
    · subst hb; simp [Cells.read_insert_self]
    · rw [Cells.read_insert_other d _ v hb, Cells.read_erase]; simp [hb]

theorem Cells.wfFrom_mono [DecidableEq α] {d : Nat → α} {size lo lo' : Nat} {m : Cells α}
    (h : Cells.wfFrom d size lo m = true) (hle : lo' ≤ lo) : Cells.wfFrom d size lo' m = true := by
  cases m with
  | nil => rfl
  | cons c rest =>
    obtain ⟨k, v⟩ := c
    simp only [Cells.wfFrom, Bool.and_eq_true, decide_eq_true_eq] at h ⊢
    exact ⟨⟨⟨by omega, h.1.1.2⟩, h.1.2⟩, h.2⟩

theorem Cells.erase_wfFrom [DecidableEq α] {d : Nat → α} {size : Nat} {m : Cells α} (a : Nat) {lo : Nat}
    (h : Cells.wfFrom d size lo m = true) : Cells.wfFrom d size lo (Cells.erase a m) = true := by
  induction m generalizing lo with
  | nil => rfl
  | cons c rest ih =>
    obtain ⟨k, v⟩ := c
    simp only [Cells.wfFrom, Bool.and_eq_true, decide_eq_true_eq] at h
    simp only [Cells.erase]
    split
    · exact Cells.wfFrom_mono (ih h.2) (by omega)
    · simp only [Cells.wfFrom, Bool.and_eq_true, decide_eq_true_eq]
      exact ⟨h.1, ih h.2⟩

theorem Cells.insert_wfFrom [DecidableEq α] {d : Nat → α} {size a : Nat} {v : α} {m : Cells α} {lo : Nat}
    (h : Cells.wfFrom d size lo (Cells.erase a m) = true) (hlo : lo ≤ a) (ha : a < size) (hv : v ≠ d a) :
    Cells.wfFrom d size lo (Cells.insert a v (Cells.erase a m)) = true := by
  induction m generalizing lo with
  | nil => simp [Cells.erase, Cells.insert, Cells.wfFrom, hlo, ha, hv]
  | cons c rest ih =>
    obtain ⟨k, w⟩ := c
    by_cases hk : a = k
    · simp only [Cells.erase, if_pos hk] at h ⊢
      exact ih h hlo
    · simp only [Cells.erase, if_neg hk, Cells.wfFrom, Bool.and_eq_true, decide_eq_true_eq, Cells.insert] at h ⊢
      split
      · simp only [Cells.wfFrom, Bool.and_eq_true, decide_eq_true_eq]
        exact ⟨⟨⟨hlo, ha⟩, hv⟩, ⟨⟨by omega, h.1.1.2⟩, h.1.2⟩, h.2⟩
      · simp only [Cells.wfFrom, Bool.and_eq_true, decide_eq_true_eq]
        exact ⟨h.1, ih h.2 (by omega)⟩

/-- A write keeps the canonical form. -/
theorem Cells.write_wfFrom [DecidableEq α] {d : Nat → α} {size a : Nat} {m : Cells α} (v : α)
    (h : Cells.wfFrom d size 0 m = true) (ha : a < size) : Cells.wfFrom d size 0 (Cells.write d m a v) = true := by
  unfold Cells.write
  split
  · exact Cells.erase_wfFrom a h
  · exact Cells.insert_wfFrom (Cells.erase_wfFrom a h) (Nat.zero_le a) ha ‹_›

theorem Cells.read_below [DecidableEq α] {d : Nat → α} {size lo a : Nat} {m : Cells α}
    (h : Cells.wfFrom d size lo m = true) (ha : a < lo) : Cells.read d m a = d a := by
  induction m generalizing lo with
  | nil => rfl
  | cons c rest ih =>
    obtain ⟨k, v⟩ := c
    simp only [Cells.wfFrom, Bool.and_eq_true, decide_eq_true_eq] at h
    have hne : a ≠ k := by omega
    simp only [Cells.read, if_neg hne]
    exact ih h.2 (by omega)

/-- Canonical arrays with the same contents are the same list. -/
theorem Cells.ext_of_wf [DecidableEq α] {d : Nat → α} {size lo : Nat} {m m' : Cells α}
    (h : Cells.wfFrom d size lo m = true) (h' : Cells.wfFrom d size lo m' = true)
    (hr : ∀ a, Cells.read d m a = Cells.read d m' a) : m = m' := by
  induction m generalizing lo m' with
  | nil =>
    cases m' with
    | nil => rfl
    | cons c rest =>
      obtain ⟨k, v⟩ := c
      simp only [Cells.wfFrom, Bool.and_eq_true, decide_eq_true_eq] at h'
      have := hr k
      simp only [Cells.read, if_true] at this
      exact absurd this.symm h'.1.2
  | cons c rest ih =>
    obtain ⟨k, v⟩ := c
    have hw := h
    simp only [Cells.wfFrom, Bool.and_eq_true, decide_eq_true_eq] at h
    cases m' with
    | nil =>
      have := hr k
      simp only [Cells.read, if_true] at this
      exact absurd this h.1.2
    | cons c' rest' =>
      obtain ⟨k', v'⟩ := c'
      have hw' := h'
      simp only [Cells.wfFrom, Bool.and_eq_true, decide_eq_true_eq] at h'
      have hk : k = k' := by
        rcases Nat.lt_trichotomy k k' with hlt | heq | hgt
        · have e := hr k
          have hb : Cells.read d rest' k = d k := Cells.read_below h'.2 (by omega)
          simp only [Cells.read, if_true, if_neg (show k ≠ k' by omega), hb] at e
          exact absurd e h.1.2
        · exact heq
        · have e := hr k'
          have hb : Cells.read d rest k' = d k' := Cells.read_below h.2 (by omega)
          simp only [Cells.read, if_true, if_neg (show k' ≠ k by omega), hb] at e
          exact absurd e.symm h'.1.2
      subst hk
      have hv : v = v' := by simpa [Cells.read] using hr k
      subst hv
      have hrest : ∀ a, Cells.read d rest a = Cells.read d rest' a := by
        intro a
        by_cases ha : a = k
        · rw [ha, Cells.read_below h.2 (by omega), Cells.read_below h'.2 (by omega)]
        · have e := hr a
          simpa only [Cells.read, if_neg ha] using e
      rw [ih h.2 h'.2 hrest]

/-- RING: a read after a write. -/
theorem Memory.read_write (fill : Byte) (m : Memory) (a b : Nat) (v : Byte) :
    Memory.read fill (Memory.write fill m a v) b = if b = a then v else Memory.read fill m b :=
  Cells.read_write _ m a b v

/-- RING: a write to a cell that exists keeps the canonical form. -/
theorem Memory.write_wf {fill : Byte} {m : Memory} {a : Nat} (v : Byte) (h : Memory.wf fill m = true)
    (ha : a < Config.ringCells) : Memory.wf fill (Memory.write fill m a v) = true :=
  Cells.write_wfFrom v h ha

/-- A tree array: every write keeps the canonical form. -/
theorem treeWf_write {m : Cells TreeIdx} (i v : TreeIdx) (h : treeWf m = true) :
    treeWf (Cells.write treeDefault m i.val v) = true :=
  Cells.write_wfFrom v h i.isLt

theorem Memory.wf_nil (fill : Byte) : Memory.wf fill [] = true := rfl

theorem treeWf_nil : treeWf [] = true := rfl

end Sys2Proof.Machine
end

