-- ==== Sys2Proof/Laws/State.lean ====
section
/-! SUPPORT. One lemma per field and per named update: which fields an operation leaves alone, and the value of a field it
writes where that is a plain term. -/

namespace Sys2Proof.Machine

/-! advance -/

@[simp] theorem State.advance_params (st : State) (n : Nat) : (st.advance n).params = st.params := rfl
@[simp] theorem State.advance_status (st : State) (n : Nat) : (st.advance n).status = st.status := rfl
@[simp] theorem State.advance_op (st : State) (n : Nat) : (st.advance n).op = st.op := rfl
@[simp] theorem State.advance_input (st : State) (n : Nat) : (st.advance n).input = st.input := rfl
@[simp] theorem State.advance_ip (st : State) (n : Nat) : (st.advance n).ip = st.ip + n := rfl
@[simp] theorem State.advance_out (st : State) (n : Nat) : (st.advance n).out = st.out := rfl
@[simp] theorem State.advance_seq (st : State) (n : Nat) : (st.advance n).seq = st.seq := rfl
@[simp] theorem State.advance_r (st : State) (n : Nat) : (st.advance n).r = st.r := rfl
@[simp] theorem State.advance_flags (st : State) (n : Nat) : (st.advance n).flags = st.flags := rfl
@[simp] theorem State.advance_s (st : State) (n : Nat) : (st.advance n).s = st.s := rfl
@[simp] theorem State.advance_len (st : State) (n : Nat) : (st.advance n).len = st.len := rfl
@[simp] theorem State.advance_matchPos (st : State) (n : Nat) : (st.advance n).matchPos = st.matchPos := rfl
@[simp] theorem State.advance_matchLen (st : State) (n : Nat) : (st.advance n).matchLen = st.matchLen := rfl
@[simp] theorem State.advance_lastLen (st : State) (n : Nat) : (st.advance n).lastLen = st.lastLen := rfl
@[simp] theorem State.advance_i (st : State) (n : Nat) : (st.advance n).i = st.i := rfl
@[simp] theorem State.advance_mask (st : State) (n : Nat) : (st.advance n).mask = st.mask := rfl
@[simp] theorem State.advance_codePtr (st : State) (n : Nat) : (st.advance n).codePtr = st.codePtr := rfl
@[simp] theorem State.advance_codeBuf (st : State) (n : Nat) : (st.advance n).codeBuf = st.codeBuf := rfl
@[simp] theorem State.advance_ring (st : State) (n : Nat) : (st.advance n).ring = st.ring := rfl
@[simp] theorem State.advance_lson (st : State) (n : Nat) : (st.advance n).lson = st.lson := rfl
@[simp] theorem State.advance_rson (st : State) (n : Nat) : (st.advance n).rson = st.rson := rfl
@[simp] theorem State.advance_dad (st : State) (n : Nat) : (st.advance n).dad = st.dad := rfl
@[simp] theorem State.advance_host (st : State) (n : Nat) : (st.advance n).host = st.host := rfl
@[simp] theorem State.advance_reply (st : State) (n : Nat) : (st.advance n).reply = st.reply := rfl
@[simp] theorem State.advance_frees (st : State) (n : Nat) : (st.advance n).frees = st.frees := rfl

/-! outByte -/

@[simp] theorem State.outByte_params (st : State) (v : Byte) : (st.outByte v).params = st.params := rfl
@[simp] theorem State.outByte_status (st : State) (v : Byte) : (st.outByte v).status = st.status := rfl
@[simp] theorem State.outByte_op (st : State) (v : Byte) : (st.outByte v).op = st.op := rfl
@[simp] theorem State.outByte_input (st : State) (v : Byte) : (st.outByte v).input = st.input := rfl
@[simp] theorem State.outByte_ip (st : State) (v : Byte) : (st.outByte v).ip = st.ip := rfl
@[simp] theorem State.outByte_out (st : State) (v : Byte) : (st.outByte v).out = st.out ++ [v] := rfl
@[simp] theorem State.outByte_seq (st : State) (v : Byte) : (st.outByte v).seq = st.seq := rfl
@[simp] theorem State.outByte_r (st : State) (v : Byte) : (st.outByte v).r = st.r := rfl
@[simp] theorem State.outByte_flags (st : State) (v : Byte) : (st.outByte v).flags = st.flags := rfl
@[simp] theorem State.outByte_s (st : State) (v : Byte) : (st.outByte v).s = st.s := rfl
@[simp] theorem State.outByte_len (st : State) (v : Byte) : (st.outByte v).len = st.len := rfl
@[simp] theorem State.outByte_matchPos (st : State) (v : Byte) : (st.outByte v).matchPos = st.matchPos := rfl
@[simp] theorem State.outByte_matchLen (st : State) (v : Byte) : (st.outByte v).matchLen = st.matchLen := rfl
@[simp] theorem State.outByte_lastLen (st : State) (v : Byte) : (st.outByte v).lastLen = st.lastLen := rfl
@[simp] theorem State.outByte_i (st : State) (v : Byte) : (st.outByte v).i = st.i := rfl
@[simp] theorem State.outByte_mask (st : State) (v : Byte) : (st.outByte v).mask = st.mask := rfl
@[simp] theorem State.outByte_codePtr (st : State) (v : Byte) : (st.outByte v).codePtr = st.codePtr := rfl
@[simp] theorem State.outByte_codeBuf (st : State) (v : Byte) : (st.outByte v).codeBuf = st.codeBuf := rfl
@[simp] theorem State.outByte_ring (st : State) (v : Byte) : (st.outByte v).ring = st.ring := rfl
@[simp] theorem State.outByte_lson (st : State) (v : Byte) : (st.outByte v).lson = st.lson := rfl
@[simp] theorem State.outByte_rson (st : State) (v : Byte) : (st.outByte v).rson = st.rson := rfl
@[simp] theorem State.outByte_dad (st : State) (v : Byte) : (st.outByte v).dad = st.dad := rfl
@[simp] theorem State.outByte_host (st : State) (v : Byte) : (st.outByte v).host = st.host := rfl
@[simp] theorem State.outByte_reply (st : State) (v : Byte) : (st.outByte v).reply = st.reply := rfl
@[simp] theorem State.outByte_frees (st : State) (v : Byte) : (st.outByte v).frees = st.frees := rfl

/-! outBytes -/

@[simp] theorem State.outBytes_params (st : State) (vs : List Byte) : (st.outBytes vs).params = st.params := rfl
@[simp] theorem State.outBytes_status (st : State) (vs : List Byte) : (st.outBytes vs).status = st.status := rfl
@[simp] theorem State.outBytes_op (st : State) (vs : List Byte) : (st.outBytes vs).op = st.op := rfl
@[simp] theorem State.outBytes_input (st : State) (vs : List Byte) : (st.outBytes vs).input = st.input := rfl
@[simp] theorem State.outBytes_ip (st : State) (vs : List Byte) : (st.outBytes vs).ip = st.ip := rfl
@[simp] theorem State.outBytes_out (st : State) (vs : List Byte) : (st.outBytes vs).out = st.out ++ vs := rfl
@[simp] theorem State.outBytes_seq (st : State) (vs : List Byte) : (st.outBytes vs).seq = st.seq := rfl
@[simp] theorem State.outBytes_r (st : State) (vs : List Byte) : (st.outBytes vs).r = st.r := rfl
@[simp] theorem State.outBytes_flags (st : State) (vs : List Byte) : (st.outBytes vs).flags = st.flags := rfl
@[simp] theorem State.outBytes_s (st : State) (vs : List Byte) : (st.outBytes vs).s = st.s := rfl
@[simp] theorem State.outBytes_len (st : State) (vs : List Byte) : (st.outBytes vs).len = st.len := rfl
@[simp] theorem State.outBytes_matchPos (st : State) (vs : List Byte) : (st.outBytes vs).matchPos = st.matchPos := rfl
@[simp] theorem State.outBytes_matchLen (st : State) (vs : List Byte) : (st.outBytes vs).matchLen = st.matchLen := rfl
@[simp] theorem State.outBytes_lastLen (st : State) (vs : List Byte) : (st.outBytes vs).lastLen = st.lastLen := rfl
@[simp] theorem State.outBytes_i (st : State) (vs : List Byte) : (st.outBytes vs).i = st.i := rfl
@[simp] theorem State.outBytes_mask (st : State) (vs : List Byte) : (st.outBytes vs).mask = st.mask := rfl
@[simp] theorem State.outBytes_codePtr (st : State) (vs : List Byte) : (st.outBytes vs).codePtr = st.codePtr := rfl
@[simp] theorem State.outBytes_codeBuf (st : State) (vs : List Byte) : (st.outBytes vs).codeBuf = st.codeBuf := rfl
@[simp] theorem State.outBytes_ring (st : State) (vs : List Byte) : (st.outBytes vs).ring = st.ring := rfl
@[simp] theorem State.outBytes_lson (st : State) (vs : List Byte) : (st.outBytes vs).lson = st.lson := rfl
@[simp] theorem State.outBytes_rson (st : State) (vs : List Byte) : (st.outBytes vs).rson = st.rson := rfl
@[simp] theorem State.outBytes_dad (st : State) (vs : List Byte) : (st.outBytes vs).dad = st.dad := rfl
@[simp] theorem State.outBytes_host (st : State) (vs : List Byte) : (st.outBytes vs).host = st.host := rfl
@[simp] theorem State.outBytes_reply (st : State) (vs : List Byte) : (st.outBytes vs).reply = st.reply := rfl
@[simp] theorem State.outBytes_frees (st : State) (vs : List Byte) : (st.outBytes vs).frees = st.frees := rfl

/-! stop -/

@[simp] theorem State.stop_params (st : State) : st.stop.params = st.params := rfl
@[simp] theorem State.stop_status (st : State) : st.stop.status = .done := rfl
@[simp] theorem State.stop_op (st : State) : st.stop.op = st.op := rfl
@[simp] theorem State.stop_input (st : State) : st.stop.input = st.input := rfl
@[simp] theorem State.stop_ip (st : State) : st.stop.ip = st.ip := rfl
@[simp] theorem State.stop_out (st : State) : st.stop.out = st.out := rfl
@[simp] theorem State.stop_seq (st : State) : st.stop.seq = .done := rfl
@[simp] theorem State.stop_r (st : State) : st.stop.r = st.r := rfl
@[simp] theorem State.stop_flags (st : State) : st.stop.flags = st.flags := rfl
@[simp] theorem State.stop_s (st : State) : st.stop.s = st.s := rfl
@[simp] theorem State.stop_len (st : State) : st.stop.len = st.len := rfl
@[simp] theorem State.stop_matchPos (st : State) : st.stop.matchPos = st.matchPos := rfl
@[simp] theorem State.stop_matchLen (st : State) : st.stop.matchLen = st.matchLen := rfl
@[simp] theorem State.stop_lastLen (st : State) : st.stop.lastLen = st.lastLen := rfl
@[simp] theorem State.stop_i (st : State) : st.stop.i = st.i := rfl
@[simp] theorem State.stop_mask (st : State) : st.stop.mask = st.mask := rfl
@[simp] theorem State.stop_codePtr (st : State) : st.stop.codePtr = st.codePtr := rfl
@[simp] theorem State.stop_codeBuf (st : State) : st.stop.codeBuf = st.codeBuf := rfl
@[simp] theorem State.stop_ring (st : State) : st.stop.ring = st.ring := rfl
@[simp] theorem State.stop_lson (st : State) : st.stop.lson = st.lson := rfl
@[simp] theorem State.stop_rson (st : State) : st.stop.rson = st.rson := rfl
@[simp] theorem State.stop_dad (st : State) : st.stop.dad = st.dad := rfl
@[simp] theorem State.stop_host (st : State) : st.stop.host = st.host := rfl
@[simp] theorem State.stop_reply (st : State) : st.stop.reply = st.reply := rfl
@[simp] theorem State.stop_frees (st : State) : st.stop.frees = st.frees := rfl

/-! ringWrite -/

@[simp] theorem State.ringWrite_params (st : State) (a : Nat) (v : Byte) : (st.ringWrite a v).params = st.params := rfl
@[simp] theorem State.ringWrite_status (st : State) (a : Nat) (v : Byte) : (st.ringWrite a v).status = st.status := rfl
@[simp] theorem State.ringWrite_op (st : State) (a : Nat) (v : Byte) : (st.ringWrite a v).op = st.op := rfl
@[simp] theorem State.ringWrite_input (st : State) (a : Nat) (v : Byte) : (st.ringWrite a v).input = st.input := rfl
@[simp] theorem State.ringWrite_ip (st : State) (a : Nat) (v : Byte) : (st.ringWrite a v).ip = st.ip := rfl
@[simp] theorem State.ringWrite_out (st : State) (a : Nat) (v : Byte) : (st.ringWrite a v).out = st.out := rfl
@[simp] theorem State.ringWrite_seq (st : State) (a : Nat) (v : Byte) : (st.ringWrite a v).seq = st.seq := rfl
@[simp] theorem State.ringWrite_r (st : State) (a : Nat) (v : Byte) : (st.ringWrite a v).r = st.r := rfl
@[simp] theorem State.ringWrite_flags (st : State) (a : Nat) (v : Byte) : (st.ringWrite a v).flags = st.flags := rfl
@[simp] theorem State.ringWrite_s (st : State) (a : Nat) (v : Byte) : (st.ringWrite a v).s = st.s := rfl
@[simp] theorem State.ringWrite_len (st : State) (a : Nat) (v : Byte) : (st.ringWrite a v).len = st.len := rfl
@[simp] theorem State.ringWrite_matchPos (st : State) (a : Nat) (v : Byte) : (st.ringWrite a v).matchPos = st.matchPos := rfl
@[simp] theorem State.ringWrite_matchLen (st : State) (a : Nat) (v : Byte) : (st.ringWrite a v).matchLen = st.matchLen := rfl
@[simp] theorem State.ringWrite_lastLen (st : State) (a : Nat) (v : Byte) : (st.ringWrite a v).lastLen = st.lastLen := rfl
@[simp] theorem State.ringWrite_i (st : State) (a : Nat) (v : Byte) : (st.ringWrite a v).i = st.i := rfl
@[simp] theorem State.ringWrite_mask (st : State) (a : Nat) (v : Byte) : (st.ringWrite a v).mask = st.mask := rfl
@[simp] theorem State.ringWrite_codePtr (st : State) (a : Nat) (v : Byte) : (st.ringWrite a v).codePtr = st.codePtr := rfl
@[simp] theorem State.ringWrite_codeBuf (st : State) (a : Nat) (v : Byte) : (st.ringWrite a v).codeBuf = st.codeBuf := rfl
@[simp] theorem State.ringWrite_ring (st : State) (a : Nat) (v : Byte) : (st.ringWrite a v).ring = Memory.write st.params.unprimedFill st.ring a v := rfl
@[simp] theorem State.ringWrite_lson (st : State) (a : Nat) (v : Byte) : (st.ringWrite a v).lson = st.lson := rfl
@[simp] theorem State.ringWrite_rson (st : State) (a : Nat) (v : Byte) : (st.ringWrite a v).rson = st.rson := rfl
@[simp] theorem State.ringWrite_dad (st : State) (a : Nat) (v : Byte) : (st.ringWrite a v).dad = st.dad := rfl
@[simp] theorem State.ringWrite_host (st : State) (a : Nat) (v : Byte) : (st.ringWrite a v).host = st.host := rfl
@[simp] theorem State.ringWrite_reply (st : State) (a : Nat) (v : Byte) : (st.ringWrite a v).reply = st.reply := rfl
@[simp] theorem State.ringWrite_frees (st : State) (a : Nat) (v : Byte) : (st.ringWrite a v).frees = st.frees := rfl

/-! setLson -/

@[simp] theorem State.setLson_params (st : State) (j v : TreeIdx) : (st.setLson j v).params = st.params := rfl
@[simp] theorem State.setLson_status (st : State) (j v : TreeIdx) : (st.setLson j v).status = st.status := rfl
@[simp] theorem State.setLson_op (st : State) (j v : TreeIdx) : (st.setLson j v).op = st.op := rfl
@[simp] theorem State.setLson_input (st : State) (j v : TreeIdx) : (st.setLson j v).input = st.input := rfl
@[simp] theorem State.setLson_ip (st : State) (j v : TreeIdx) : (st.setLson j v).ip = st.ip := rfl
@[simp] theorem State.setLson_out (st : State) (j v : TreeIdx) : (st.setLson j v).out = st.out := rfl
@[simp] theorem State.setLson_seq (st : State) (j v : TreeIdx) : (st.setLson j v).seq = st.seq := rfl
@[simp] theorem State.setLson_r (st : State) (j v : TreeIdx) : (st.setLson j v).r = st.r := rfl
@[simp] theorem State.setLson_flags (st : State) (j v : TreeIdx) : (st.setLson j v).flags = st.flags := rfl
@[simp] theorem State.setLson_s (st : State) (j v : TreeIdx) : (st.setLson j v).s = st.s := rfl
@[simp] theorem State.setLson_len (st : State) (j v : TreeIdx) : (st.setLson j v).len = st.len := rfl
@[simp] theorem State.setLson_matchPos (st : State) (j v : TreeIdx) : (st.setLson j v).matchPos = st.matchPos := rfl
@[simp] theorem State.setLson_matchLen (st : State) (j v : TreeIdx) : (st.setLson j v).matchLen = st.matchLen := rfl
@[simp] theorem State.setLson_lastLen (st : State) (j v : TreeIdx) : (st.setLson j v).lastLen = st.lastLen := rfl
@[simp] theorem State.setLson_i (st : State) (j v : TreeIdx) : (st.setLson j v).i = st.i := rfl
@[simp] theorem State.setLson_mask (st : State) (j v : TreeIdx) : (st.setLson j v).mask = st.mask := rfl
@[simp] theorem State.setLson_codePtr (st : State) (j v : TreeIdx) : (st.setLson j v).codePtr = st.codePtr := rfl
@[simp] theorem State.setLson_codeBuf (st : State) (j v : TreeIdx) : (st.setLson j v).codeBuf = st.codeBuf := rfl
@[simp] theorem State.setLson_ring (st : State) (j v : TreeIdx) : (st.setLson j v).ring = st.ring := rfl
@[simp] theorem State.setLson_lson (st : State) (j v : TreeIdx) : (st.setLson j v).lson = Cells.write treeDefault st.lson j.val v := rfl
@[simp] theorem State.setLson_rson (st : State) (j v : TreeIdx) : (st.setLson j v).rson = st.rson := rfl
@[simp] theorem State.setLson_dad (st : State) (j v : TreeIdx) : (st.setLson j v).dad = st.dad := rfl
@[simp] theorem State.setLson_host (st : State) (j v : TreeIdx) : (st.setLson j v).host = st.host := rfl
@[simp] theorem State.setLson_reply (st : State) (j v : TreeIdx) : (st.setLson j v).reply = st.reply := rfl
@[simp] theorem State.setLson_frees (st : State) (j v : TreeIdx) : (st.setLson j v).frees = st.frees := rfl

/-! setRson -/

@[simp] theorem State.setRson_params (st : State) (j v : TreeIdx) : (st.setRson j v).params = st.params := rfl
@[simp] theorem State.setRson_status (st : State) (j v : TreeIdx) : (st.setRson j v).status = st.status := rfl
@[simp] theorem State.setRson_op (st : State) (j v : TreeIdx) : (st.setRson j v).op = st.op := rfl
@[simp] theorem State.setRson_input (st : State) (j v : TreeIdx) : (st.setRson j v).input = st.input := rfl
@[simp] theorem State.setRson_ip (st : State) (j v : TreeIdx) : (st.setRson j v).ip = st.ip := rfl
@[simp] theorem State.setRson_out (st : State) (j v : TreeIdx) : (st.setRson j v).out = st.out := rfl
@[simp] theorem State.setRson_seq (st : State) (j v : TreeIdx) : (st.setRson j v).seq = st.seq := rfl
@[simp] theorem State.setRson_r (st : State) (j v : TreeIdx) : (st.setRson j v).r = st.r := rfl
@[simp] theorem State.setRson_flags (st : State) (j v : TreeIdx) : (st.setRson j v).flags = st.flags := rfl
@[simp] theorem State.setRson_s (st : State) (j v : TreeIdx) : (st.setRson j v).s = st.s := rfl
@[simp] theorem State.setRson_len (st : State) (j v : TreeIdx) : (st.setRson j v).len = st.len := rfl
@[simp] theorem State.setRson_matchPos (st : State) (j v : TreeIdx) : (st.setRson j v).matchPos = st.matchPos := rfl
@[simp] theorem State.setRson_matchLen (st : State) (j v : TreeIdx) : (st.setRson j v).matchLen = st.matchLen := rfl
@[simp] theorem State.setRson_lastLen (st : State) (j v : TreeIdx) : (st.setRson j v).lastLen = st.lastLen := rfl
@[simp] theorem State.setRson_i (st : State) (j v : TreeIdx) : (st.setRson j v).i = st.i := rfl
@[simp] theorem State.setRson_mask (st : State) (j v : TreeIdx) : (st.setRson j v).mask = st.mask := rfl
@[simp] theorem State.setRson_codePtr (st : State) (j v : TreeIdx) : (st.setRson j v).codePtr = st.codePtr := rfl
@[simp] theorem State.setRson_codeBuf (st : State) (j v : TreeIdx) : (st.setRson j v).codeBuf = st.codeBuf := rfl
@[simp] theorem State.setRson_ring (st : State) (j v : TreeIdx) : (st.setRson j v).ring = st.ring := rfl
@[simp] theorem State.setRson_lson (st : State) (j v : TreeIdx) : (st.setRson j v).lson = st.lson := rfl
@[simp] theorem State.setRson_rson (st : State) (j v : TreeIdx) : (st.setRson j v).rson = Cells.write treeDefault st.rson j.val v := rfl
@[simp] theorem State.setRson_dad (st : State) (j v : TreeIdx) : (st.setRson j v).dad = st.dad := rfl
@[simp] theorem State.setRson_host (st : State) (j v : TreeIdx) : (st.setRson j v).host = st.host := rfl
@[simp] theorem State.setRson_reply (st : State) (j v : TreeIdx) : (st.setRson j v).reply = st.reply := rfl
@[simp] theorem State.setRson_frees (st : State) (j v : TreeIdx) : (st.setRson j v).frees = st.frees := rfl

/-! setDad -/

@[simp] theorem State.setDad_params (st : State) (j v : TreeIdx) : (st.setDad j v).params = st.params := rfl
@[simp] theorem State.setDad_status (st : State) (j v : TreeIdx) : (st.setDad j v).status = st.status := rfl
@[simp] theorem State.setDad_op (st : State) (j v : TreeIdx) : (st.setDad j v).op = st.op := rfl
@[simp] theorem State.setDad_input (st : State) (j v : TreeIdx) : (st.setDad j v).input = st.input := rfl
@[simp] theorem State.setDad_ip (st : State) (j v : TreeIdx) : (st.setDad j v).ip = st.ip := rfl
@[simp] theorem State.setDad_out (st : State) (j v : TreeIdx) : (st.setDad j v).out = st.out := rfl
@[simp] theorem State.setDad_seq (st : State) (j v : TreeIdx) : (st.setDad j v).seq = st.seq := rfl
@[simp] theorem State.setDad_r (st : State) (j v : TreeIdx) : (st.setDad j v).r = st.r := rfl
@[simp] theorem State.setDad_flags (st : State) (j v : TreeIdx) : (st.setDad j v).flags = st.flags := rfl
@[simp] theorem State.setDad_s (st : State) (j v : TreeIdx) : (st.setDad j v).s = st.s := rfl
@[simp] theorem State.setDad_len (st : State) (j v : TreeIdx) : (st.setDad j v).len = st.len := rfl
@[simp] theorem State.setDad_matchPos (st : State) (j v : TreeIdx) : (st.setDad j v).matchPos = st.matchPos := rfl
@[simp] theorem State.setDad_matchLen (st : State) (j v : TreeIdx) : (st.setDad j v).matchLen = st.matchLen := rfl
@[simp] theorem State.setDad_lastLen (st : State) (j v : TreeIdx) : (st.setDad j v).lastLen = st.lastLen := rfl
@[simp] theorem State.setDad_i (st : State) (j v : TreeIdx) : (st.setDad j v).i = st.i := rfl
@[simp] theorem State.setDad_mask (st : State) (j v : TreeIdx) : (st.setDad j v).mask = st.mask := rfl
@[simp] theorem State.setDad_codePtr (st : State) (j v : TreeIdx) : (st.setDad j v).codePtr = st.codePtr := rfl
@[simp] theorem State.setDad_codeBuf (st : State) (j v : TreeIdx) : (st.setDad j v).codeBuf = st.codeBuf := rfl
@[simp] theorem State.setDad_ring (st : State) (j v : TreeIdx) : (st.setDad j v).ring = st.ring := rfl
@[simp] theorem State.setDad_lson (st : State) (j v : TreeIdx) : (st.setDad j v).lson = st.lson := rfl
@[simp] theorem State.setDad_rson (st : State) (j v : TreeIdx) : (st.setDad j v).rson = st.rson := rfl
@[simp] theorem State.setDad_dad (st : State) (j v : TreeIdx) : (st.setDad j v).dad = Cells.write treeDefault st.dad j.val v := rfl
@[simp] theorem State.setDad_host (st : State) (j v : TreeIdx) : (st.setDad j v).host = st.host := rfl
@[simp] theorem State.setDad_reply (st : State) (j v : TreeIdx) : (st.setDad j v).reply = st.reply := rfl
@[simp] theorem State.setDad_frees (st : State) (j v : TreeIdx) : (st.setDad j v).frees = st.frees := rfl

/-! shiftFlags -/

@[simp] theorem State.shiftFlags_params (st : State) : st.shiftFlags.params = st.params := rfl
@[simp] theorem State.shiftFlags_status (st : State) : st.shiftFlags.status = st.status := rfl
@[simp] theorem State.shiftFlags_op (st : State) : st.shiftFlags.op = st.op := rfl
@[simp] theorem State.shiftFlags_input (st : State) : st.shiftFlags.input = st.input := rfl
@[simp] theorem State.shiftFlags_ip (st : State) : st.shiftFlags.ip = st.ip := rfl
@[simp] theorem State.shiftFlags_out (st : State) : st.shiftFlags.out = st.out := rfl
@[simp] theorem State.shiftFlags_seq (st : State) : st.shiftFlags.seq = st.seq := rfl
@[simp] theorem State.shiftFlags_r (st : State) : st.shiftFlags.r = st.r := rfl
@[simp] theorem State.shiftFlags_flags (st : State) : st.shiftFlags.flags = st.flags >>> 1 := rfl
@[simp] theorem State.shiftFlags_s (st : State) : st.shiftFlags.s = st.s := rfl
@[simp] theorem State.shiftFlags_len (st : State) : st.shiftFlags.len = st.len := rfl
@[simp] theorem State.shiftFlags_matchPos (st : State) : st.shiftFlags.matchPos = st.matchPos := rfl
@[simp] theorem State.shiftFlags_matchLen (st : State) : st.shiftFlags.matchLen = st.matchLen := rfl
@[simp] theorem State.shiftFlags_lastLen (st : State) : st.shiftFlags.lastLen = st.lastLen := rfl
@[simp] theorem State.shiftFlags_i (st : State) : st.shiftFlags.i = st.i := rfl
@[simp] theorem State.shiftFlags_mask (st : State) : st.shiftFlags.mask = st.mask := rfl
@[simp] theorem State.shiftFlags_codePtr (st : State) : st.shiftFlags.codePtr = st.codePtr := rfl
@[simp] theorem State.shiftFlags_codeBuf (st : State) : st.shiftFlags.codeBuf = st.codeBuf := rfl
@[simp] theorem State.shiftFlags_ring (st : State) : st.shiftFlags.ring = st.ring := rfl
@[simp] theorem State.shiftFlags_lson (st : State) : st.shiftFlags.lson = st.lson := rfl
@[simp] theorem State.shiftFlags_rson (st : State) : st.shiftFlags.rson = st.rson := rfl
@[simp] theorem State.shiftFlags_dad (st : State) : st.shiftFlags.dad = st.dad := rfl
@[simp] theorem State.shiftFlags_host (st : State) : st.shiftFlags.host = st.host := rfl
@[simp] theorem State.shiftFlags_reply (st : State) : st.shiftFlags.reply = st.reply := rfl
@[simp] theorem State.shiftFlags_frees (st : State) : st.shiftFlags.frees = st.frees := rfl

/-! shiftMask -/

@[simp] theorem State.shiftMask_params (st : State) : st.shiftMask.params = st.params := rfl
@[simp] theorem State.shiftMask_status (st : State) : st.shiftMask.status = st.status := rfl
@[simp] theorem State.shiftMask_op (st : State) : st.shiftMask.op = st.op := rfl
@[simp] theorem State.shiftMask_input (st : State) : st.shiftMask.input = st.input := rfl
@[simp] theorem State.shiftMask_ip (st : State) : st.shiftMask.ip = st.ip := rfl
@[simp] theorem State.shiftMask_out (st : State) : st.shiftMask.out = st.out := rfl
@[simp] theorem State.shiftMask_seq (st : State) : st.shiftMask.seq = st.seq := rfl
@[simp] theorem State.shiftMask_r (st : State) : st.shiftMask.r = st.r := rfl
@[simp] theorem State.shiftMask_flags (st : State) : st.shiftMask.flags = st.flags := rfl
@[simp] theorem State.shiftMask_s (st : State) : st.shiftMask.s = st.s := rfl
@[simp] theorem State.shiftMask_len (st : State) : st.shiftMask.len = st.len := rfl
@[simp] theorem State.shiftMask_matchPos (st : State) : st.shiftMask.matchPos = st.matchPos := rfl
@[simp] theorem State.shiftMask_matchLen (st : State) : st.shiftMask.matchLen = st.matchLen := rfl
@[simp] theorem State.shiftMask_lastLen (st : State) : st.shiftMask.lastLen = st.lastLen := rfl
@[simp] theorem State.shiftMask_i (st : State) : st.shiftMask.i = st.i := rfl
@[simp] theorem State.shiftMask_mask (st : State) : st.shiftMask.mask = st.mask <<< 1 := rfl
@[simp] theorem State.shiftMask_codePtr (st : State) : st.shiftMask.codePtr = st.codePtr := rfl
@[simp] theorem State.shiftMask_codeBuf (st : State) : st.shiftMask.codeBuf = st.codeBuf := rfl
@[simp] theorem State.shiftMask_ring (st : State) : st.shiftMask.ring = st.ring := rfl
@[simp] theorem State.shiftMask_lson (st : State) : st.shiftMask.lson = st.lson := rfl
@[simp] theorem State.shiftMask_rson (st : State) : st.shiftMask.rson = st.rson := rfl
@[simp] theorem State.shiftMask_dad (st : State) : st.shiftMask.dad = st.dad := rfl
@[simp] theorem State.shiftMask_host (st : State) : st.shiftMask.host = st.host := rfl
@[simp] theorem State.shiftMask_reply (st : State) : st.shiftMask.reply = st.reply := rfl
@[simp] theorem State.shiftMask_frees (st : State) : st.shiftMask.frees = st.frees := rfl

/-! markMatch -/

@[simp] theorem State.markMatch_params (st : State) : st.markMatch.params = st.params := rfl
@[simp] theorem State.markMatch_status (st : State) : st.markMatch.status = st.status := rfl
@[simp] theorem State.markMatch_op (st : State) : st.markMatch.op = st.op := rfl
@[simp] theorem State.markMatch_input (st : State) : st.markMatch.input = st.input := rfl
@[simp] theorem State.markMatch_ip (st : State) : st.markMatch.ip = st.ip := rfl
@[simp] theorem State.markMatch_out (st : State) : st.markMatch.out = st.out := rfl
@[simp] theorem State.markMatch_seq (st : State) : st.markMatch.seq = st.seq := rfl
@[simp] theorem State.markMatch_r (st : State) : st.markMatch.r = st.r := rfl
@[simp] theorem State.markMatch_flags (st : State) : st.markMatch.flags = st.flags := rfl
@[simp] theorem State.markMatch_s (st : State) : st.markMatch.s = st.s := rfl
@[simp] theorem State.markMatch_len (st : State) : st.markMatch.len = st.len := rfl
@[simp] theorem State.markMatch_matchPos (st : State) : st.markMatch.matchPos = st.matchPos := rfl
@[simp] theorem State.markMatch_matchLen (st : State) : st.markMatch.matchLen = st.matchLen := rfl
@[simp] theorem State.markMatch_lastLen (st : State) : st.markMatch.lastLen = st.lastLen := rfl
@[simp] theorem State.markMatch_i (st : State) : st.markMatch.i = st.i := rfl
@[simp] theorem State.markMatch_mask (st : State) : st.markMatch.mask = st.mask := rfl
@[simp] theorem State.markMatch_codePtr (st : State) : st.markMatch.codePtr = st.codePtr := rfl
@[simp] theorem State.markMatch_codeBuf (st : State) : st.markMatch.codeBuf = st.codeBuf.set 0 (st.codeBuf[0] ||| st.mask) := rfl
@[simp] theorem State.markMatch_ring (st : State) : st.markMatch.ring = st.ring := rfl
@[simp] theorem State.markMatch_lson (st : State) : st.markMatch.lson = st.lson := rfl
@[simp] theorem State.markMatch_rson (st : State) : st.markMatch.rson = st.rson := rfl
@[simp] theorem State.markMatch_dad (st : State) : st.markMatch.dad = st.dad := rfl
@[simp] theorem State.markMatch_host (st : State) : st.markMatch.host = st.host := rfl
@[simp] theorem State.markMatch_reply (st : State) : st.markMatch.reply = st.reply := rfl
@[simp] theorem State.markMatch_frees (st : State) : st.markMatch.frees = st.frees := rfl

/-! emitDecoded -/

@[simp] theorem State.emitDecoded_params (st : State) (c : Byte) : (st.emitDecoded c).params = st.params := rfl
@[simp] theorem State.emitDecoded_status (st : State) (c : Byte) : (st.emitDecoded c).status = st.status := rfl
@[simp] theorem State.emitDecoded_op (st : State) (c : Byte) : (st.emitDecoded c).op = st.op := rfl
@[simp] theorem State.emitDecoded_input (st : State) (c : Byte) : (st.emitDecoded c).input = st.input := rfl
@[simp] theorem State.emitDecoded_ip (st : State) (c : Byte) : (st.emitDecoded c).ip = st.ip := rfl
@[simp] theorem State.emitDecoded_out (st : State) (c : Byte) : (st.emitDecoded c).out = st.out ++ [c] := rfl
@[simp] theorem State.emitDecoded_seq (st : State) (c : Byte) : (st.emitDecoded c).seq = st.seq := rfl
@[simp] theorem State.emitDecoded_r (st : State) (c : Byte) : (st.emitDecoded c).r = st.r + 1#12 := rfl
@[simp] theorem State.emitDecoded_flags (st : State) (c : Byte) : (st.emitDecoded c).flags = st.flags := rfl
@[simp] theorem State.emitDecoded_s (st : State) (c : Byte) : (st.emitDecoded c).s = st.s := rfl
@[simp] theorem State.emitDecoded_len (st : State) (c : Byte) : (st.emitDecoded c).len = st.len := rfl
@[simp] theorem State.emitDecoded_matchPos (st : State) (c : Byte) : (st.emitDecoded c).matchPos = st.matchPos := rfl
@[simp] theorem State.emitDecoded_matchLen (st : State) (c : Byte) : (st.emitDecoded c).matchLen = st.matchLen := rfl
@[simp] theorem State.emitDecoded_lastLen (st : State) (c : Byte) : (st.emitDecoded c).lastLen = st.lastLen := rfl
@[simp] theorem State.emitDecoded_i (st : State) (c : Byte) : (st.emitDecoded c).i = st.i := rfl
@[simp] theorem State.emitDecoded_mask (st : State) (c : Byte) : (st.emitDecoded c).mask = st.mask := rfl
@[simp] theorem State.emitDecoded_codePtr (st : State) (c : Byte) : (st.emitDecoded c).codePtr = st.codePtr := rfl
@[simp] theorem State.emitDecoded_codeBuf (st : State) (c : Byte) : (st.emitDecoded c).codeBuf = st.codeBuf := rfl
@[simp] theorem State.emitDecoded_ring (st : State) (c : Byte) : (st.emitDecoded c).ring = Memory.write st.params.unprimedFill st.ring st.r.toNat c := rfl
@[simp] theorem State.emitDecoded_lson (st : State) (c : Byte) : (st.emitDecoded c).lson = st.lson := rfl
@[simp] theorem State.emitDecoded_rson (st : State) (c : Byte) : (st.emitDecoded c).rson = st.rson := rfl
@[simp] theorem State.emitDecoded_dad (st : State) (c : Byte) : (st.emitDecoded c).dad = st.dad := rfl
@[simp] theorem State.emitDecoded_host (st : State) (c : Byte) : (st.emitDecoded c).host = st.host := rfl
@[simp] theorem State.emitDecoded_reply (st : State) (c : Byte) : (st.emitDecoded c).reply = st.reply := rfl
@[simp] theorem State.emitDecoded_frees (st : State) (c : Byte) : (st.emitDecoded c).frees = st.frees := rfl

/-! advanceWindow -/

@[simp] theorem State.advanceWindow_params (st : State) : st.advanceWindow.params = st.params := rfl
@[simp] theorem State.advanceWindow_status (st : State) : st.advanceWindow.status = st.status := rfl
@[simp] theorem State.advanceWindow_op (st : State) : st.advanceWindow.op = st.op := rfl
@[simp] theorem State.advanceWindow_input (st : State) : st.advanceWindow.input = st.input := rfl
@[simp] theorem State.advanceWindow_ip (st : State) : st.advanceWindow.ip = st.ip := rfl
@[simp] theorem State.advanceWindow_out (st : State) : st.advanceWindow.out = st.out := rfl
@[simp] theorem State.advanceWindow_seq (st : State) : st.advanceWindow.seq = st.seq := rfl
@[simp] theorem State.advanceWindow_r (st : State) : st.advanceWindow.r = st.r + 1#12 := rfl
@[simp] theorem State.advanceWindow_flags (st : State) : st.advanceWindow.flags = st.flags := rfl
@[simp] theorem State.advanceWindow_s (st : State) : st.advanceWindow.s = st.s + 1#12 := rfl
@[simp] theorem State.advanceWindow_len (st : State) : st.advanceWindow.len = st.len := rfl
@[simp] theorem State.advanceWindow_matchPos (st : State) : st.advanceWindow.matchPos = st.matchPos := rfl
@[simp] theorem State.advanceWindow_matchLen (st : State) : st.advanceWindow.matchLen = st.matchLen := rfl
@[simp] theorem State.advanceWindow_lastLen (st : State) : st.advanceWindow.lastLen = st.lastLen := rfl
@[simp] theorem State.advanceWindow_i (st : State) : st.advanceWindow.i = st.i := rfl
@[simp] theorem State.advanceWindow_mask (st : State) : st.advanceWindow.mask = st.mask := rfl
@[simp] theorem State.advanceWindow_codePtr (st : State) : st.advanceWindow.codePtr = st.codePtr := rfl
@[simp] theorem State.advanceWindow_codeBuf (st : State) : st.advanceWindow.codeBuf = st.codeBuf := rfl
@[simp] theorem State.advanceWindow_ring (st : State) : st.advanceWindow.ring = st.ring := rfl
@[simp] theorem State.advanceWindow_lson (st : State) : st.advanceWindow.lson = st.lson := rfl
@[simp] theorem State.advanceWindow_rson (st : State) : st.advanceWindow.rson = st.rson := rfl
@[simp] theorem State.advanceWindow_dad (st : State) : st.advanceWindow.dad = st.dad := rfl
@[simp] theorem State.advanceWindow_host (st : State) : st.advanceWindow.host = st.host := rfl
@[simp] theorem State.advanceWindow_reply (st : State) : st.advanceWindow.reply = st.reply := rfl
@[simp] theorem State.advanceWindow_frees (st : State) : st.advanceWindow.frees = st.frees := rfl

/-! latchStart -/

@[simp] theorem State.latchStart_params (st : State) (o : BitVec 1) (b : List Byte) : (st.latchStart o b).params = st.params := rfl
@[simp] theorem State.latchStart_status (st : State) (o : BitVec 1) (b : List Byte) : (st.latchStart o b).status = .busy := rfl
@[simp] theorem State.latchStart_op (st : State) (o : BitVec 1) (b : List Byte) : (st.latchStart o b).op = o := rfl
@[simp] theorem State.latchStart_input (st : State) (o : BitVec 1) (b : List Byte) : (st.latchStart o b).input = b := rfl
@[simp] theorem State.latchStart_ip (st : State) (o : BitVec 1) (b : List Byte) : (st.latchStart o b).ip = 0 := rfl
@[simp] theorem State.latchStart_out (st : State) (o : BitVec 1) (b : List Byte) : (st.latchStart o b).out = [] := rfl
@[simp] theorem State.latchStart_seq (st : State) (o : BitVec 1) (b : List Byte) : (st.latchStart o b).seq = (if o = 0#1 then .eInit else .dInit) := rfl
@[simp] theorem State.latchStart_r (st : State) (o : BitVec 1) (b : List Byte) : (st.latchStart o b).r = st.r := rfl
@[simp] theorem State.latchStart_flags (st : State) (o : BitVec 1) (b : List Byte) : (st.latchStart o b).flags = st.flags := rfl
@[simp] theorem State.latchStart_s (st : State) (o : BitVec 1) (b : List Byte) : (st.latchStart o b).s = st.s := rfl
@[simp] theorem State.latchStart_len (st : State) (o : BitVec 1) (b : List Byte) : (st.latchStart o b).len = st.len := rfl
@[simp] theorem State.latchStart_matchPos (st : State) (o : BitVec 1) (b : List Byte) : (st.latchStart o b).matchPos = st.matchPos := rfl
@[simp] theorem State.latchStart_matchLen (st : State) (o : BitVec 1) (b : List Byte) : (st.latchStart o b).matchLen = st.matchLen := rfl
@[simp] theorem State.latchStart_lastLen (st : State) (o : BitVec 1) (b : List Byte) : (st.latchStart o b).lastLen = st.lastLen := rfl
@[simp] theorem State.latchStart_i (st : State) (o : BitVec 1) (b : List Byte) : (st.latchStart o b).i = st.i := rfl
@[simp] theorem State.latchStart_mask (st : State) (o : BitVec 1) (b : List Byte) : (st.latchStart o b).mask = st.mask := rfl
@[simp] theorem State.latchStart_codePtr (st : State) (o : BitVec 1) (b : List Byte) : (st.latchStart o b).codePtr = st.codePtr := rfl
@[simp] theorem State.latchStart_codeBuf (st : State) (o : BitVec 1) (b : List Byte) : (st.latchStart o b).codeBuf = st.codeBuf := rfl
@[simp] theorem State.latchStart_ring (st : State) (o : BitVec 1) (b : List Byte) : (st.latchStart o b).ring = st.ring := rfl
@[simp] theorem State.latchStart_lson (st : State) (o : BitVec 1) (b : List Byte) : (st.latchStart o b).lson = st.lson := rfl
@[simp] theorem State.latchStart_rson (st : State) (o : BitVec 1) (b : List Byte) : (st.latchStart o b).rson = st.rson := rfl
@[simp] theorem State.latchStart_dad (st : State) (o : BitVec 1) (b : List Byte) : (st.latchStart o b).dad = st.dad := rfl
@[simp] theorem State.latchStart_host (st : State) (o : BitVec 1) (b : List Byte) : (st.latchStart o b).host = st.host := rfl
@[simp] theorem State.latchStart_reply (st : State) (o : BitVec 1) (b : List Byte) : (st.latchStart o b).reply = st.reply := rfl
@[simp] theorem State.latchStart_frees (st : State) (o : BitVec 1) (b : List Byte) : (st.latchStart o b).frees = st.frees := rfl

/-! mirrorWrite -/

@[simp] theorem State.mirrorWrite_params (st : State) (c : Byte) : (st.mirrorWrite c).params = st.params := rfl
@[simp] theorem State.mirrorWrite_status (st : State) (c : Byte) : (st.mirrorWrite c).status = st.status := rfl
@[simp] theorem State.mirrorWrite_op (st : State) (c : Byte) : (st.mirrorWrite c).op = st.op := rfl
@[simp] theorem State.mirrorWrite_input (st : State) (c : Byte) : (st.mirrorWrite c).input = st.input := rfl
@[simp] theorem State.mirrorWrite_ip (st : State) (c : Byte) : (st.mirrorWrite c).ip = st.ip := rfl
@[simp] theorem State.mirrorWrite_out (st : State) (c : Byte) : (st.mirrorWrite c).out = st.out := rfl
@[simp] theorem State.mirrorWrite_seq (st : State) (c : Byte) : (st.mirrorWrite c).seq = st.seq := rfl
@[simp] theorem State.mirrorWrite_r (st : State) (c : Byte) : (st.mirrorWrite c).r = st.r := rfl
@[simp] theorem State.mirrorWrite_flags (st : State) (c : Byte) : (st.mirrorWrite c).flags = st.flags := rfl
@[simp] theorem State.mirrorWrite_s (st : State) (c : Byte) : (st.mirrorWrite c).s = st.s := rfl
@[simp] theorem State.mirrorWrite_len (st : State) (c : Byte) : (st.mirrorWrite c).len = st.len := rfl
@[simp] theorem State.mirrorWrite_matchPos (st : State) (c : Byte) : (st.mirrorWrite c).matchPos = st.matchPos := rfl
@[simp] theorem State.mirrorWrite_matchLen (st : State) (c : Byte) : (st.mirrorWrite c).matchLen = st.matchLen := rfl
@[simp] theorem State.mirrorWrite_lastLen (st : State) (c : Byte) : (st.mirrorWrite c).lastLen = st.lastLen := rfl
@[simp] theorem State.mirrorWrite_i (st : State) (c : Byte) : (st.mirrorWrite c).i = st.i := rfl
@[simp] theorem State.mirrorWrite_mask (st : State) (c : Byte) : (st.mirrorWrite c).mask = st.mask := rfl
@[simp] theorem State.mirrorWrite_codePtr (st : State) (c : Byte) : (st.mirrorWrite c).codePtr = st.codePtr := rfl
@[simp] theorem State.mirrorWrite_codeBuf (st : State) (c : Byte) : (st.mirrorWrite c).codeBuf = st.codeBuf := rfl
@[simp] theorem State.mirrorWrite_lson (st : State) (c : Byte) : (st.mirrorWrite c).lson = st.lson := rfl
@[simp] theorem State.mirrorWrite_rson (st : State) (c : Byte) : (st.mirrorWrite c).rson = st.rson := rfl
@[simp] theorem State.mirrorWrite_dad (st : State) (c : Byte) : (st.mirrorWrite c).dad = st.dad := rfl
@[simp] theorem State.mirrorWrite_host (st : State) (c : Byte) : (st.mirrorWrite c).host = st.host := rfl
@[simp] theorem State.mirrorWrite_reply (st : State) (c : Byte) : (st.mirrorWrite c).reply = st.reply := rfl
@[simp] theorem State.mirrorWrite_frees (st : State) (c : Byte) : (st.mirrorWrite c).frees = st.frees := rfl
@[simp] theorem State.mirrorWrite_ring (st : State) (c : Byte) : (st.mirrorWrite c).ring = mirroredRing st c := rfl

end Sys2Proof.Machine
end

