-- ==== Sys2Proof/Laws/Ops.lean ====
section
/-! SUPPORT. What RING, the tree arrays, the input and OUT read as after each named operation. -/

namespace Sys2Proof.Machine

/-! RING -/

theorem State.ringRead_ringWrite (st : State) (a b : Nat) (v : Byte) :
    (st.ringWrite a v).ringRead b = if b = a then v else st.ringRead b :=
  Memory.read_write _ _ a b v

@[simp] theorem State.ringRead_advance (st : State) (n a : Nat) : (st.advance n).ringRead a = st.ringRead a := rfl
@[simp] theorem State.ringRead_outByte (st : State) (v : Byte) (a : Nat) : (st.outByte v).ringRead a = st.ringRead a := rfl
@[simp] theorem State.ringRead_stop (st : State) (a : Nat) : st.stop.ringRead a = st.ringRead a := rfl
@[simp] theorem State.ringRead_setLson (st : State) (j v : TreeIdx) (a : Nat) : (st.setLson j v).ringRead a = st.ringRead a := rfl
@[simp] theorem State.ringRead_setRson (st : State) (j v : TreeIdx) (a : Nat) : (st.setRson j v).ringRead a = st.ringRead a := rfl
@[simp] theorem State.ringRead_setDad (st : State) (j v : TreeIdx) (a : Nat) : (st.setDad j v).ringRead a = st.ringRead a := rfl
@[simp] theorem State.ringRead_advanceWindow (st : State) (a : Nat) : st.advanceWindow.ringRead a = st.ringRead a := rfl
@[simp] theorem State.ringRead_shiftFlags (st : State) (a : Nat) : st.shiftFlags.ringRead a = st.ringRead a := rfl

theorem State.ringRead_emitDecoded (st : State) (c : Byte) (a : Nat) :
    (st.emitDecoded c).ringRead a = if a = st.r.toNat then c else st.ringRead a :=
  Memory.read_write _ _ _ a c

/-- RING with nothing listed reads as its call-start contents (R35). -/
theorem State.ringRead_of_nil {st : State} (h : st.ring = []) (a : Nat) :
    st.ringRead a = ringDefault st.params.unprimedFill a := by
  simp [State.ringRead, Memory.read, h]

/-- A state with the same parameters and RING reads the same. -/
theorem State.ringRead_congr {st st' : State} (hp : st.params = st'.params) (hr : st.ring = st'.ring) (a : Nat) :
    st.ringRead a = st'.ringRead a := by
  simp [State.ringRead, hp, hr]

/-! The tree arrays -/

theorem State.lsonAt_setLson (st : State) (j v k : TreeIdx) :
    (st.setLson j v).lsonAt k = if k = j then v else st.lsonAt k := by
  simp [State.lsonAt, State.setLson, Cells.read_write, Fin.ext_iff]

theorem State.rsonAt_setRson (st : State) (j v k : TreeIdx) :
    (st.setRson j v).rsonAt k = if k = j then v else st.rsonAt k := by
  simp [State.rsonAt, State.setRson, Cells.read_write, Fin.ext_iff]

theorem State.dadAt_setDad (st : State) (j v k : TreeIdx) :
    (st.setDad j v).dadAt k = if k = j then v else st.dadAt k := by
  simp [State.dadAt, State.setDad, Cells.read_write, Fin.ext_iff]

@[simp] theorem State.lsonAt_setRson (st : State) (j v k : TreeIdx) : (st.setRson j v).lsonAt k = st.lsonAt k := rfl
@[simp] theorem State.lsonAt_setDad (st : State) (j v k : TreeIdx) : (st.setDad j v).lsonAt k = st.lsonAt k := rfl
@[simp] theorem State.rsonAt_setLson (st : State) (j v k : TreeIdx) : (st.setLson j v).rsonAt k = st.rsonAt k := rfl
@[simp] theorem State.rsonAt_setDad (st : State) (j v k : TreeIdx) : (st.setDad j v).rsonAt k = st.rsonAt k := rfl
@[simp] theorem State.dadAt_setLson (st : State) (j v k : TreeIdx) : (st.setLson j v).dadAt k = st.dadAt k := rfl
@[simp] theorem State.dadAt_setRson (st : State) (j v k : TreeIdx) : (st.setRson j v).dadAt k = st.dadAt k := rfl

/-! Tree indices -/

theorem nodeIdx_ne_nil (p : Pos) : nodeIdx p ≠ nilIdx := by
  intro h
  have := congrArg Fin.val h
  have hp := p.isLt
  simp only [nodeIdx, nilIdx] at this
  omega

theorem rootIdx_ne_nil (c : Byte) : rootIdx c ≠ nilIdx := by
  intro h
  have := congrArg Fin.val h
  simp only [rootIdx, nilIdx] at this
  omega

theorem nodeIdx_ne_rootIdx (p : Pos) (c : Byte) : nodeIdx p ≠ rootIdx c := by
  intro h
  have := congrArg Fin.val h
  have hp := p.isLt
  simp only [rootIdx, nodeIdx] at this
  omega

@[simp] theorem nodeIdx_inj {p q : Pos} : nodeIdx p = nodeIdx q ↔ p = q := by
  constructor
  · intro h
    have hv : p.toNat = q.toNat := congrArg (fun t : TreeIdx => t.val) h
    exact BitVec.eq_of_toNat_eq hv
  · rintro rfl; rfl

@[simp] theorem rootIdx_inj {c d : Byte} : rootIdx c = rootIdx d ↔ c = d := by
  constructor
  · intro h
    have := congrArg Fin.val h
    simp only [rootIdx] at this
    exact BitVec.eq_of_toNat_eq (by omega)
  · rintro rfl; rfl

@[simp] theorem nodeOf?_nodeIdx (p : Pos) : nodeOf? (nodeIdx p) = some p := by
  have hp := p.isLt
  simp [nodeOf?, nodeIdx, hp]

/-! Positions -/

/-- Positions wrap modulo 4096 (R8): n + 1 steps are one step and n more. -/
theorem pos_add_succ (p : Pos) (n : Nat) : p + 1#12 + BitVec.ofNat 12 n = p + BitVec.ofNat 12 (n + 1) := by
  apply BitVec.eq_of_toNat_eq
  simp only [BitVec.toNat_add, BitVec.toNat_ofNat]
  omega

/-- A window position n steps on, n < 4096, has its own address. -/
theorem pos_add_inj {p : Pos} {m n : Nat} (hm : m < 4096) (hn : n < 4096)
    (h : (p + BitVec.ofNat 12 m).toNat = (p + BitVec.ofNat 12 n).toNat) : m = n := by
  simp only [BitVec.toNat_add, BitVec.toNat_ofNat] at h
  have := p.isLt
  omega

/-! Input -/

theorem State.inByte?_eq_some {st st' : State} {c : Byte} (h : st.inByte? = some (c, st')) :
    st.input[st.ip]? = some c ∧ st' = st.advance 1 := by
  unfold State.inByte? at h
  split at h
  · cases h; exact ⟨‹_›, rfl⟩
  · cases h

theorem State.inByte?_eq_none {st : State} (h : st.inByte? = none) : st.input.length ≤ st.ip := by
  unfold State.inByte? at h
  split at h
  · cases h
  · rename_i hn
    simpa using hn

theorem State.inAvail_iff (st : State) : st.inAvail = true ↔ st.ip < st.input.length := by
  simp [State.inAvail]

/-! The slide's write -/

/-- RING after the slide's write: the byte at S, and at S + 4096 when S < 17 (R62, R150). -/
theorem State.ringRead_mirrorWrite (st : State) (c : Byte) (a : Nat) :
    (st.mirrorWrite c).ringRead a =
      if a = st.s.toNat ∨ (st.s.toNat < 17 ∧ a = st.s.toNat + 4096) then c else st.ringRead a := by
  show Memory.read st.params.unprimedFill (mirroredRing st c) a = _
  unfold mirroredRing
  simp only [Config.mirrorCells, Config.windowSize, State.ringRead]
  by_cases hs : st.s.toNat < 17
  · simp only [Memory.read_write, hs, if_true, true_and]
    split <;> split <;> simp_all
  · simp only [Memory.read_write, hs, if_false, false_and, or_false]

end Sys2Proof.Machine
end

