-- ==== Sys2Proof/Laws/Decoder.lean ====
section
/-! SUPPORT. What the copy loop of MATCH does (spec/40_decompress.md R104), and what a decoded element is
(spec/30_encoding.md R81 to R84). -/

namespace Sys2Proof.Machine

/-! The copy loop -/

theorem copyMatch_succ (pos : Pos) (n k : Nat) (st : State) :
    copyMatch pos (n + 1) k st = copyMatch pos n (k + 1) (st.emitDecoded (st.windowByte (matchSource pos k))) := rfl

/-- The copy loop changes OUT, RING and R only (R38, R104). -/
theorem copyMatch_frame (pos : Pos) (n k : Nat) (st : State) :
    copyMatch pos n k st =
      { st with
        out := (copyMatch pos n k st).out, ring := (copyMatch pos n k st).ring, r := (copyMatch pos n k st).r } := by
  induction n generalizing k st with
  | zero => rfl
  | succ n ih =>
    rw [copyMatch_succ]
    conv_lhs => rw [ih]
    rfl

@[simp] theorem copyMatch_r (pos : Pos) (n k : Nat) (st : State) :
    (copyMatch pos n k st).r = st.r + BitVec.ofNat 12 n := by
  induction n generalizing k st with
  | zero => simp [copyMatch]
  | succ n ih =>
    rw [copyMatch_succ, ih, State.emitDecoded_r, pos_add_succ]

/-- The bytes a copy of n bytes emits are appended to OUT. -/
theorem copyMatch_out (pos : Pos) (n k : Nat) (st : State) :
    ∃ copied, copied.length = n ∧ (copyMatch pos n k st).out = st.out ++ copied := by
  induction n generalizing k st with
  | zero => exact ⟨[], rfl, by simp [copyMatch]⟩
  | succ n ih =>
    obtain ⟨c, h1, h2⟩ := ih (k + 1) (st.emitDecoded (st.windowByte (matchSource pos k)))
    exact ⟨st.windowByte (matchSource pos k) :: c, by simp [h1], by rw [copyMatch_succ, h2]; simp⟩

/-- The copy loop writes no cell but R, R + 1, ..., R + n - 1. -/
theorem copyMatch_ringRead_other (pos : Pos) (n k : Nat) (st : State) (a : Nat)
    (h : ∀ j, j < n → a ≠ (st.r + BitVec.ofNat 12 j).toNat) :
    (copyMatch pos n k st).ringRead a = st.ringRead a := by
  induction n generalizing k st with
  | zero => rfl
  | succ n ih =>
    have h0 : a ≠ st.r.toNat := by simpa using h 0 (by omega)
    rw [copyMatch_succ, ih, State.ringRead_emitDecoded, if_neg h0]
    intro j hj hc
    apply h (j + 1) (by omega)
    rw [hc, State.emitDecoded_r, pos_add_succ]

theorem copyMatch_prefix (pos : Pos) (n k : Nat) (st : State) : st.out <+: (copyMatch pos n k st).out := by
  obtain ⟨c, -, h⟩ := copyMatch_out pos n k st
  rw [h]
  exact List.prefix_append _ _

/-! Fetching an element -/

/-- What `decode` answers, by kind and length of the input (R86, R105). -/
theorem decode_cases (k : Kind) (bytes : List Byte) :
    (∃ e, decode k bytes = .error e ∧ e.consumed = bytes.length ∧ bytes.length ≤ 1) ∨
    (∃ c rest, k = .control ∧ bytes = c :: rest ∧ decode k bytes = .ok (.ctrl c, rest)) ∨
    (∃ d rest, k = .literal ∧ bytes = d :: rest ∧ decode k bytes = .ok (.lit d, rest)) ∨
    (∃ i j rest, k = .matched ∧ bytes = i :: j :: rest ∧
      decode k bytes = .ok (.matchTok (matchPosOf i j) (matchLenOf j), rest)) := by
  match k, bytes with
  | .control, [] => exact .inl ⟨_, rfl, rfl, by simp⟩
  | .control, c :: rest => exact .inr (.inl ⟨c, rest, rfl, rfl, rfl⟩)
  | .literal, [] => exact .inl ⟨_, rfl, rfl, by simp⟩
  | .literal, d :: rest => exact .inr (.inr (.inl ⟨d, rest, rfl, rfl, rfl⟩))
  | .matched, [] => exact .inl ⟨_, rfl, rfl, by simp⟩
  | .matched, [_] => exact .inl ⟨_, rfl, rfl, by simp⟩
  | .matched, i :: j :: rest => exact .inr (.inr (.inr ⟨i, j, rest, rfl, rfl, rfl⟩))

theorem matchLenOf_bounds (j : Byte) : 3 ≤ matchLenOf j ∧ matchLenOf j ≤ 18 := by
  have h : (j &&& 0x0F#8).toNat ≤ 15 := by
    rw [BitVec.toNat_and]
    exact Nat.and_le_right
  unfold matchLenOf
  omega

/-! The three elements, where input is available and where it is not -/

theorem execCtrl_of_avail {st : State} (c : Byte) (h : st.ip < st.input.length) :
    execCtrl c st = .next { st.advance 1 with flags := refillValue c } := by
  unfold execCtrl
  rw [if_pos (st.inAvail_iff.mpr h)]

theorem execLit_of_avail {st : State} (d : Byte) (h : st.ip < st.input.length) :
    execLit d st = .next ((st.advance 1).emitDecoded d) := by
  unfold execLit
  rw [if_pos (st.inAvail_iff.mpr h)]

theorem execMatch_of_avail {st : State} (pos : Pos) (len : Nat) (h : st.ip + 2 ≤ st.input.length) :
    execMatch pos len st = .next (copyMatch pos len 0 ((st.advance 1).advance 1)) := by
  unfold execMatch
  rw [if_pos (st.inAvail_iff.mpr (by omega))]
  simp only []
  rw [if_pos ((st.advance 1).inAvail_iff.mpr (by simp; omega))]

/-- The unread input, when it starts with these bytes, has this many left. -/
theorem State.unread_length (st : State) : st.unread.length = st.input.length - st.ip := by
  simp [State.unread]

end Sys2Proof.Machine
end

