-- ==== Sys2Proof/Laws/Tree.lean ====
section
/-! SUPPORT. The frames of InsertNode and DeleteNode (spec/42_match_tree.md R182, R187): which fields they can change,
and that they keep the tree arrays in canonical form. -/

namespace Sys2Proof.Machine

/-- st with the tree arrays blanked: what a tree procedure that does not search leaves alone. -/
def withoutTree (st : State) : State := { st with lson := [], rson := [], dad := [] }

/-- st with the tree arrays, MATCH_POS and MATCH_LEN blanked: what InsertNode leaves alone. -/
def withoutSearch (st : State) : State := { withoutTree st with matchPos := 0#12, matchLen := 0#5 }

/-- The three tree arrays are in canonical form. -/
def TreesWf (st : State) : Prop := treeWf st.lson = true ∧ treeWf st.rson = true ∧ treeWf st.dad = true

theorem eq_of_withoutTree {st t : State} (h : withoutTree t = withoutTree st) :
    t = { st with lson := t.lson, rson := t.rson, dad := t.dad } := by
  have e : t = { withoutTree t with lson := t.lson, rson := t.rson, dad := t.dad } := rfl
  rw [h] at e
  exact e

theorem eq_of_withoutSearch {st t : State} (h : withoutSearch t = withoutSearch st) :
    t = { st with
      lson := t.lson, rson := t.rson, dad := t.dad, matchPos := t.matchPos, matchLen := t.matchLen } := by
  have e : t = { withoutSearch t with
    lson := t.lson, rson := t.rson, dad := t.dad, matchPos := t.matchPos, matchLen := t.matchLen } := rfl
  rw [h] at e
  exact e

theorem matchLen_of_withoutTree {st t : State} (h : withoutTree t = withoutTree st) : t.matchLen = st.matchLen := by
  show (withoutTree t).matchLen = (withoutTree st).matchLen
  rw [h]

theorem withoutSearch_of_withoutTree {st t : State} (h : withoutTree t = withoutTree st) :
    withoutSearch t = withoutSearch st := by
  simp only [withoutSearch, h]

@[simp] theorem withoutTree_setLson (st : State) (j v : TreeIdx) : withoutTree (st.setLson j v) = withoutTree st := rfl
@[simp] theorem withoutTree_setRson (st : State) (j v : TreeIdx) : withoutTree (st.setRson j v) = withoutTree st := rfl
@[simp] theorem withoutTree_setDad (st : State) (j v : TreeIdx) : withoutTree (st.setDad j v) = withoutTree st := rfl

theorem TreesWf.setLson {st : State} (h : TreesWf st) (j v : TreeIdx) : TreesWf (st.setLson j v) :=
  ⟨treeWf_write j v h.1, h.2.1, h.2.2⟩
theorem TreesWf.setRson {st : State} (h : TreesWf st) (j v : TreeIdx) : TreesWf (st.setRson j v) :=
  ⟨h.1, treeWf_write j v h.2.1, h.2.2⟩
theorem TreesWf.setDad {st : State} (h : TreesWf st) (j v : TreeIdx) : TreesWf (st.setDad j v) :=
  ⟨h.1, h.2.1, treeWf_write j v h.2.2⟩

/-! The pieces of the two procedures -/

@[simp] theorem withoutTree_attachNode (st : State) (r : Pos) (p : TreeIdx) (cmp : Int) :
    withoutTree (attachNode st r p cmp) = withoutTree st := by
  unfold attachNode; split <;> rfl

@[simp] theorem withoutTree_relinkParent (st : State) (p q : TreeIdx) :
    withoutTree (relinkParent st p q) = withoutTree st := by
  unfold relinkParent; split <;> rfl

@[simp] theorem withoutTree_replaceNode (st : State) (r p : Pos) :
    withoutTree (replaceNode st r p) = withoutTree st := by
  simp [replaceNode]

@[simp] theorem withoutTree_promoteChild (st : State) (p q : TreeIdx) :
    withoutTree (promoteChild st p q) = withoutTree st := by
  simp [promoteChild]

@[simp] theorem withoutTree_unlinkPredecessor (st : State) (p q : TreeIdx) :
    withoutTree (unlinkPredecessor st p q) = withoutTree st := by
  simp [unlinkPredecessor]

@[simp] theorem withoutTree_takeRightSubtree (st : State) (p q : TreeIdx) :
    withoutTree (takeRightSubtree st p q) = withoutTree st := by
  simp [takeRightSubtree]

theorem TreesWf.attachNode {st : State} (h : TreesWf st) (r : Pos) (p : TreeIdx) (cmp : Int) :
    TreesWf (attachNode st r p cmp) := by
  unfold Machine.attachNode
  split
  · exact (h.setRson _ _).setDad _ _
  · exact (h.setLson _ _).setDad _ _

theorem TreesWf.relinkParent {st : State} (h : TreesWf st) (p q : TreeIdx) : TreesWf (relinkParent st p q) := by
  unfold Machine.relinkParent
  split
  · exact h.setRson _ _
  · exact h.setLson _ _

theorem TreesWf.replaceNode {st : State} (h : TreesWf st) (r p : Pos) : TreesWf (replaceNode st r p) :=
  ((((((h.setDad _ _).setLson _ _).setRson _ _).setDad _ _).setDad _ _).relinkParent _ _).setDad _ _

theorem TreesWf.promoteChild {st : State} (h : TreesWf st) (p q : TreeIdx) : TreesWf (promoteChild st p q) :=
  ((h.setDad _ _).relinkParent _ _).setDad _ _

theorem TreesWf.unlinkPredecessor {st : State} (h : TreesWf st) (p q : TreeIdx) :
    TreesWf (unlinkPredecessor st p q) :=
  (((h.setRson _ _).setDad _ _).setLson _ _).setDad _ _

theorem TreesWf.takeRightSubtree {st : State} (h : TreesWf st) (p q : TreeIdx) :
    TreesWf (takeRightSubtree st p q) :=
  (h.setRson _ _).setDad _ _

/-! The comparison -/

/-- The comparison stops at a byte count of at most 18 and at the first difference (R183). -/
theorem compareKeys_spec (st : State) (r p : Pos) (n i : Nat) :
    i ≤ (compareKeys st r p n i).1 ∧ (compareKeys st r p n i).1 ≤ i + n ∧
    (∀ k, i ≤ k → k < (compareKeys st r p n i).1 → st.keyByte p k = st.keyByte r k) ∧
    ((compareKeys st r p n i).1 < i + n →
      (compareKeys st r p n i).2 =
        ((st.keyByte r (compareKeys st r p n i).1).toNat : Int) -
          ((st.keyByte p (compareKeys st r p n i).1).toNat : Int) ∧
      (compareKeys st r p n i).2 ≠ 0) ∧
    ((compareKeys st r p n i).1 = i + n → (compareKeys st r p n i).2 = 0) := by
  induction n generalizing i with
  | zero => simp [compareKeys]; intros; omega
  | succ n ih =>
    by_cases h : ((st.keyByte r i).toNat : Int) - ((st.keyByte p i).toNat : Int) ≠ 0
    · have e : compareKeys st r p (n + 1) i =
          (i, ((st.keyByte r i).toNat : Int) - ((st.keyByte p i).toNat : Int)) := by
        simp only [compareKeys, if_pos h]
      rw [e]
      refine ⟨Nat.le_refl _, by simp, ?_, fun _ => ⟨rfl, h⟩, fun hc => ?_⟩
      · intro k h1 h2; exact absurd h2 (by simpa using h1)
      · simp at hc
    · have e : compareKeys st r p (n + 1) i = compareKeys st r p n (i + 1) := by
        simp only [compareKeys, if_neg h]
      have hb : st.keyByte p i = st.keyByte r i := by
        apply BitVec.eq_of_toNat_eq
        omega
      obtain ⟨h1, h2, h3, h4, h5⟩ := ih (i + 1)
      rw [e]
      refine ⟨by omega, by omega, ?_, fun hc => h4 (by omega), fun hc => h5 (by omega)⟩
      intro k hk1 hk2
      by_cases hki : k = i
      · subst hki; exact hb
      · exact h3 k (by omega) hk2

@[simp] theorem withoutSearch_recordMatch (st : State) (p : Pos) (i : Nat) :
    withoutSearch (recordMatch st p i) = withoutSearch st := by
  unfold recordMatch; split <;> rfl

@[simp] theorem recordMatch_trees (st : State) (p : Pos) (i : Nat) :
    (recordMatch st p i).lson = st.lson ∧ (recordMatch st p i).rson = st.rson ∧ (recordMatch st p i).dad = st.dad := by
  unfold recordMatch; split <;> exact ⟨rfl, rfl, rfl⟩

theorem recordMatch_len (st : State) (p : Pos) {i : Nat} (hi : i ≤ 18) :
    (recordMatch st p i).matchLen.toNat = max st.matchLen.toNat i := by
  unfold recordMatch
  split
  · simp only [BitVec.toNat_ofNat]; omega
  · omega

/-! InsertNode -/

/-- Everything the descent can change, and the bound on what it reports. -/
theorem descend_frame {r : Pos} {fuel : Nat} {st t : State} {p : TreeIdx} {cmp : Int}
    (h : descend r fuel st p cmp = .ok t) :
    withoutSearch t = withoutSearch st ∧ (st.matchLen.toNat ≤ 18 → t.matchLen.toNat ≤ 18) ∧
      (TreesWf st → TreesWf t) := by
  induction fuel generalizing st p cmp with
  | zero => simp [descend] at h
  | succ fuel ih =>
    simp only [descend] at h
    generalize hc : (if 0 ≤ cmp then st.rsonAt p else st.lsonAt p) = child at h
    split at h
    · cases h
      exact ⟨withoutSearch_of_withoutTree (by simp), fun hm => by
        rw [matchLen_of_withoutTree (withoutTree_attachNode _ r p cmp)]; exact hm, fun hw => hw.attachNode _ _ _⟩
    · split at h
      · cases h
      · rename_i q hq
        have hcmp := compareKeys_spec st r q 17 1
        have hrec : ∀ hw : TreesWf st, TreesWf (recordMatch st q (compareKeys st r q 17 1).1) := by
          intro hw
          obtain ⟨h1, h2, h3⟩ := recordMatch_trees st q (compareKeys st r q 17 1).1
          exact ⟨h1 ▸ hw.1, h2 ▸ hw.2.1, h3 ▸ hw.2.2⟩
        have hlen := recordMatch_len st q (i := (compareKeys st r q 17 1).1) (by omega)
        split at h
        · cases h
          refine ⟨?_, fun hm => ?_, fun hw => (hrec hw).replaceNode _ _⟩
          · rw [withoutSearch_of_withoutTree (withoutTree_replaceNode _ _ _)]; simp
          · rw [matchLen_of_withoutTree (withoutTree_replaceNode _ r q), hlen]; omega
        · obtain ⟨h1, h2, h3⟩ := ih h
          refine ⟨by rw [h1]; simp, fun hm => h2 (by rw [hlen]; omega), fun hw => h3 (hrec hw)⟩

/-- Everything InsertNode can change (R182). -/
theorem insertNode_frame {r : Pos} {st t : State} (h : insertNode r st = .ok t) :
    withoutSearch t = withoutSearch st ∧ t.matchLen.toNat ≤ 18 ∧ (TreesWf st → TreesWf t) := by
  obtain ⟨h1, h2, h3⟩ := descend_frame h
  refine ⟨h1.trans rfl, h2 (by simp), fun hw => h3 ?_⟩
  have hw' := (hw.setRson (nodeIdx r) nilIdx).setLson (nodeIdx r) nilIdx
  exact ⟨hw'.1, hw'.2.1, hw'.2.2⟩

/-! DeleteNode -/

theorem rightmost_of_ok {st : State} {fuel : Nat} {p q : TreeIdx} (h : rightmost st fuel p = .ok q) :
    st.rsonAt q = nilIdx := by
  induction fuel generalizing p with
  | zero => simp [rightmost] at h
  | succ fuel ih =>
    simp only [rightmost] at h
    split at h
    · cases h; assumption
    · exact ih h

/-- Everything DeleteNode can change (R187). -/
theorem deleteNode_frame {p : Pos} {st t : State} (h : deleteNode p st = .ok t) :
    withoutTree t = withoutTree st ∧ (TreesWf st → TreesWf t) := by
  simp only [deleteNode] at h
  split at h
  · cases h; exact ⟨rfl, id⟩
  · split at h
    · cases h; exact ⟨by simp, fun hw => hw.promoteChild _ _⟩
    · split at h
      · cases h; exact ⟨by simp, fun hw => hw.promoteChild _ _⟩
      · simp only [deleteTwoChildren] at h
        split at h
        · cases h; exact ⟨by simp, fun hw => (hw.takeRightSubtree _ _).promoteChild _ _⟩
        · split at h
          · cases h
          · cases h
            exact ⟨by simp, fun hw => ((hw.unlinkPredecessor _ _).takeRightSubtree _ _).promoteChild _ _⟩

end Sys2Proof.Machine
end

