-- ==== Sys2Proof/Laws/Encoder.lean ====
section
/-! SUPPORT. What each operation of the encoder can change (spec/41_compress.md R142 to R153): one lemma each, cited
instead of unfolding it. -/

namespace Sys2Proof.Machine

/-! Emission -/

/-- A push changes CODE_BUF at CODE_PTR and CODE_PTR only (R147). -/
theorem pushCode_ok {st t : State} {v : Byte} (h : st.pushCode v = .ok t) :
    ∃ hp : st.codePtr.toNat < 17,
      t = { st with codeBuf := st.codeBuf.set st.codePtr.toNat v hp, codePtr := st.codePtr + 1#5 } := by
  unfold State.pushCode at h
  split at h
  · rename_i hp
    cases h
    exact ⟨hp, rfl⟩
  · cases h

theorem pushCode_of_lt {st : State} (v : Byte) (hp : st.codePtr.toNat < 17) :
    st.pushCode v =
      .ok { st with codeBuf := st.codeBuf.set st.codePtr.toNat v hp, codePtr := st.codePtr + 1#5 } := by
  unfold State.pushCode
  rw [dif_pos hp]

/-- The clamp (R145): MATCH_LEN becomes min(MATCH_LEN, LEN), nothing else changes. -/
theorem clampMatch_eq (st : State) :
    st.clampMatch = { st with matchLen := BitVec.ofNat 5 (min st.matchLen.toNat st.len.toNat) } := by
  unfold State.clampMatch
  split
  · rename_i hlt
    rw [BitVec.lt_def] at hlt
    rw [Nat.min_eq_right (by omega), BitVec.ofNat_toNat, BitVec.setWidth_eq]
  · rename_i hlt
    rw [BitVec.lt_def] at hlt
    rw [Nat.min_eq_left (by omega), BitVec.ofNat_toNat, BitVec.setWidth_eq]

/-- Token choice (R146 to R148) changes CODE_BUF, CODE_PTR and MATCH_LEN only, and leaves in MATCH_LEN the number of
bytes the token covers. -/
theorem chooseToken_frame {st t : State} (h : st.chooseToken = .ok t) :
    t = { st with codeBuf := t.codeBuf, codePtr := t.codePtr, matchLen := t.matchLen } ∧
      t.matchLen = (if st.matchLen.toNat ≤ 2 then 1#5 else st.matchLen) := by
  unfold State.chooseToken at h
  split at h
  · rename_i hle
    obtain ⟨hp, rfl⟩ := pushCode_ok h
    exact ⟨rfl, by rw [if_pos hle]⟩
  · rename_i hgt
    simp only [emitMatch] at h
    split at h
    · cases h
    · rename_i s1 hs1
      obtain ⟨hp, rfl⟩ := pushCode_ok hs1
      obtain ⟨hp', rfl⟩ := pushCode_ok h
      exact ⟨rfl, by rw [if_neg hgt]; rfl⟩

/-- Mask advance and flush (R149) change MASK, CODE_BUF, CODE_PTR and OUT only, and only append to OUT. -/
theorem closeToken_frame (st : State) :
    st.closeToken =
        { st with
          mask := st.closeToken.mask, codeBuf := st.closeToken.codeBuf, codePtr := st.closeToken.codePtr,
          out := st.closeToken.out } ∧
      st.out <+: st.closeToken.out := by
  unfold State.closeToken
  simp only []
  split
  · exact ⟨rfl, List.prefix_append _ _⟩
  · exact ⟨rfl, List.prefix_refl _⟩

/-! The slide -/

/-- st with everything blanked that the slide can change: the tree, the search result, RING, IP, R, S, LEN, I. -/
def withoutWindow (st : State) : State :=
  { withoutSearch st with ring := [], ip := 0, r := 0#12, s := 0#12, len := 0#5, i := 0#5 }

theorem withoutWindow_of_search {st t : State} (h : withoutSearch t = withoutSearch st) :
    withoutWindow t = withoutWindow st := by
  simp only [withoutWindow, h]

theorem withoutWindow_of_tree {st t : State} (h : withoutTree t = withoutTree st) :
    withoutWindow t = withoutWindow st :=
  withoutWindow_of_search (withoutSearch_of_withoutTree h)

theorem eq_of_withoutWindow {st t : State} (h : withoutWindow t = withoutWindow st) :
    t = { st with
      lson := t.lson, rson := t.rson, dad := t.dad, matchPos := t.matchPos, matchLen := t.matchLen, ring := t.ring,
      ip := t.ip, r := t.r, s := t.s, len := t.len, i := t.i } := by
  have e : t = { withoutWindow t with
    lson := t.lson, rson := t.rson, dad := t.dad, matchPos := t.matchPos, matchLen := t.matchLen, ring := t.ring,
    ip := t.ip, r := t.r, s := t.s, len := t.len, i := t.i } := rfl
  rw [h] at e
  exact e

/-- One turn of the slide while input remains (R150), taken apart: the state after the deletion, and after the insertion
at the new R. -/
theorem slideByte_ok {c : Byte} {st t : State} (h : slideByte c st = .ok t) :
    ∃ s1 s3, deleteNode st.s st = .ok s1 ∧
      insertNode (s1.mirrorWrite c).advanceWindow.r (s1.mirrorWrite c).advanceWindow = .ok s3 ∧
      t = { s3 with i := s3.i + 1#5 } := by
  simp only [slideByte] at h
  split at h
  · cases h
  · rename_i s1 h1
    split at h
    · cases h
    · rename_i s3 h3
      cases h
      exact ⟨s1, s3, h1, h3, rfl⟩

/-- One turn of the slide after input is exhausted (R151), taken apart. -/
theorem tailByte_ok {st t : State} (h : tailByte st = .ok t) :
    ∃ s1, deleteNode st.s { st with i := st.i + 1#5 } = .ok s1 ∧
      ((s1.len - 1#5 = 0#5 ∧ t = { s1.advanceWindow with len := s1.len - 1#5 }) ∨
        (s1.len - 1#5 ≠ 0#5 ∧
          insertNode (s1.r + 1#12) { s1.advanceWindow with len := s1.len - 1#5 } = .ok t)) := by
  simp only [tailByte] at h
  split at h
  · cases h
  · rename_i s1 h1
    refine ⟨s1, h1, ?_⟩
    split at h
    · rename_i hz
      cases h
      exact .inl ⟨hz, rfl⟩
    · rename_i hz
      exact .inr ⟨hz, h⟩

/-- What one turn of the slide with input does to the registers and RING (R150). -/
theorem slideByte_effect {c : Byte} {st t : State} (h : slideByte c st = .ok t) :
    withoutWindow t = withoutWindow st ∧ t.r = st.r + 1#12 ∧ t.s = st.s + 1#12 ∧ t.ip = st.ip ∧ t.len = st.len ∧
      t.i = st.i + 1#5 ∧ t.ring = mirroredRing st c ∧ t.matchLen.toNat ≤ 18 ∧ (TreesWf st → TreesWf t) := by
  obtain ⟨s1, s3, h1, h3, rfl⟩ := slideByte_ok h
  obtain ⟨d1, d2⟩ := deleteNode_frame h1
  obtain ⟨i1, i2, i3⟩ := insertNode_frame h3
  have e3 := eq_of_withoutSearch i1
  have e1 := eq_of_withoutTree d1
  refine ⟨?_, ?_, ?_, ?_, ?_, ?_, ?_, i2, ?_⟩
  · calc withoutWindow { s3 with i := s3.i + 1#5 } = withoutWindow s3 := rfl
      _ = withoutWindow (s1.mirrorWrite c).advanceWindow := withoutWindow_of_search i1
      _ = withoutWindow s1 := rfl
      _ = withoutWindow st := withoutWindow_of_tree d1
  · rw [e3, e1]; rfl
  · rw [e3, e1]; rfl
  · rw [e3, e1]; rfl
  · rw [e3, e1]; rfl
  · rw [e3, e1]; rfl
  · rw [e3, e1]; rfl
  · intro hw
    exact i3 (d2 hw)

/-- What one turn of the slide without input does to the registers and RING (R151). -/
theorem tailByte_effect {st t : State} (h : tailByte st = .ok t) :
    withoutWindow t = withoutWindow st ∧ t.r = st.r + 1#12 ∧ t.s = st.s + 1#12 ∧ t.ip = st.ip ∧
      t.len = st.len - 1#5 ∧ t.i = st.i + 1#5 ∧ t.ring = st.ring ∧
      (st.matchLen.toNat ≤ 18 → t.matchLen.toNat ≤ 18) ∧ (TreesWf st → TreesWf t) := by
  obtain ⟨s1, h1, hcase⟩ := tailByte_ok h
  obtain ⟨d1, d2⟩ := deleteNode_frame h1
  have e1 := eq_of_withoutTree d1
  have w1 : withoutWindow s1 = withoutWindow st := (withoutWindow_of_tree d1).trans rfl
  rcases hcase with ⟨-, rfl⟩ | ⟨-, h3⟩
  · refine ⟨w1, ?_, ?_, ?_, ?_, ?_, ?_, ?_, ?_⟩
    · rw [e1]; rfl
    · rw [e1]; rfl
    · rw [e1]; rfl
    · rw [e1]
    · rw [e1]; rfl
    · rw [e1]; rfl
    · intro hm; rw [e1]; exact hm
    · intro hw; exact d2 hw
  · obtain ⟨i1, i2, i3⟩ := insertNode_frame h3
    have e3 := eq_of_withoutSearch i1
    refine ⟨(withoutWindow_of_search i1).trans w1, ?_, ?_, ?_, ?_, ?_, ?_, fun _ => i2, ?_⟩
    · rw [e3, e1]; rfl
    · rw [e3, e1]; rfl
    · rw [e3, e1]; rfl
    · rw [e3, e1]
    · rw [e3, e1]; rfl
    · rw [e3, e1]; rfl
    · intro hw; exact i3 (d2 hw)

/-! The loops as iterated turns: an induction principle each -/

/-- A property that one turn of the slide with input keeps holds after the loop (R150). -/
theorem slideLoop_induct (P : State → Prop)
    (hP : ∀ st c t, P st → st.i < st.lastLen → st.input[st.ip]? = some c → slideByte c (st.advance 1) = .ok t → P t)
    {n : Nat} {st t : State} (h0 : P st) (h : slideLoop n st = .ok t) : P t := by
  induction n generalizing st with
  | zero => cases h; exact h0
  | succ n ih =>
    simp only [slideLoop] at h
    split at h
    · rename_i hlt
      split at h
      · cases h; exact h0
      · rename_i c s1 hb
        obtain ⟨hin, rfl⟩ := State.inByte?_eq_some hb
        split at h
        · cases h
        · rename_i s2 h2
          exact ih (hP st c s2 h0 hlt hin h2) h
    · cases h; exact h0

/-- A property that one turn of the slide without input keeps holds after the loop (R151). -/
theorem tailLoop_induct (P : State → Prop)
    (hP : ∀ st t, P st → st.i < st.lastLen → tailByte st = .ok t → P t)
    {n : Nat} {st t : State} (h0 : P st) (h : tailLoop n st = .ok t) : P t := by
  induction n generalizing st with
  | zero => cases h; exact h0
  | succ n ih =>
    simp only [tailLoop] at h
    split at h
    · rename_i hlt
      split at h
      · cases h
      · rename_i s1 h1
        exact ih (hP st s1 h0 hlt h1) h
    · cases h; exact h0

/-- The loop with input ends at I = LAST_LEN or at the end of input, when its bound covers the count (R150). -/
theorem slideLoop_exit {n : Nat} {st t : State} (h : slideLoop n st = .ok t)
    (hn : st.lastLen.toNat ≤ st.i.toNat + n) : ¬ t.i < t.lastLen ∨ t.input.length ≤ t.ip := by
  induction n generalizing st with
  | zero =>
    cases h
    left
    rw [BitVec.lt_def]
    omega
  | succ n ih =>
    simp only [slideLoop] at h
    split at h
    · rename_i hlt
      rw [BitVec.lt_def] at hlt
      split at h
      · rename_i hb
        cases h
        exact .inr (State.inByte?_eq_none hb)
      · rename_i c s1 hb
        obtain ⟨-, rfl⟩ := State.inByte?_eq_some hb
        split at h
        · cases h
        · rename_i s2 h2
          have e := slideByte_effect h2
          have hl : s2.lastLen = st.lastLen := by rw [eq_of_withoutWindow e.1]; rfl
          have hi : s2.i = st.i + 1#5 := e.2.2.2.2.2.1
          have h5 := st.lastLen.isLt
          apply ih h
          rw [hl, hi, BitVec.toNat_add]
          have : (st.i.toNat + (1#5).toNat) % 2 ^ 5 = st.i.toNat + 1 := by
            simp only [BitVec.toNat_ofNat]
            omega
          omega
    · rename_i hlt
      cases h
      exact .inl hlt

/-- The loop without input ends at I = LAST_LEN, when its bound covers the count (R151). -/
theorem tailLoop_exit {n : Nat} {st t : State} (h : tailLoop n st = .ok t)
    (hn : st.lastLen.toNat ≤ st.i.toNat + n) : ¬ t.i < t.lastLen := by
  induction n generalizing st with
  | zero =>
    cases h
    rw [BitVec.lt_def]
    omega
  | succ n ih =>
    simp only [tailLoop] at h
    split at h
    · rename_i hlt
      rw [BitVec.lt_def] at hlt
      split at h
      · cases h
      · rename_i s1 h1
        have e := tailByte_effect h1
        have hl : s1.lastLen = st.lastLen := by rw [eq_of_withoutWindow e.1]
        have hi : s1.i = st.i + 1#5 := e.2.2.2.2.2.1
        have h5 := st.lastLen.isLt
        apply ih h
        rw [hl, hi, BitVec.toNat_add]
        have : (st.i.toNat + (1#5).toNat) % 2 ^ 5 = st.i.toNat + 1 := by
          simp only [BitVec.toNat_ofNat]
          omega
        omega
    · rename_i hlt
      cases h
      exact hlt

/-- The slide changes nothing but the window, the tree, the search result and LAST_LEN (R150, R151). -/
theorem slideWindow_frame {st t : State} (h : st.slideWindow = .ok t) :
    withoutWindow t = { withoutWindow st with lastLen := st.matchLen } ∧ (TreesWf st → TreesWf t) := by
  simp only [State.slideWindow] at h
  split at h
  · cases h
  · rename_i s2 h2
    have k1 : withoutWindow s2 = { withoutWindow st with lastLen := st.matchLen } ∧ (TreesWf st → TreesWf s2) := by
      refine slideLoop_induct
        (fun s => withoutWindow s = { withoutWindow st with lastLen := st.matchLen } ∧ (TreesWf st → TreesWf s))
        ?_ ?_ h2
      · intro s c u hs _ _ hu
        have e := slideByte_effect hu
        exact ⟨e.1.trans hs.1, fun hw => e.2.2.2.2.2.2.2.2 (hs.2 hw)⟩
      · exact ⟨rfl, id⟩
    refine tailLoop_induct
      (fun s => withoutWindow s = { withoutWindow st with lastLen := st.matchLen } ∧ (TreesWf st → TreesWf s))
      ?_ k1 h
    intro s u hs _ hu
    have e := tailByte_effect hu
    exact ⟨e.1.trans hs.1, fun hw => e.2.2.2.2.2.2.2.2 (hs.2 hw)⟩

/-! Load and seeding -/

/-- The load changes RING, LEN and IP only (R142). -/
theorem loadLoop_frame (n : Nat) (st : State) :
    loadLoop n st =
      { st with len := (loadLoop n st).len, ip := (loadLoop n st).ip, ring := (loadLoop n st).ring } := by
  induction n generalizing st with
  | zero => rfl
  | succ n ih =>
    simp only [loadLoop]
    split
    · rfl
    · rename_i c s1 hb
      obtain ⟨-, rfl⟩ := State.inByte?_eq_some hb
      conv_lhs => rw [ih]
      rfl

/-- Seeding inserts nodes and changes nothing else (R144). -/
theorem seedLoop_frame {n k : Nat} {st t : State} (h : seedLoop n k st = .ok t) :
    withoutSearch t = withoutSearch st ∧ (st.matchLen.toNat ≤ 18 → t.matchLen.toNat ≤ 18) ∧
      (TreesWf st → TreesWf t) := by
  induction n generalizing k st with
  | zero => cases h; exact ⟨rfl, id, id⟩
  | succ n ih =>
    simp only [seedLoop] at h
    split at h
    · cases h
    · rename_i s1 h1
      obtain ⟨a1, a2, a3⟩ := insertNode_frame h1
      obtain ⟨b1, b2, b3⟩ := ih h
      exact ⟨b1.trans a1, fun _ => b2 a2, fun hw => b3 (a3 hw)⟩

/-- E_SEED changes the tree, the search result and SEQ only (R144). -/
theorem encoderSeed_frame {st t : State} (h : st.encoderSeed = .ok t) :
    withoutSearch t = { withoutSearch st with seq := .eIter } ∧ t.matchLen.toNat ≤ 18 ∧
      (TreesWf st → TreesWf t) := by
  simp only [State.encoderSeed] at h
  split at h
  · cases h
  · rename_i s1 h1
    split at h
    · cases h
    · rename_i s2 h2
      cases h
      obtain ⟨a1, -, a3⟩ := seedLoop_frame h1
      obtain ⟨b1, b2, b3⟩ := insertNode_frame h2
      refine ⟨?_, b2, fun hw => b3 (a3 hw)⟩
      have e : withoutSearch s2 = withoutSearch st := b1.trans a1
      calc withoutSearch { s2 with seq := Seq.eIter } = { withoutSearch s2 with seq := Seq.eIter } := rfl
        _ = { withoutSearch st with seq := Seq.eIter } := by rw [e]

/-! An iteration -/

/-- An iteration is a token emission, a mask advance and a slide (R141); this takes it apart. -/
theorem encoderIter_ok {st t : State} (h : st.encoderIter = .ok t) :
    ∃ s1 s2, st.clampMatch.chooseToken = .ok s1 ∧ s1.closeToken.slideWindow = .ok s2 ∧ t = s2.loopTest := by
  simp only [State.encoderIter] at h
  split at h
  · cases h
  · rename_i s1 h1
    split at h
    · cases h
    · rename_i s2 h2
      cases h
      exact ⟨s1, s2, h1, h2, rfl⟩

theorem loopTest_frame (st : State) : st.loopTest = { st with seq := st.loopTest.seq } := by
  unfold State.loopTest
  split <;> rfl

end Sys2Proof.Machine
end

