-- ==== Sys2Proof/Laws/PerInstr.lean ====
section
/-! SUPPORT. What holds of every instruction as syntax, one lemma per constructor. -/

/-- The words of an instruction are as long as the opcode table says: 1 byte for CTRL and LIT, 2 for MATCH (R86), none
for a host command, which is "not part of the bitstream" (R94). -/
def Sys2Proof.Laws.EncodedLength.Statement (i : Sys2Proof.Instr) : Prop :=
  (Sys2Proof.encode i).length = i.lengthBytes

namespace Sys2Proof.Laws.EncodedLength

theorem ctrl (c : Byte) : Statement (.ctrl c) := rfl
theorem lit (d : Byte) : Statement (.lit d) := rfl
theorem matchTok (pos : Pos) (len : Nat) : Statement (.matchTok pos len) := rfl
theorem cmdCompress (input : List Byte) : Statement (.cmdCompress input) := rfl
theorem cmdDecompress (input : List Byte) : Statement (.cmdDecompress input) := rfl

end Sys2Proof.Laws.EncodedLength
end

