-- ==== Sys2Proof/Laws/Step.lean ====
section
/-! SUPPORT. What a step is: the host's move or the sequencer's transition (spec/10_state.md R40, spec/43_host_interface.md
R220), and what a decoder cycle can do (spec/40_decompress.md R101, R105). -/

namespace Sys2Proof.Machine

theorem step_of_no_move {st : State} (h : st.host = []) : step st = blockStep st := by
  simp only [step, nextMove, h]

theorem step_of_move {st : State} {m : HostMove} {rest : List HostMove} (h : st.host = m :: rest) :
    step st = hostStep m { st with host := rest } := by
  simp only [step, nextMove, h]

@[simp] theorem andThen_next (st : State) (f : State → Host.Outcome State Fault Refusal) :
    andThen (.next st) f = f st := rfl

theorem stepMany_succ (n : Nat) (st : State) : stepMany (n + 1) st = andThen (step st) (stepMany n) := rfl

/-- Runs compose. -/
theorem stepMany_add (m n : Nat) (st : State) : stepMany (m + n) st = andThen (stepMany m st) (stepMany n) := by
  induction m generalizing st with
  | zero => simp [stepMany]
  | succ m ih =>
    rw [Nat.add_right_comm, stepMany_succ, stepMany_succ]
    cases step st with
    | next s => simp [ih]
    | fault r => rfl
    | refused r => rfl

/-- A finished block with no host move stays as it is (R312). -/
theorem stepMany_of_done {st : State} (hh : st.host = []) (hs : st.seq = .done) (n : Nat) :
    stepMany n st = .next st := by
  induction n with
  | zero => rfl
  | succ n ih =>
    rw [stepMany_succ, step_of_no_move hh]
    simp only [blockStep, hs, andThen_next, ih]

/-- What running one element of a kind can do: stop with everything left consumed, or run the element decoded. -/
theorem runElement_cases (k : Kind) (st : State) :
    (∃ e : DecodeError, e.consumed = st.unread.length ∧ st.unread.length ≤ 1 ∧
      runElement k st = .next ((st.advance e.consumed).stop)) ∨
    (∃ c, k = .control ∧ st.ip < st.input.length ∧ st.input[st.ip]? = some c ∧
      runElement k st = .next { st.advance 1 with flags := refillValue c }) ∨
    (∃ d, k = .literal ∧ st.ip < st.input.length ∧ st.input[st.ip]? = some d ∧
      runElement k st = .next ((st.advance 1).emitDecoded d)) ∨
    (∃ i j, k = .matched ∧ st.ip + 2 ≤ st.input.length ∧ st.input[st.ip]? = some i ∧
      st.input[st.ip + 1]? = some j ∧
      runElement k st = .next (copyMatch (matchPosOf i j) (matchLenOf j) 0 ((st.advance 1).advance 1))) := by
  have hlen := st.unread_length
  have hget : ∀ n, st.input[st.ip + n]? = st.unread[n]? := fun n => by simp [State.unread]
  rcases decode_cases k st.unread with ⟨e, hd, he, hl⟩ | ⟨c, rest, hk, hb, hd⟩ | ⟨d, rest, hk, hb, hd⟩ |
    ⟨i, j, rest, hk, hb, hd⟩
  · exact .inl ⟨e, he, hl, by simp only [runElement, hd, State.stopShort]⟩
  · have hav : st.ip < st.input.length := by rw [hb] at hlen; simp at hlen; omega
    refine .inr (.inl ⟨c, hk, hav, by simpa [hb] using hget 0, ?_⟩)
    simp only [runElement, hd, exec]
    exact execCtrl_of_avail c hav
  · have hav : st.ip < st.input.length := by rw [hb] at hlen; simp at hlen; omega
    refine .inr (.inr (.inl ⟨d, hk, hav, by simpa [hb] using hget 0, ?_⟩))
    simp only [runElement, hd, exec]
    exact execLit_of_avail d hav
  · have hav : st.ip + 2 ≤ st.input.length := by rw [hb] at hlen; simp at hlen; omega
    refine .inr (.inr (.inr ⟨i, j, hk, hav, by simpa [hb] using hget 0, by simpa [hb] using hget 1, ?_⟩))
    simp only [runElement, hd, exec]
    exact execMatch_of_avail _ _ hav

/-! The refill cadence -/

/-- The sentinel bit after k < 8 shifts of a refilled FLAGS: still 1 (R109). -/
theorem refillValue_sentinel (c : Byte) {k : Nat} (h : k < 8) : (refillValue c >>> k).getLsbD 8 = true := by
  have : k = 0 ∨ k = 1 ∨ k = 2 ∨ k = 3 ∨ k = 4 ∨ k = 5 ∨ k = 6 ∨ k = 7 := by omega
  rcases this with h | h | h | h | h | h | h | h <;> subst h <;> simp [refillValue]

/-- After eight shifts it is 0 (R109). -/
theorem refillValue_exhausted (c : Byte) : (refillValue c >>> 8).getLsbD 8 = false := by
  simp [refillValue]

/-- The kind bit after k < 8 shifts is c[k] (R109). -/
theorem refillValue_kind (c : Byte) {k : Nat} (h : k < 8) : (refillValue c >>> k).getLsbD 0 = c.getLsbD k := by
  have : k = 0 ∨ k = 1 ∨ k = 2 ∨ k = 3 ∨ k = 4 ∨ k = 5 ∨ k = 6 ∨ k = 7 := by omega
  rcases this with h | h | h | h | h | h | h | h <;> subst h <;> simp [refillValue]

/-- Running a literal or a match always answers a next state, keeps IN, FLAGS and the host's moves, and stays in the
cycle or stops. -/
theorem runElement_token {k : Kind} (hk : k ≠ .control) {st : State} :
    ∃ t, runElement k st = .next t ∧ t.flags = st.flags ∧ t.input = st.input ∧ t.host = st.host ∧
      (t.seq = st.seq ∨ t.seq = .done) := by
  rcases runElement_cases k st with ⟨e, -, -, h⟩ | ⟨c, h, -⟩ | ⟨d, -, -, -, h⟩ | ⟨i, j, -, -, -, -, h⟩
  · exact ⟨_, h, rfl, rfl, rfl, .inr rfl⟩
  · exact absurd h hk
  · exact ⟨_, h, rfl, rfl, rfl, .inl rfl⟩
  · refine ⟨_, h, ?_⟩
    rw [copyMatch_frame]
    exact ⟨rfl, rfl, rfl, .inl rfl⟩

/-- A cycle that needs a refill and finds a control byte c (R101, R102). -/
theorem decoderCycle_of_refill {st : State} {c : Byte} (hs : st.seq = .dCycle) (hn : st.shiftFlags.needsRefill = true)
    (hc : st.input[st.ip]? = some c) :
    decoderCycle st = runElement (if c.getLsbD 0 then .matched else .literal)
      { st with flags := refillValue c, ip := st.ip + 1 } := by
  obtain ⟨hlt, hget⟩ := List.getElem?_eq_some_iff.mp hc
  have hd : decode .control st.shiftFlags.unread = .ok (.ctrl c, st.input.drop (st.ip + 1)) := by
    show decode .control (st.input.drop st.ip) = _
    rw [List.drop_eq_getElem_cons hlt, hget]; rfl
  have he : runElement .control st.shiftFlags = .next { st with flags := refillValue c, ip := st.ip + 1 } := by
    simp only [runElement, hd, exec]
    exact execCtrl_of_avail c hlt
  simp only [decoderCycle, if_pos hn, he, andThen_next]
  have hk : ({ st with flags := refillValue c, ip := st.ip + 1 } : State).tokenKind =
      (if c.getLsbD 0 then .matched else .literal) := by
    simp only [State.tokenKind]
    rw [show (refillValue c).getLsbD 0 = c.getLsbD 0 from by simpa using refillValue_kind c (k := 0) (by omega)]
  rw [afterRefill, if_neg (by simp [hs]), runToken, hk]

/-- A cycle whose sentinel is not exhausted (R101). -/
theorem decoderCycle_of_no_refill {st : State} (hn : st.shiftFlags.needsRefill = false) :
    decoderCycle st = runElement st.shiftFlags.tokenKind st.shiftFlags := by
  simp [decoderCycle, hn, runToken]

end Sys2Proof.Machine
end

