-- ==== Sys2Proof/Laws/Slide.lean ====
section
/-! SUPPORT. The two loops of the slide are one loop over slideTurn (spec/41_compress.md R150, R151). -/

namespace Sys2Proof.Machine

/-- Where an input byte remains, a position of the slide is a turn of R150. -/
theorem slideTurn_of_input {st : State} {c : Byte} (h : st.input[st.ip]? = some c) :
    slideTurn st = slideByte c (st.advance 1) := by
  unfold slideTurn slideByte
  rw [h]
  have hs : (st.advance 1).s = st.s := rfl
  rw [hs, show ({ st with ip := st.ip + 1 } : State) = st.advance 1 from rfl]
  cases deleteNode st.s (st.advance 1) with
  | error f => rfl
  | ok s =>
    have e : (s.mirrorWrite c).advanceWindow =
        (let s2 := s.ringWrite s.s.toNat c
         let s3 := if s.s.toNat < 17 then s2.ringWrite (s.s.toNat + 4096) c else s2
         { s3 with s := s3.s + 1#12, r := s3.r + 1#12 }) := by
      by_cases h : s.s.toNat < 17 <;>
        simp [State.mirrorWrite, mirroredRing, State.advanceWindow, State.ringWrite, Config.windowSize,
          Config.mirrorCells, h]
    show _ = (match insertNode (s.mirrorWrite c).advanceWindow.r (s.mirrorWrite c).advanceWindow with
      | .error f => Except.error f
      | .ok t => .ok { t with i := t.i + 1#5 })
    rw [e]
    show (insertNode _ _ >>= _) = _
    generalize insertNode _ _ = x
    cases x <;> rfl

/-- Where none does, it is a turn of R151. -/
theorem slideTurn_of_end {st : State} (h : st.input[st.ip]? = none) : slideTurn st = tailByte st := by
  unfold slideTurn tailByte
  rw [h]
  simp only []
  cases deleteNode st.s { st with i := st.i + 1#5 } <;> rfl

/-- I counts one turn: it stays below LAST_LEN's 5 bits. -/
theorem slide_count {i lastLen : BitVec 5} {n : Nat} (h : lastLen.toNat = i.toNat + (n + 1)) :
    i < lastLen ∧ lastLen.toNat = (i + 1#5).toNat + n := by
  have := lastLen.isLt
  rw [BitVec.lt_def, BitVec.toNat_add]
  have e : (i.toNat + (1#5).toNat) % 2 ^ 5 = i.toNat + 1 := by simp only [BitVec.toNat_ofNat]; omega
  omega

/-- The loop of R151 is as many turns as I has left to LAST_LEN. -/
theorem tailLoop_eq_fold (l : List Nat) : ∀ (n : Nat) (st : State), l.length ≤ n →
    st.lastLen.toNat = st.i.toNat + l.length → st.input[st.ip]? = none →
    tailLoop n st = l.foldlM (fun s _ => slideTurn s) st := by
  induction l with
  | nil =>
    intro n st _ hl _
    have : ¬ st.i < st.lastLen := by rw [BitVec.lt_def]; simp at hl; omega
    cases n <;> simp [tailLoop, this] <;> rfl
  | cons a l ih =>
    intro n st hn hl hin
    cases n with
    | zero => simp at hn
    | succ n =>
      obtain ⟨hlt, hc⟩ := slide_count hl
      rw [List.foldlM_cons, slideTurn_of_end hin]
      simp only [tailLoop, if_pos hlt]
      cases h1 : tailByte st with
      | error f => rfl
      | ok s1 =>
        have e := tailByte_effect h1
        have e1 := eq_of_withoutWindow e.1
        have hi : s1.i = st.i + 1#5 := e.2.2.2.2.2.1
        exact ih n s1 (by simpa using hn) (by rw [hi, e1]; exact hc) (by rw [e.2.2.2.1, e1]; exact hin)

/-- Both loops together are as many turns as I has left to LAST_LEN (R150, R151). -/
theorem slideLoops_eq_fold (l : List Nat) : ∀ (n : Nat) (st : State), l.length ≤ n →
    st.lastLen.toNat = st.i.toNat + l.length →
    (slideLoop n st >>= fun s => tailLoop s.lastLen.toNat s) = l.foldlM (fun s _ => slideTurn s) st := by
  induction l with
  | nil =>
    intro n st _ hl
    have hn : ¬ st.i < st.lastLen := by rw [BitVec.lt_def]; simp at hl; omega
    have h1 : slideLoop n st = .ok st := by cases n <;> simp [slideLoop, hn]
    have h2 : ∀ m, tailLoop m st = .ok st := by intro m; cases m <;> simp [tailLoop, hn]
    rw [h1]
    exact h2 _
  | cons a l ih =>
    intro n st hn hl
    cases n with
    | zero => simp at hn
    | succ n =>
      obtain ⟨hlt, hc⟩ := slide_count hl
      cases hin : st.input[st.ip]? with
      | none =>
        have hb : st.inByte? = none := by simp only [State.inByte?, hin]
        have h1 : slideLoop (n + 1) st = .ok st := by simp only [slideLoop, if_pos hlt, hb]
        rw [h1]
        exact tailLoop_eq_fold (a :: l) _ st (by omega) hl hin
      | some c =>
        have hb : st.inByte? = some (c, st.advance 1) := by simp only [State.inByte?, hin]
        rw [List.foldlM_cons, slideTurn_of_input hin]
        simp only [slideLoop, if_pos hlt, hb]
        cases h1 : slideByte c (st.advance 1) with
        | error f => rfl
        | ok s1 =>
          have e := slideByte_effect h1
          have e1 := eq_of_withoutWindow e.1
          have hi : s1.i = st.i + 1#5 := e.2.2.2.2.2.1
          exact ih n s1 (by simpa using hn) (by rw [hi, e1]; exact hc)

/-- The slide is MATCH_LEN turns, with LAST_LEN = MATCH_LEN and I counted from 0 (R150, R151). -/
theorem slideWindow_eq_fold (st : State) :
    st.slideWindow = (List.range st.matchLen.toNat).foldlM (fun s _ => slideTurn s)
      { st with lastLen := st.matchLen, i := 0#5 } := by
  rw [← slideLoops_eq_fold (List.range st.matchLen.toNat) st.matchLen.toNat _ (by simp) (by simp)]
  simp only [State.slideWindow]
  cases slideLoop st.matchLen.toNat { st with lastLen := st.matchLen, i := 0#5 } <;> rfl

end Sys2Proof.Machine
end

