-- ==== Sys2Proof/Tests/Slice0.lean ====
section
/-! SUPPORT. The model's own tests, with expected values from spec/95_test_vectors.md and the rules' own examples, and
for every statement with hypotheses a concrete state that meets them. -/

namespace Sys2Proof.Tests

open Sys2Proof.Machine

/-! ## Helpers: small states -/

/-- The next state, if there is one. -/
def next? (x : Host.Outcome State Fault Refusal) : Option State :=
  match x with
  | .next s => some s
  | .fault _ => none
  | .refused _ => none

/-- The state a procedure of the match finder gives, if it gives one. -/
def ok? (x : Except Fault State) : Option State :=
  match x with
  | .ok s => some s
  | .error _ => none

theorem exists_next {x : Host.Outcome State Fault Refusal} (h : (next? x).isSome = true) : ∃ t, x = .next t := by
  cases x with
  | next s => exact ⟨s, rfl⟩
  | fault r => cases h
  | refused r => cases h

/-- The decoder at a token cycle of a call with nothing read yet (R401). -/
def decoding (input : List Byte) (flags : BitVec 16) : State :=
  { State.reset with status := .busy, seq := .dCycle, op := 1#1, input := input, flags := flags, r := 0xFEE#12 }

/-- The encoder in the given sequencer state, at its call-start values (R402). -/
def encodingAt (seq : Seq) (input : List Byte) : State :=
  { State.reset with status := .busy, seq := seq, input := input, r := 0xFEE#12, mask := 1#8, codePtr := 1#5 }

/-- The encoder of EV2 (IN = 41) after its load. -/
def loaded : State :=
  { encodingAt .eSeed [0x41#8] with ip := 1, len := 1#5, ring := [(4078, 0x41#8)] }

/-- The encoder of EV2 before its only token, with an empty tree: a literal follows. -/
def beforeLiteral : State := { loaded with seq := .eIter }

/-- The encoder of EV4 (IN = 20 20 20) before its only token, with the one node 4077 in the tree: a match follows. -/
def beforeMatch : State :=
  { encodingAt .eIter [0x20#8, 0x20#8, 0x20#8] with
    ip := 3, len := 3#5, matchPos := 0xFED#12, matchLen := 3#5,
    ring := [(4078, 0x20#8), (4079, 0x20#8), (4080, 0x20#8)],
    rson := [(4129, nodeIdx 4077#12)], dad := [(4077, rootIdx 0x20#8)] }

/-- The encoder of EV2 before its final flush. -/
def beforeFlush : State :=
  { encodingAt .eFlush [0x41#8] with
    ip := 1, r := 0xFEF#12, s := 1#12, mask := 2#8, codePtr := 2#5, ring := [(4078, 0x41#8)],
    codeBuf := State.reset.codeBuf.set 1 0x41#8 }

/-- The tree of vector TV1 under ROOT(4D): 100(L=200, R=300); 200(L=400, R=500); 500(L=600). -/
def tv1 : State :=
  { encodingAt .eIter [] with
    ring := [(100, 0x4D#8), (101, 0x4D#8), (200, 0x4D#8), (201, 0x46#8), (300, 0x4D#8), (301, 0x54#8),
      (400, 0x4D#8), (401, 0x44#8), (500, 0x4D#8), (501, 0x48#8), (600, 0x4D#8), (601, 0x47#8),
      (700, 0x4D#8), (701, 0x46#8), (800, 0x4D#8), (801, 0x47#8), (802, 0x01#8)],
    lson := [(100, nodeIdx 200#12), (200, nodeIdx 400#12), (500, nodeIdx 600#12)],
    rson := [(100, nodeIdx 300#12), (200, nodeIdx 500#12), (4174, nodeIdx 100#12)],
    dad := [(100, rootIdx 0x4D#8), (200, nodeIdx 100#12), (300, nodeIdx 100#12), (400, nodeIdx 200#12),
      (500, nodeIdx 200#12), (600, nodeIdx 500#12)] }

/-! ## Well-formedness -/

theorem test_match_of_length_2_is_ill_formed : (Instr.matchTok 0xFEE#12 2).wf = false := by decide
theorem test_match_of_length_19_is_ill_formed : (Instr.matchTok 0xFEE#12 19).wf = false := by decide
theorem test_match_of_length_3_and_18_is_well_formed :
    (Instr.matchTok 0xFEE#12 3).wf = true ∧ (Instr.matchTok 0xFEE#12 18).wf = true := by decide

/-! ## Decoding: words written out from R81, R82, R83 and R94 -/

/-- The control byte 0b00001010 of DV13: tokens 1 and 3 are matches. -/
theorem test_decode_ctrl : decode .control [0b00001010#8] = .ok (.ctrl 0x0A#8, []) := rfl
/-- DV3's literal. -/
theorem test_decode_lit : decode .literal [0b01000001#8, 0x42#8] = .ok (.lit 0x41#8, [0x42#8]) := rfl
/-- S1: i = 0xED and j = 0xF0 give pos = 0xFED, len = 3; B1 is 1111 for pos[11:8] and 0000 for lcode. -/
theorem test_decode_match : decode .matched [0b11101101#8, 0b11110000#8] = .ok (.matchTok 0xFED#12 3, []) := rfl
/-- R94: OP = 0 is COMPRESS. -/
theorem test_decode_cmd_compress : decodeCommand 0#1 [0x41#8] = .cmdCompress [0x41#8] := rfl
/-- R94: OP = 1 is DECOMPRESS. -/
theorem test_decode_cmd_decompress : decodeCommand 1#1 [0x41#8] = .cmdDecompress [0x41#8] := rfl
/-- S3: MATCH 0xFEE, 18 is EE FF and MATCH 0x011, 4 is 11 01. -/
theorem test_encode_match :
    encode (.matchTok 0xFEE#12 18) = [0xEE#8, 0xFF#8] ∧ encode (.matchTok 0x011#12 4) = [0x11#8, 0x01#8] := by decide
/-- R93: GROUP of LIT 0x41 and MATCH 0xFEE, 18 assembles to 02 41 EE FF. -/
theorem test_encode_group :
    encodeGroup [.lit 0x41#8, .matchTok 0xFEE#12 18] = [0x02#8, 0x41#8, 0xEE#8, 0xFF#8] := by decide
/-- The table's words: OP, one byte, two bytes with B0 in bits 7..0. -/
theorem test_table_words :
    decodeTableWord 1 0 = some (.cmdCompress []) ∧ decodeTableWord 1 1 = some (.cmdDecompress []) ∧
    decodeTableWord 8 0x0A = some (.ctrl 0x0A#8) ∧ decodeTableWord 16 0xF0ED = some (.matchTok 0xFED#12 3) := by decide

/-! ## One step of each instruction -/

/-- DV13, cycle 1: the refill gives FLAGS = FF0A. -/
theorem test_ctrl_refills :
    (next? (exec (.ctrl 0x0A#8) (decoding [0x0A#8, 0x41#8] 0#16))).map (fun t => (t.flags, t.ip, t.seq)) =
      some (0xFF0A#16, 1, .dCycle) := by decide
/-- DV1: the empty stream stops at the first refill. -/
theorem test_ctrl_stops_at_end :
    (next? (exec (.ctrl 0x00#8) (decoding [] 0#16))).map (fun t => (t.flags, t.status, t.seq)) =
      some (0#16, .done, .done) := by decide
/-- P1, cycle 2: LIT 0x49 -> RING[FEF], and R moves on. -/
theorem test_lit_emits :
    (next? (exec (.lit 0x49#8) { decoding [0x49#8] 0x7F82#16 with r := 0xFEF#12 })).map
      (fun t => (t.out, t.r, t.ip, t.ringRead 0xFEF)) = some ([0x49#8], 0xFF0#12, 1, 0x49#8) := by decide
/-- R103: R wraps from 0xFFF to 0x000. -/
theorem test_lit_wraps_the_cursor :
    (next? (exec (.lit 0x41#8) { decoding [0x41#8] 0#16 with r := 0xFFF#12 })).map (fun t => (t.r, t.ringRead 4095)) =
      some (0x000#12, 0x41#8) := by decide
/-- DV15: a serial copy gives 18 bytes of 0x20, R = 000. -/
theorem test_match_copies_serially :
    (next? (exec (.matchTok 0xFED#12 18) { decoding [0x01#8, 0xED#8, 0xFF#8] 0xFF01#16 with ip := 1 })).map
      (fun t => (t.out, t.r, t.ip)) = some (List.replicate 18 0x20#8, 0x000#12, 3) := by decide
/-- DV8: the source wraps 0xFFF -> 0x000: two fill bytes, then two primed spaces. -/
theorem test_match_source_wraps :
    (next? (exec (.matchTok 0xFFE#12 4) { decoding [0x01#8, 0xFE#8, 0xF1#8] 0xFF01#16 with ip := 1 })).map
      (fun t => (t.out, t.r)) = some ([0x00#8, 0x00#8, 0x20#8, 0x20#8], 0xFF2#12) := by decide
/-- R221: COMPRESS latches OP = 0 and goes to E_INIT. -/
theorem test_cmd_compress_starts :
    (next? (exec (.cmdCompress [0x41#8]) State.reset)).map (fun t => (t.op, t.input, t.status, t.seq)) =
      some (0#1, [0x41#8], .busy, .eInit) := by decide
/-- R221: DECOMPRESS latches OP = 1 and goes to D_INIT. -/
theorem test_cmd_decompress_starts :
    (next? (exec (.cmdDecompress [0x00#8]) State.reset)).map (fun t => (t.op, t.input, t.status, t.seq)) =
      some (1#1, [0x00#8], .busy, .dInit) := by decide

/-! ## The decoder's cycle and the port -/

/-- DV13, cycle 2: FLAGS FF0A shifts to 7F85, and MATCH 0xFEE, 3 runs. -/
theorem test_cycle_runs_the_match :
    (next? (step { decoding [0x0A#8, 0x41#8, 0xEE#8, 0xF0#8] 0xFF0A#16 with
      ip := 2, r := 0xFEF#12, ring := [(4078, 0x41#8)] })).map (fun t => (t.out, t.flags, t.ip)) =
      some ([0x41#8, 0x41#8, 0x41#8], 0x7F85#16, 4) := by decide
/-- DV9: a match cut after its first byte: consumed, nothing emitted. -/
theorem test_cycle_stops_inside_a_match :
    (next? (step (decoding [0x01#8, 0xED#8] 0#16))).map (fun t => (t.out, t.flags, t.ip, t.status)) =
      some ([], 0xFF01#16, 2, .done) := by decide
/-- R221: the command word's OP bit selects the call that starts. -/
theorem test_fetch_of_a_command_word :
    (next? (step (State.reset.withFetchWord 1 0))).map State.seq = some .eInit ∧
    (next? (step (State.reset.withFetchWord 1 1))).map State.seq = some .dInit := by decide
/-- DV2's refill, and a MATCH 0x010, 3 from primed cells (R35). -/
theorem test_fetch_of_a_stream_word :
    (next? (step (State.reset.withFetchWord 8 0x00))).map (fun t => (t.flags, t.ip)) = some (0xFF00#16, 1) ∧
    (next? (step (State.reset.withFetchWord 16 0x0010))).map (fun t => (t.out, t.ip)) =
      some ([0x20#8, 0x20#8, 0x20#8], 2) := by decide

/-! ## The encoder's pieces -/

/-- EV6: MATCH 0xFEE, 3 as second token of its group gives 02 in the control byte, then EE F0. -/
theorem test_match_emission :
    (ok? (emitMatch { beforeLiteral with mask := 2#8, codePtr := 2#5, matchPos := 0xFEE#12, matchLen := 3#5 })).map
      (fun t => (t.codeBuf[0], t.codeBuf[2], t.codeBuf[3], t.codePtr)) =
      some (0x02#8, 0xEE#8, 0xF0#8, 4#5) := by decide
/-- EV2: the final flush emits 00 41. -/
theorem test_final_flush :
    (next? (step beforeFlush)).map (fun t => (t.out, t.status)) = some ([0x00#8, 0x41#8], .done) := by decide
/-- EV4's iteration: MATCH 0xFED, 3 from a state whose search found 0xFED; R = FF1, S = 003, LEN = 0. -/
theorem test_iteration_emits_the_match :
    (next? (step beforeMatch)).map (fun t => (t.codeBuf[0], t.codeBuf[1], t.codeBuf[2])) =
      some (0x01#8, 0xED#8, 0xF0#8) ∧
    (next? (step beforeMatch)).map (fun t => (t.r, t.s, t.len, t.mask, t.codePtr, t.seq)) =
      some (0xFF1#12, 3#12, 0#5, 2#8, 3#5, .eFlush) := by decide +kernel
/-- TV9: the seeding of IN = 41 leaves RSON[ROOT(20)] = 4077 and a left chain down to 4060, and 4078 under ROOT(41). -/
theorem test_seeding :
    (ok? loaded.encoderSeed).map (fun t => (t.rsonAt (rootIdx 0x20#8), t.lsonAt (nodeIdx 4077#12),
      t.lsonAt (nodeIdx 4061#12), t.rsonAt (rootIdx 0x41#8), t.matchLen)) =
      some (nodeIdx 4077#12, nodeIdx 4076#12, nodeIdx 4060#12, nodeIdx 4078#12, 0#5) := by decide +kernel
/-- TV7: 700 takes the place of 200, whose key is equal. -/
theorem test_insert_replaces_an_equal_key :
    (ok? (insertNode 700#12 tv1)).map (fun t => (t.matchLen, t.matchPos, t.lsonAt (nodeIdx 100#12),
      t.lsonAt (nodeIdx 700#12), t.rsonAt (nodeIdx 700#12), t.dadAt (nodeIdx 200#12))) =
      some (18#5, 200#12, nodeIdx 700#12, nodeIdx 400#12, nodeIdx 500#12, nilIdx) := by decide +kernel
/-- TV8: 800 is a leaf, left of 600. -/
theorem test_insert_attaches_left :
    (ok? (insertNode 800#12 tv1)).map (fun t => (t.matchLen, t.matchPos, t.lsonAt (nodeIdx 600#12))) =
      some (2#5, 600#12, nodeIdx 800#12) := by decide +kernel
/-- TV3: deleting 100 promotes its predecessor 500. -/
theorem test_delete_promotes_the_predecessor :
    (ok? (deleteNode 100#12 tv1)).map (fun t => (t.rsonAt (rootIdx 0x4D#8), t.lsonAt (nodeIdx 500#12),
      t.rsonAt (nodeIdx 500#12), t.rsonAt (nodeIdx 200#12), t.dadAt (nodeIdx 600#12))) =
      some (nodeIdx 500#12, nodeIdx 200#12, nodeIdx 300#12, nodeIdx 600#12, nodeIdx 200#12) := by decide +kernel
/-- TV2: deleting 200 promotes its left child 400. -/
theorem test_delete_promotes_the_left_child :
    (ok? (deleteNode 200#12 tv1)).map (fun t => (t.lsonAt (nodeIdx 100#12), t.lsonAt (nodeIdx 400#12),
      t.rsonAt (nodeIdx 400#12))) = some (nodeIdx 400#12, nilIdx, nodeIdx 500#12) := by decide +kernel

/-! ## The host's use of the block -/

/-- HV1: 20 x 41 compresses to 5 bytes and is stored with the 6-byte header. -/
theorem test_stored_compressed :
    storedEntry true (List.replicate 20 0x41#8) [0x02#8, 0x41#8, 0xEE#8, 0xFF#8, 0x41#8] =
      [0x01#8, 0x00#8, 0x14#8, 0x00#8, 0x00#8, 0x00#8, 0x02#8, 0x41#8, 0xEE#8, 0xFF#8, 0x41#8] := by decide
/-- HV3: a file of 4 bytes is stored raw. -/
theorem test_stored_raw :
    storedEntry true [0x41#8, 0x41#8, 0x41#8, 0x41#8] [] =
      [0x00#8, 0x00#8, 0x00#8, 0x00#8, 0x41#8, 0x41#8, 0x41#8, 0x41#8] := by decide

/-! ## Witnesses: concrete states that meet the hypotheses of the statements, clause by clause -/

/-- A block with MAX_INPUT_LEN = 3 and another fill, idle. -/
def small : State := { State.reset with params := { unprimedFill := 0x20#8, maxInputLen := 3 } }

/-- A finished block that has an operation's remains in it. -/
def finished : State := { tv1 with status := .done, seq := .done, out := [0x41#8], flags := 0x1FE0#16 }

theorem callEnds_of {st : State} {op : BitVec 1} {b : List Byte} (n : Nat)
    (h : (next? (andThen (exec (decodeCommand op b) st) (stepMany n))).map State.status = some .done) :
    ∃ t, CallEnds st op b t := by
  cases h1 : exec (decodeCommand op b) st with
  | fault r => rw [h1] at h; cases h
  | refused r => rw [h1] at h; cases h
  | next s =>
    rw [h1] at h
    cases h2 : stepMany n s with
    | fault r => simp [andThen, h2, next?] at h
    | refused r => simp [andThen, h2, next?] at h
    | next t => exact ⟨t, s, n, h1, h2, by simpa [andThen, h2, next?] using h⟩

/-- DecodeInvertsEncode, at the ends of the length's range. -/
theorem witness_round_trip :
    (3 ≤ 3 ∧ 3 ≤ 18) ∧ (3 ≤ 18 ∧ 18 ≤ 18) ∧
    (Instr.matchTok 0xFFF#12 18).wf = true ∧ (Instr.matchTok 0xFFF#12 18).kind? = some .matched ∧
    encodeCommand (.cmdCompress []) = some (0#1, []) := by decide

/-- CompressCommandStartsCall, DecompressCommandStartsCall, CanStart: an input of exactly MAX_INPUT_LEN, idle and done. -/
theorem witness_can_start :
    CanStart small [0x41#8, 0x42#8, 0x43#8] ∧ CanStart finished [0x41#8] := by
  exact ⟨⟨rfl, by decide, by decide⟩, ⟨rfl, by decide, by decide⟩⟩

/-- StartIsRefusedWhenBusyOrTooLong: busy; and one byte more than MAX_INPUT_LEN. -/
theorem witness_start_refused :
    beforeFlush.status = .busy ∧ small.status ≠ .busy ∧
    small.params.maxInputLen < [0x41#8, 0x42#8, 0x43#8, 0x44#8].length := by decide

/-- PortRunsTheCommand, ReadStatusHasNoSideEffect, ReadOutOnlyWhenDone, BlockResetGivesIdle: each move, each status. -/
theorem witness_host_moves :
    { State.reset with host := [.start 0#1 [0x41#8]] }.host = .start 0#1 [0x41#8] :: [] ∧
    { State.reset with host := [.start 1#1 [], .pass] }.host = .start 1#1 [] :: [.pass] ∧
    (∀ st ∈ [State.reset, beforeFlush, finished], { st with host := [.readStatus] }.host = .readStatus :: []) ∧
    State.reset.status = .idle ∧ beforeFlush.status = .busy ∧ finished.status = .done ∧
    (∀ st ∈ [beforeFlush, finished], { st with host := [.readOut] }.host = .readOut :: []) ∧
    { beforeFlush with host := [.blockReset] }.host = .blockReset :: [] ∧
    [0x41#8, 0x42#8, 0x43#8].length ≤ small.params.maxInputLen := by decide

/-- WaitingBlockTakesNoStep. -/
theorem witness_waiting :
    State.reset.seq = .idle ∧ State.reset.host = [] ∧ finished.seq = .done ∧
    { finished with host := [.pass] }.host = .pass :: [] := by decide

/-- PassLetsTheSequencerStep: every phase gives a next state with no move waiting, and one state (CODE_PTR past
CODE_BUF, which no call reaches) a fault. -/
theorem witness_pass :
    (∀ st ∈ [State.reset, { decoding [] 0#16 with seq := .dInit }, decoding [0x00#8, 0x41#8] 0#16,
      encodingAt .eInit [0x41#8], encodingAt .eLoad [0x41#8], loaded, beforeMatch, beforeFlush, finished],
      { st with host := [.pass, .readStatus] }.host = .pass :: [.readStatus] ∧
      (next? (step { st with host := [] })).isSome = true) ∧
    step { beforeLiteral with host := [], codePtr := 17#5 } = .fault .codeBufFull :=
  ⟨by decide +kernel, rfl⟩

/-- OutputStaysUntilNextCall: a START, a reset, a read and no move at all. -/
theorem witness_output_stays :
    ∀ m ∈ [[], [.start 0#1 [0x41#8]], [.blockReset], [.readOut], [HostMove.pass]],
      { finished with host := m }.wf = true ∧ { finished with host := m }.status = .done ∧
      (next? (step { finished with host := m })).isSome = true := by decide +kernel

/-- CycleRunsTheDecodedElements, the clauses of a cycle without refill. -/
theorem witness_cycle_without_refill :
    (∀ st ∈ [decoding [0x41#8] 0xFF00#16, decoding [0xED#8, 0xF0#8] 0xFF02#16, decoding [] 0xFF00#16,
      decoding [0xED#8] 0xFF02#16], st.host = [] ∧ st.seq = .dCycle ∧ (st.flags >>> 1).getLsbD 8 = true) ∧
    decode .literal ([0x41#8].drop 0) = .ok (.lit 0x41#8, []) ∧
    decode .matched ([0xED#8, 0xF0#8].drop 0) = .ok (.matchTok 0xFED#12 3, []) ∧
    decode .literal (([] : List Byte).drop 0) = .error .endBeforeLiteral ∧
    decode .matched ([0xED#8].drop 0) = .error .endInsideMatch :=
  ⟨by decide, rfl, rfl, rfl, rfl⟩

/-- CycleRunsTheDecodedElements, the clauses of a cycle with a refill: no byte, a token, and an end in the token. -/
theorem witness_cycle_with_refill :
    (∀ st ∈ [decoding [] 0#16, decoding [0x01#8, 0xED#8, 0xF0#8] 0#16, decoding [0x01#8, 0xED#8] 0#16],
      st.host = [] ∧ st.seq = .dCycle ∧ (st.flags >>> 1).getLsbD 8 = false) ∧
    decode .control [] = .error .endBeforeControl ∧
    decode .control [0x01#8, 0xED#8, 0xF0#8] = .ok (.ctrl 0x01#8, [0xED#8, 0xF0#8]) ∧
    (next? (exec (.ctrl 0x01#8) (decoding [0x01#8, 0xED#8, 0xF0#8] 0#16))).map
      (fun s2 => (s2.flags.getLsbD 0, s2.input.drop s2.ip)) = some (true, [0xED#8, 0xF0#8]) ∧
    decode .matched [0xED#8, 0xF0#8] = .ok (.matchTok 0xFED#12 3, []) ∧
    decode .matched [0xED#8] = .error .endInsideMatch :=
  ⟨by decide, rfl, rfl, by decide, rfl, rfl⟩

/-- SequencerTransitions, SequencerStopsOnlyInTreePhases, SequencerStepFrame: every phase, with both outcomes where it
has two, takes a step. -/
theorem witness_every_phase_steps :
    ∀ st ∈ [State.reset, { decoding [] 0#16 with seq := .dInit }, decoding [] 0#16, decoding [0x00#8, 0x41#8] 0#16,
      encodingAt .eInit [0x41#8], encodingAt .eLoad [], encodingAt .eLoad [0x41#8], loaded, beforeLiteral, beforeMatch,
      { beforeMatch with matchLen := 0#5 }, beforeFlush, finished],
      st.host = [] ∧ (next? (step st)).isSome = true := by decide +kernel

/-- DecompressLeavesEncoderStateAlone: both phases of the decoder, and a cell above 4095. -/
theorem witness_decoder_phases :
    ∀ st ∈ [{ decoding [0x00#8, 0x41#8] 0#16 with seq := .dInit }, decoding [0x00#8, 0x41#8] 0#16],
      st.host = [] ∧ (st.seq = .dInit ∨ st.seq = .dCycle) ∧ (next? (step st)).isSome = true ∧ 4096 ≤ 4096 := by
  decide +kernel

/-- CompressFrame: an iteration that reads one more input byte; cell 1 is not written. -/
def slidingOnce : State :=
  { encodingAt .eIter (List.replicate 19 0x20#8) with
    ip := 18, len := 18#5, ring := (List.range 18).map (fun k => (4078 + k, 0x20#8)) }

theorem witness_compress_frame :
    slidingOnce.host = [] ∧ slidingOnce.opMatchesSeq = true ∧ slidingOnce.op = 0#1 ∧ slidingOnce.seq = .eIter ∧
    (next? (step slidingOnce)).map (fun t => (t.ip, t.s)) = some (19, 1#12) ∧
    1 ≠ (slidingOnce.s + BitVec.ofNat 12 0).toNat ∧ 1 ≠ (slidingOnce.s + BitVec.ofNat 12 0).toNat + 4096 := by
  decide +kernel

/-- StepKeepsStateWellFormed: a decoder cycle, an encoder iteration, a START. -/
theorem witness_wf_steps :
    ∀ st ∈ [decoding [0x00#8, 0x41#8] 0#16, beforeMatch, { finished with host := [.start 1#1 []] }],
      st.wf = true ∧ (next? (step st)).isSome = true := by decide +kernel

/-! The encoder's invariant -/

theorem groupOpen_of_empty {st : State} (hm : st.mask = 1#8) (hp : st.codePtr = 1#5) (hc : st.codeBuf[0] = 0#8) :
    st.GroupOpen :=
  ⟨0, by decide, by rw [hm]; rfl, by rw [hp]; rfl, fun n _ => by rw [hc]; simp⟩

theorem witness_encoderInv_load : (encodingAt .eLoad [0x41#8]).EncoderInv :=
  ⟨rfl, rfl, rfl, rfl, rfl, rfl, rfl, rfl, rfl, rfl, rfl, rfl, rfl, rfl⟩

theorem witness_encoderInv_seed : loaded.EncoderInv :=
  ⟨by decide, by decide, groupOpen_of_empty rfl rfl rfl, by unfold State.MirrorCoherent; decide,
    by unfold State.Lookahead; decide, by decide⟩

theorem witness_encoderInv_literal : beforeLiteral.EncoderInv :=
  ⟨by decide, by decide, groupOpen_of_empty rfl rfl rfl, by unfold State.MirrorCoherent; decide,
    by unfold State.Lookahead; decide, by decide⟩

theorem witness_encoderInv_match : beforeMatch.EncoderInv :=
  ⟨by decide, by decide, groupOpen_of_empty rfl rfl rfl, by unfold State.MirrorCoherent; decide,
    by unfold State.Lookahead; decide, by decide⟩

theorem beforeFlush_control : beforeFlush.codeBuf[0] = 0#8 := by decide

theorem witness_encoderInv_flush : beforeFlush.EncoderInv :=
  ⟨by decide, by decide, ⟨1, by decide, by decide, by decide, fun n _ => by
    rw [beforeFlush_control]; simp⟩, by unfold State.MirrorCoherent; decide, by unfold State.Lookahead; decide, by decide⟩

/-- One tree under one root, every other root empty. -/
def oneTree (c : Byte) (t : TreeShape) (d : Byte) : TreeShape := if d = c then t else .leaf

/-- A tree cell that is not NIL is listed. -/
theorem listed_of_ne_nil {m : Cells TreeIdx} {a : Nat} (h : Cells.read treeDefault m a ≠ nilIdx) :
    a ∈ m.map Prod.fst := by
  induction m with
  | nil => exact absurd rfl h
  | cons e rest ih =>
    by_cases hp : a = e.1
    · simp [hp]
    · refine List.mem_cons_of_mem _ (ih ?_)
      simpa [Cells.read, hp] using h

/-- A position in a tree has an entry in DAD. -/
theorem dad_listed {st : State} {p : Pos} (h : st.dadAt (nodeIdx p) ≠ nilIdx) : p.toNat ∈ st.dad.map Prod.fst :=
  listed_of_ne_nil h

/-- The search-tree invariant of a state with one tree, from facts that can be evaluated. -/
theorem treeInv_of_oneTree {st : State} (c : Byte) (t : TreeShape) (hold : st.Holds (rootIdx c) (st.rsonAt (rootIdx c)) t)
    (roots : ∀ a ∈ st.rson.map Prod.fst, 4097 ≤ a → a = 4097 + c.toNat)
    (sorted : t.nodes.Pairwise (fun p q => st.key p < st.key q)) (first : t.nodes.all (fun p => st.keyByte p 0 == c) = true)
    (listed : ∀ a ∈ st.dad.map Prod.fst, BitVec.ofNat 12 a ∈ t.nodes)
    (linked : t.nodes.all (fun p => st.dadAt (nodeIdx p) != nilIdx) = true) : st.TreeInv := by
  simp only [List.all_eq_true, beq_iff_eq, bne_iff_ne] at first linked
  have members : ∀ p, st.dadAt (nodeIdx p) ≠ nilIdx ↔ p ∈ t.nodes := fun p =>
    ⟨fun h => by simpa using listed _ (dad_listed h), linked p⟩
  have other : ∀ d, d ≠ c → st.rsonAt (rootIdx d) = nilIdx := by
    intro d hd
    by_contra h
    have h1 := roots _ (listed_of_ne_nil h) (Nat.le_add_right _ _)
    exact hd (BitVec.eq_of_toNat_eq (by simpa [rootIdx] using h1))
  refine ⟨oneTree c t, fun d => ?_, fun d => ?_, fun d p hp => ?_, fun p => ?_⟩
  · by_cases h : d = c
    · subst h; simpa [oneTree] using hold
    · simpa [oneTree, h, State.Holds] using other d h
  · by_cases h : d = c
    · simpa [oneTree, h] using sorted
    · simp [oneTree, h, TreeShape.nodes]
  · by_cases h : d = c
    · subst h; exact first p (by simpa [oneTree] using hp)
    · simp [oneTree, h, TreeShape.nodes] at hp
  · unfold State.inTree
    rw [members p]
    constructor
    · intro h; exact ⟨c, by simpa [oneTree] using h⟩
    · rintro ⟨d, hd⟩
      by_cases h : d = c
      · simpa [oneTree, h] using hd
      · simp [oneTree, h, TreeShape.nodes] at hd

/-- The tree of TV1. -/
def tv1Shape : TreeShape :=
  .node (.node (.node .leaf 400#12 .leaf) 200#12 (.node (.node .leaf 600#12 .leaf) 500#12 .leaf)) 100#12
    (.node .leaf 300#12 .leaf)

theorem witness_treeInv_tv1 : tv1.TreeInv :=
  treeInv_of_oneTree 0x4D#8 tv1Shape (by simp only [tv1Shape, State.Holds]; decide +kernel) (by decide +kernel)
    (by decide +kernel) (by decide +kernel) (by decide +kernel) (by decide +kernel)

theorem witness_treeInv_match : beforeMatch.TreeInv :=
  treeInv_of_oneTree 0x20#8 (.node .leaf 4077#12 .leaf) (by simp only [State.Holds]; decide +kernel)
    (by decide +kernel) (by decide +kernel) (by decide +kernel) (by decide +kernel) (by decide +kernel)

theorem beforeMatch_nodes : beforeMatch.NodesInWindow := by
  intro p h
  have hp : p = 4077#12 := BitVec.eq_of_toNat_eq (by simpa [beforeMatch] using dad_listed h)
  subst hp
  decide

/-- EncoderNeverFaults, StepKeepsEncoderInvariant: the seeding. -/
theorem witness_search_seed :
    loaded.host = [] ∧ loaded.encoding = true ∧ loaded.EncoderInv ∧ loaded.SearchInv ∧ ∃ t, step loaded = .next t :=
  ⟨rfl, rfl, witness_encoderInv_seed, ⟨rfl, rfl, rfl, rfl⟩, exists_next (by decide +kernel)⟩

/-- EncoderNeverFaults, StepKeepsEncoderInvariant, IterationAdvancesByTheToken, IterationEmitsOneTokenAndSlides: an
iteration that emits a match. -/
theorem witness_search_match :
    beforeMatch.host = [] ∧ beforeMatch.encoding = true ∧ beforeMatch.seq = .eIter ∧ beforeMatch.EncoderInv ∧
    beforeMatch.SearchInv ∧ (∃ t, step beforeMatch = .next t) ∧
    3 = min beforeMatch.matchLen.toNat beforeMatch.len.toNat ∧ 3 = (if 3 ≤ 2 then 1 else 3) :=
  ⟨rfl, rfl, rfl, witness_encoderInv_match,
    ⟨witness_treeInv_match, beforeMatch_nodes,
      by unfold State.ResultValid; decide +kernel⟩,
    exists_next (by decide +kernel), by decide, by decide⟩

/-- IterationAdvancesByTheToken, IterationEmitsOneTokenAndSlides: an iteration that emits a literal. -/
theorem witness_iteration_literal :
    beforeLiteral.host = [] ∧ beforeLiteral.seq = .eIter ∧ beforeLiteral.EncoderInv ∧
    (∃ t, step beforeLiteral = .next t) ∧ 0 = min beforeLiteral.matchLen.toNat beforeLiteral.len.toNat ∧
    1 = (if 0 ≤ 2 then 1 else 0) :=
  ⟨rfl, rfl, witness_encoderInv_literal, exists_next (by decide +kernel), by decide, by decide⟩

/-- EncoderNeverFaults: the load and the flush. -/
theorem witness_search_load_and_flush :
    (encodingAt .eLoad [0x41#8]).encoding = true ∧ (encodingAt .eLoad [0x41#8]).EncoderInv ∧
    (encodingAt .eLoad [0x41#8]).SearchInv ∧ beforeFlush.encoding = true ∧ beforeFlush.EncoderInv ∧
    beforeFlush.SearchInv :=
  ⟨rfl, witness_encoderInv_load, trivial, rfl, witness_encoderInv_flush, trivial⟩

/-! DECOMPRESS -/

/-- DecoderInitialises, EncoderInitialises, LoadFillsTheLookahead (with and without input),
SeedingInsertsNineteenPositions, FinalFlushEmitsThePartialGroup (a partial group and none). -/
theorem witness_phases :
    { decoding [] 0#16 with seq := .dInit }.seq = .dInit ∧ (encodingAt .eInit []).seq = .eInit ∧
    (encodingAt .eLoad []).seq = .eLoad ∧ (encodingAt .eLoad []).ip = 0 ∧ (encodingAt .eLoad [0x41#8]).ip = 0 ∧
    loaded.seq = .eSeed ∧ beforeFlush.seq = .eFlush ∧ 1 < beforeFlush.codePtr.toNat ∧
    { beforeFlush with codePtr := 1#5 }.codePtr.toNat ≤ 1 := by decide

/-- CtrlRefillsFlags, LitEmitsTheByte: the last input byte, and no input left. -/
theorem witness_one_byte_left :
    (decoding [0x41#8] 0#16).ip < (decoding [0x41#8] 0#16).input.length ∧
    (decoding [] 0#16).input.length ≤ (decoding [] 0#16).ip := by decide

/-- MatchCopiesByteSerially, DistanceOneMatchRepeatsTheByte: the shortest and the longest match with exactly two input
bytes left, one byte left, none left. -/
theorem witness_match_clauses :
    (3 ≤ 3 ∧ 3 ≤ 18 ∧ 3 ≤ 18 ∧ 18 ≤ 18) ∧
    (decoding [0xED#8, 0xF0#8] 0#16).ip + 2 ≤ (decoding [0xED#8, 0xF0#8] 0#16).input.length ∧
    (decoding [0xED#8] 0#16).ip + 1 = (decoding [0xED#8] 0#16).input.length ∧
    (decoding [] 0#16).input.length ≤ (decoding [] 0#16).ip := by decide

/-- DecoderStopsOnlyAtEndOfInput: a cycle that completes a token and one that stops. -/
theorem witness_decoder_cycle :
    ∀ st ∈ [decoding [0x00#8, 0x41#8] 0#16, decoding [0x01#8, 0xED#8] 0#16],
      st.host = [] ∧ st.seq = .dCycle ∧ st.ip ≤ st.input.length ∧ (next? (step st)).isSome = true := by decide

/-- DV10's stream, whose second group starts after exactly 8 tokens. -/
def dv10 : State :=
  decoding [0x00#8, 0x41#8, 0x42#8, 0x43#8, 0x44#8, 0x45#8, 0x46#8, 0x47#8, 0x48#8, 0x00#8, 0x49#8] 0#16

/-- ControlByteGovernsEightTokens: a call's first cycle, and DV10 at both ends of the eight and at the ninth cycle. -/
theorem witness_eight_tokens :
    ({ dv10 with seq := .dInit }.host = [] ∧ (next? (step { dv10 with seq := .dInit })).isSome = true) ∧
    dv10.host = [] ∧ dv10.seq = .dCycle ∧ dv10.shiftFlags.needsRefill = true ∧
    dv10.input[dv10.ip]? = some 0x00#8 ∧
    ∀ k ∈ [0, 7, 8], (next? (stepMany k dv10)).map State.seq = some .dCycle := by decide +kernel

/-- DecompressReachesDone, DecompressOutputBound, PrefixDecompressesToPrefix, OutputDependsOnInputAlone: DV4's call and
that of its first two bytes. -/
theorem witness_decompress_calls :
    CanStart State.reset [0x01#8, 0xED#8] ∧ CanStart finished [0x01#8, 0xED#8, 0xF0#8] ∧
    State.reset.params.unprimedFill = finished.params.unprimedFill ∧
    (∃ t, CallEnds State.reset 1#1 [0x01#8, 0xED#8] t) ∧
    (∃ t, CallEnds State.reset 1#1 [0x01#8, 0xED#8, 0xF0#8] t) ∧
    (∃ t, CallEnds finished 1#1 [0x01#8, 0xED#8, 0xF0#8] t) :=
  ⟨⟨rfl, by decide, by decide⟩, ⟨rfl, by decide, by decide⟩, rfl, callEnds_of 2 (by decide +kernel),
    callEnds_of 3 (by decide +kernel), callEnds_of 3 (by decide +kernel)⟩

/-! COMPRESS -/

/-- CompressReachesDone, CompressEmitsWholeGroups, CompressOutputBound, OutputDependsOnInputAlone,
DecompressInvertsCompress: EV1's and EV2's calls, from reset and after another operation. -/
theorem witness_compress_calls :
    CanStart State.reset [] ∧ CanStart State.reset [0x41#8] ∧ CanStart finished [0x41#8] ∧
    (∃ t, CallEnds State.reset 0#1 [] t) ∧ (∃ t, CallEnds State.reset 0#1 [0x41#8] t) ∧
    (∃ t, CallEnds finished 0#1 [0x41#8] t) ∧ CanStart finished [0x00#8, 0x41#8] :=
  ⟨⟨rfl, by decide, by decide⟩, ⟨rfl, by decide, by decide⟩, ⟨rfl, by decide, by decide⟩,
    callEnds_of 2 (by decide +kernel), callEnds_of 5 (by decide +kernel), callEnds_of 5 (by decide +kernel),
    ⟨rfl, by decide, by decide⟩⟩

/-- TokenChoiceClampsAndCompares: 2 and 3, the longer side clamped. -/
theorem witness_token_choice :
    2 = min { beforeMatch with len := 2#5 }.matchLen.toNat { beforeMatch with len := 2#5 }.len.toNat ∧ 2 ≤ 2 ∧
    3 = min beforeMatch.matchLen.toNat beforeMatch.len.toNat ∧ 2 < 3 := by decide

/-- LiteralEmissionAppendsTheByte and MatchEmissionAppendsTwoBytes: the first and the last place in the group buffer,
the shortest and the longest match. -/
theorem witness_emissions :
    { beforeMatch with codePtr := 16#5 }.codePtr.toNat < 17 ∧ 1 ≤ beforeMatch.codePtr.toNat ∧
    { beforeMatch with codePtr := 15#5 }.codePtr.toNat ≤ 15 ∧ 3 ≤ beforeMatch.matchLen.toNat ∧
    { beforeMatch with matchLen := 18#5 }.matchLen.toNat ≤ 18 := by decide

/-- FullGroupIsFlushed: the seventh and the eighth token. -/
theorem witness_mask :
    (∃ st : State, st.mask <<< 1 ≠ 0#8) ∧ (∃ st : State, st.mask <<< 1 = 0#8) :=
  ⟨⟨{ beforeMatch with mask := 0x40#8 }, by decide⟩, ⟨{ beforeMatch with mask := 0x80#8 }, by decide⟩⟩

/-! The match finder -/

/-- InsertNodeFrame, ReportedMatchBytesAgree, InsertNodeKeepsSearchTree, InsertNodeFindsTheLongestMatch: TV7's and TV8's
insertions, the latter with a reported byte 1. -/
theorem witness_insert :
    tv1.TreeInv ∧ ¬ tv1.inTree 700#12 ∧ ¬ tv1.inTree 800#12 ∧
    (ok? (insertNode 700#12 tv1)).isSome = true ∧ (ok? (insertNode 800#12 tv1)).map State.matchLen = some 2#5 ∧
    1 ≤ 1 ∧ 1 < (2#5).toNat :=
  ⟨witness_treeInv_tv1, by unfold State.inTree; decide, by unfold State.inTree; decide, by decide +kernel,
    by decide +kernel, by decide, by decide⟩

/-- InsertUnderEmptyRootAttaches: position 50, whose first byte is the primed 20. -/
theorem witness_empty_root : tv1.rsonAt (rootIdx (tv1.ringRead (50#12).toNat)) = nilIdx := by decide

/-- DeleteNodeKeepsSearchTree (a node and no node), DeleteOfAbsentPositionDoesNothing (TV6). -/
theorem witness_delete :
    tv1.TreeInv ∧ tv1.inTree 100#12 ∧ tv1.dadAt (nodeIdx 50#12) = nilIdx :=
  ⟨witness_treeInv_tv1, by unfold State.inTree; decide, by decide⟩

/-- StoredEntryFollowsThePolicy: 9 bytes that shrink, 8 bytes, and no gain. -/
theorem witness_policy :
    (8 < (List.replicate 9 0x41#8).length ∧ ([0x02#8, 0x41#8, 0xEE#8, 0xF5#8].length < (List.replicate 9 0x41#8).length) ∧
      (List.replicate 9 0x41#8).length < 4294967296) ∧
    (List.replicate 8 0x41#8).length ≤ 8 ∧ (List.replicate 9 0x41#8).length ≤ (List.replicate 9 0x42#8).length := by
  decide

end Sys2Proof.Tests
end

/-! # What a transition of the sequencer keeps and where it goes (spec/10_state.md)

One effect lemma per phase; the statements about the state and its frame are assembled from them. -/

namespace Sys2Proof.Machine

/-! ## The form of the state -/

/-- `State.wf` as the list of its parts. -/
theorem State.wf_iff (st : State) :
    st.wf = true ↔
      Memory.wf st.params.unprimedFill st.ring = true ∧ TreesWf st ∧ st.statusMatchesSeq = true ∧
        st.opMatchesSeq = true ∧ st.ip ≤ st.input.length ∧ st.input.length ≤ st.params.maxInputLen := by
  simp only [State.wf, TreesWf, Bool.and_eq_true, decide_eq_true_eq, and_assoc]

/-- From st to t, IN and the parameters stay, the arrays stay canonical, and IP stays within IN. -/
structure KeepsForm (st t : State) : Prop where
  params : t.params = st.params
  input : t.input = st.input
  ring : Memory.wf st.params.unprimedFill st.ring = true → Memory.wf t.params.unprimedFill t.ring = true
  trees : TreesWf st → TreesWf t
  ip : st.ip ≤ st.input.length → t.ip ≤ t.input.length

theorem KeepsForm.refl (st : State) : KeepsForm st st := ⟨rfl, rfl, id, id, id⟩

theorem KeepsForm.trans {st s t : State} (h : KeepsForm st s) (h' : KeepsForm s t) : KeepsForm st t :=
  ⟨h'.params.trans h.params, h'.input.trans h.input, h'.ring ∘ h.ring, h'.trees ∘ h.trees, h'.ip ∘ h.ip⟩

/-- Where IN, the parameters, the arrays and IP are the same, the form is. -/
theorem KeepsForm.of_eq {st t : State} (hp : t.params = st.params) (hi : t.input = st.input) (hr : t.ring = st.ring)
    (hl : t.lson = st.lson) (hs : t.rson = st.rson) (hd : t.dad = st.dad) (hip : t.ip = st.ip) : KeepsForm st t :=
  ⟨hp, hi, by rw [hp, hr]; exact id, by unfold TreesWf; rw [hl, hs, hd]; exact id, by rw [hip, hi]; exact id⟩

/-- A state whose form was kept is well formed when STATUS, OP and SEQ agree in it. -/
theorem KeepsForm.wf {st t : State} (h : KeepsForm st t) (hst : st.wf = true) (hstatus : t.statusMatchesSeq = true)
    (hop : t.opMatchesSeq = true) : t.wf = true := by
  obtain ⟨hring, htrees, -, -, hip, hlen⟩ := st.wf_iff.mp hst
  exact t.wf_iff.mpr ⟨h.ring hring, h.trees htrees, hstatus, hop, h.ip hip, by rw [h.input, h.params]; exact hlen⟩

theorem keepsForm_advance {st : State} {n : Nat} (h : st.ip ≤ st.input.length → st.ip + n ≤ st.input.length) :
    KeepsForm st (st.advance n) :=
  ⟨rfl, rfl, id, id, h⟩

theorem keepsForm_ringWrite (st : State) {a : Nat} (v : Byte) (ha : a < Config.ringCells) :
    KeepsForm st (st.ringWrite a v) :=
  ⟨rfl, rfl, fun h => Memory.write_wf v h ha, id, id⟩

/-! ## DECOMPRESS -/

/-- What the steps of a token cycle can do (R101 to R105): IP, OUT, R, FLAGS, RING below cell 4096, and a stop. -/
structure DecoderEffect (st t : State) : Prop where
  frame : t = { st with
    status := t.status, ip := t.ip, out := t.out, seq := t.seq, r := t.r, flags := t.flags, ring := t.ring }
  form : KeepsForm st t
  out : st.out <+: t.out
  upperRing : ∀ a, 4096 ≤ a → t.ringRead a = st.ringRead a
  moves : (t.seq = st.seq ∧ t.status = st.status) ∨ (t.seq = .done ∧ t.status = .done)

theorem DecoderEffect.trans {st s t : State} (h : DecoderEffect st s) (h' : DecoderEffect s t) :
    DecoderEffect st t where
  frame := by
    have e := h'.frame
    rw [h.frame] at e
    exact e
  form := h.form.trans h'.form
  out := h.out.trans h'.out
  upperRing a ha := (h'.upperRing a ha).trans (h.upperRing a ha)
  moves := by
    rcases h'.moves with ⟨hs, hst⟩ | hdone
    · rw [hs, hst]; exact h.moves
    · exact .inr hdone

theorem decoderEffect_refl (st : State) : DecoderEffect st st :=
  ⟨rfl, .refl st, List.prefix_refl _, fun _ _ => rfl, .inl ⟨rfl, rfl⟩⟩

theorem decoderEffect_flags (st : State) (v : BitVec 16) : DecoderEffect st { st with flags := v } :=
  ⟨rfl, .of_eq rfl rfl rfl rfl rfl rfl rfl, List.prefix_refl _, fun _ _ => rfl, .inl ⟨rfl, rfl⟩⟩

theorem decoderEffect_advance {st : State} {n : Nat} (h : st.ip ≤ st.input.length → st.ip + n ≤ st.input.length) :
    DecoderEffect st (st.advance n) :=
  ⟨rfl, keepsForm_advance h, List.prefix_refl _, fun _ _ => rfl, .inl ⟨rfl, rfl⟩⟩

theorem decoderEffect_stop (st : State) : DecoderEffect st st.stop :=
  ⟨rfl, .of_eq rfl rfl rfl rfl rfl rfl rfl, List.prefix_refl _, fun _ _ => rfl, .inr ⟨rfl, rfl⟩⟩

theorem decoderEffect_emitDecoded (st : State) (c : Byte) : DecoderEffect st (st.emitDecoded c) where
  frame := rfl
  form :=
    have hr : st.r.toNat < Config.ringCells := by have := st.r.isLt; simp only [Config.ringCells]; omega
    (keepsForm_ringWrite st c hr).trans (.of_eq rfl rfl rfl rfl rfl rfl rfl)
  out := List.prefix_append _ _
  upperRing a ha := by
    rw [State.ringRead_emitDecoded, if_neg]
    have := st.r.isLt
    omega
  moves := .inl ⟨rfl, rfl⟩

theorem decoderEffect_copyMatch (pos : Pos) (n k : Nat) (st : State) : DecoderEffect st (copyMatch pos n k st) := by
  induction n generalizing k st with
  | zero => exact decoderEffect_refl st
  | succ n ih => exact (decoderEffect_emitDecoded st _).trans (ih (k + 1) _)

/-- Running one element always answers a next state, whatever its kind and however short the stream. -/
theorem runElement_effect (k : Kind) (st : State) : ∃ t, runElement k st = .next t ∧ DecoderEffect st t := by
  rcases runElement_cases k st with ⟨e, he, -, h⟩ | ⟨c, -, hav, -, h⟩ | ⟨d, -, hav, -, h⟩ |
    ⟨i, j, -, hav, -, -, h⟩
  · rw [st.unread_length] at he
    exact ⟨_, h, (decoderEffect_advance (by omega)).trans (decoderEffect_stop _)⟩
  · exact ⟨_, h, (decoderEffect_advance fun _ => hav).trans (decoderEffect_flags _ _)⟩
  · exact ⟨_, h, (decoderEffect_advance fun _ => hav).trans (decoderEffect_emitDecoded _ d)⟩
  · exact ⟨_, h, (decoderEffect_advance (n := 2) fun _ => hav).trans (decoderEffect_copyMatch _ _ 0 _)⟩

theorem afterRefill_effect (st : State) : ∃ t, afterRefill st = .next t ∧ DecoderEffect st t := by
  unfold afterRefill
  split
  · exact ⟨st, rfl, decoderEffect_refl st⟩
  · exact runElement_effect _ st

/-- A token cycle always answers a next state: the shift, at most one refill and at most one token (R101). -/
theorem decoderCycle_effect (st : State) : ∃ t, decoderCycle st = .next t ∧ DecoderEffect st t := by
  have hshift : DecoderEffect st st.shiftFlags := decoderEffect_flags st _
  cases hn : st.shiftFlags.needsRefill with
  | false =>
    obtain ⟨t, ht, htoken⟩ := runElement_effect st.shiftFlags.tokenKind st.shiftFlags
    exact ⟨t, (decoderCycle_of_no_refill hn).trans ht, hshift.trans htoken⟩
  | true =>
    obtain ⟨s, hs, hrefill⟩ := runElement_effect .control st.shiftFlags
    obtain ⟨t, ht, hafter⟩ := afterRefill_effect s
    refine ⟨t, ?_, (hshift.trans hrefill).trans hafter⟩
    simp only [decoderCycle, if_pos hn, hs, andThen_next, ht]

/-! ## COMPRESS -/

/-- The load writes cells 4078 + LEN, with LEN below 32, and stops at the end of input (R142). -/
theorem keepsForm_loadLoop (n : Nat) (st : State) : KeepsForm st (loadLoop n st) := by
  induction n generalizing st with
  | zero => exact .refl st
  | succ n ih =>
    simp only [loadLoop]
    split
    · exact .refl st
    · rename_i c s1 hb
      obtain ⟨hin, rfl⟩ := State.inByte?_eq_some hb
      have hlt : st.ip < st.input.length := (List.getElem?_eq_some_iff.mp hin).1
      have ha : Config.initPos.toNat + (st.advance 1).len.toNat < Config.ringCells := by
        have := (st.advance 1).len.isLt
        simp only [Config.ringCells, BitVec.toNat_ofNat]
        omega
      have hload := (keepsForm_advance fun _ => hlt).trans (keepsForm_ringWrite (st.advance 1) c ha)
      refine KeepsForm.trans ?_ (ih _)
      exact hload.trans (.of_eq rfl rfl rfl rfl rfl rfl rfl)

/-- E_LOAD changes LEN, IP, RING, and SEQ, with STATUS where it stops (R142, R143, R40). -/
theorem encoderLoad_frame (st : State) :
    st.encoderLoad = { st with
      len := st.encoderLoad.len, ip := st.encoderLoad.ip, ring := st.encoderLoad.ring, seq := st.encoderLoad.seq,
      status := st.encoderLoad.status } := by
  unfold State.encoderLoad
  rw [loadLoop_frame]
  simp only []
  split <;> rfl

theorem encoderLoad_moves (st : State) :
    (st.encoderLoad.len = 0#5 ∧ st.encoderLoad.seq = .done ∧ st.encoderLoad.status = .done) ∨
      (st.encoderLoad.len ≠ 0#5 ∧ st.encoderLoad.seq = .eSeed ∧ st.encoderLoad.status = st.status) := by
  unfold State.encoderLoad
  rw [loadLoop_frame]
  simp only []
  split
  · exact .inl ⟨‹_›, rfl, rfl⟩
  · exact .inr ⟨‹_›, rfl, rfl⟩

theorem keepsForm_encoderLoad (st : State) : KeepsForm st st.encoderLoad := by
  have hload : KeepsForm st (loadLoop Config.maxMatch { st with len := 0#5 }) := by
    refine KeepsForm.trans ?_ (keepsForm_loadLoop _ _)
    exact .of_eq rfl rfl rfl rfl rfl rfl rfl
  unfold State.encoderLoad
  simp only []
  split
  · exact hload.trans (.of_eq rfl rfl rfl rfl rfl rfl rfl)
  · exact hload.trans (.of_eq rfl rfl rfl rfl rfl rfl rfl)

theorem mirroredRing_wf {st : State} (c : Byte) (h : Memory.wf st.params.unprimedFill st.ring = true) :
    Memory.wf st.params.unprimedFill (mirroredRing st c) = true := by
  have hs : st.s.toNat < 4096 := st.s.isLt
  have hcell : Memory.wf st.params.unprimedFill (Memory.write st.params.unprimedFill st.ring st.s.toNat c) = true :=
    Memory.write_wf c h (by simp only [Config.ringCells]; omega)
  unfold mirroredRing
  split
  · rename_i hm
    refine Memory.write_wf c hcell ?_
    simp only [Config.mirrorCells] at hm
    simp only [Config.windowSize, Config.ringCells]
    omega
  · exact hcell

theorem keepsForm_slideByte {c : Byte} {st t : State} (h : slideByte c st = .ok t) : KeepsForm st t := by
  obtain ⟨hw, -, -, hip, -, -, hring, -, htrees⟩ := slideByte_effect h
  have e := eq_of_withoutWindow hw
  have hp : t.params = st.params := by rw [e]
  have hi : t.input = st.input := by rw [e]
  exact ⟨hp, hi, by rw [hp, hring]; exact mirroredRing_wf c, htrees, by rw [hip, hi]; exact id⟩

theorem keepsForm_tailByte {st t : State} (h : tailByte st = .ok t) : KeepsForm st t := by
  obtain ⟨hw, -, -, hip, -, -, hring, -, htrees⟩ := tailByte_effect h
  have e := eq_of_withoutWindow hw
  have hp : t.params = st.params := by rw [e]
  have hi : t.input = st.input := by rw [e]
  exact ⟨hp, hi, by rw [hp, hring]; exact id, htrees, by rw [hip, hi]; exact id⟩

/-- The cells of the slide's input bytes: every RING cell is as in st but S, S + 1, ... and their mirrors, one for each
byte that IP has moved on (R62, R150). -/
def RingWrittenFromS (st t : State) : Prop :=
  ∀ a, (∀ j, st.ip + j < t.ip →
      a ≠ (st.s + BitVec.ofNat 12 j).toNat ∧ a ≠ (st.s + BitVec.ofNat 12 j).toNat + 4096) →
    t.ringRead a = st.ringRead a

/-- Where the slide stands after some of its turns with input: S moved as far as IP, and RING is written there only. -/
structure SlideProgress (st t : State) : Prop where
  form : KeepsForm st t
  ip : st.ip ≤ t.ip
  s : t.s = st.s + BitVec.ofNat 12 (t.ip - st.ip)
  ring : RingWrittenFromS st t

/-- One more turn with input writes the cell that S has reached, and its mirror (R150). -/
theorem SlideProgress.slideByte {st s t : State} {c : Byte} (hp : SlideProgress st s)
    (hin : s.input[s.ip]? = some c) (h : slideByte c (s.advance 1) = .ok t) : SlideProgress st t := by
  have hlt : s.ip < s.input.length := (List.getElem?_eq_some_iff.mp hin).1
  have hform : KeepsForm s t := (keepsForm_advance fun _ => hlt).trans (keepsForm_slideByte h)
  obtain ⟨-, -, hs, hip, -, -, hring, -, -⟩ := slideByte_effect h
  have hip' : t.ip = s.ip + 1 := hip
  have hle := hp.ip
  refine ⟨hp.form.trans hform, by omega, ?_, fun a ha => ?_⟩
  · rw [hs, State.advance_s, hp.s, BitVec.add_assoc, BitVec.add_comm _ 1#12, ← BitVec.add_assoc, pos_add_succ, hip',
      Nat.succ_sub hle]
  · obtain ⟨hne, hmirror⟩ := ha (s.ip - st.ip) (by omega)
    rw [← hp.s] at hne hmirror
    calc t.ringRead a = ((s.advance 1).mirrorWrite c).ringRead a :=
          State.ringRead_congr (st' := (s.advance 1).mirrorWrite c) hform.params hring a
      _ = (s.advance 1).ringRead a := by
        rw [State.ringRead_mirrorWrite, if_neg]
        rintro (h | ⟨-, h⟩)
        · exact hne h
        · exact hmirror h
      _ = st.ringRead a := hp.ring a fun j hj => ha j (by omega)

theorem slideWindow_ok {st t : State} (h : st.slideWindow = .ok t) :
    ∃ s, slideLoop st.matchLen.toNat { st with lastLen := st.matchLen, i := 0#5 } = .ok s ∧
      tailLoop s.lastLen.toNat s = .ok t := by
  simp only [State.slideWindow] at h
  split at h
  · cases h
  · rename_i s hs
    exact ⟨s, hs, h⟩

/-- The turns without input write nothing (R151). -/
theorem tailLoop_keeps {n : Nat} {st t : State} (h : tailLoop n st = .ok t) :
    KeepsForm st t ∧ t.ip = st.ip ∧ t.ring = st.ring := by
  refine tailLoop_induct (fun s => KeepsForm st s ∧ s.ip = st.ip ∧ s.ring = st.ring) ?_ ⟨.refl st, rfl, rfl⟩ h
  rintro s u ⟨hform, hip, hring⟩ - hu
  obtain ⟨-, -, -, hip', -, -, hring', -, -⟩ := tailByte_effect hu
  exact ⟨hform.trans (keepsForm_tailByte hu), hip'.trans hip, hring'.trans hring⟩

/-- The slide, as an update of the state it starts in. -/
theorem eq_of_slideWindow {st t : State} (h : st.slideWindow = .ok t) :
    t = { st with
      lson := t.lson, rson := t.rson, dad := t.dad, matchPos := t.matchPos, matchLen := t.matchLen, ring := t.ring,
      ip := t.ip, r := t.r, s := t.s, len := t.len, i := t.i, lastLen := st.matchLen } :=
  eq_of_withoutWindow (st := { st with lastLen := st.matchLen }) (slideWindow_frame h).1

/-- The whole slide (R150, R151). -/
theorem slideWindow_keeps {st t : State} (h : st.slideWindow = .ok t) : KeepsForm st t ∧ RingWrittenFromS st t := by
  obtain ⟨s, hslide, htail⟩ := slideWindow_ok h
  have hstart : SlideProgress st { st with lastLen := st.matchLen, i := 0#5 } :=
    ⟨.of_eq rfl rfl rfl rfl rfl rfl rfl, Nat.le_refl _, by simp, fun _ _ => rfl⟩
  have hp : SlideProgress st s :=
    slideLoop_induct (SlideProgress st) (fun _ _ _ hs _ hin hu => hs.slideByte hin hu) hstart hslide
  obtain ⟨hform, hip, hring⟩ := tailLoop_keeps htail
  refine ⟨hp.form.trans hform, fun a ha => ?_⟩
  rw [hip] at ha
  exact (State.ringRead_congr hform.params hring a).trans (hp.ring a ha)

/-- The seeding, as an update of the state it starts in. -/
theorem eq_of_encoderSeed {st t : State} (h : st.encoderSeed = .ok t) :
    t = { st with
      lson := t.lson, rson := t.rson, dad := t.dad, matchPos := t.matchPos, matchLen := t.matchLen, seq := .eIter } :=
  eq_of_withoutSearch (st := { st with seq := .eIter }) (encoderSeed_frame h).1

/-! An iteration -/

/-- st with everything blanked that a token emission can change: the group buffer and its registers, MATCH_LEN, OUT. -/
def withoutToken (st : State) : State :=
  { st with codeBuf := State.reset.codeBuf, codePtr := 0#5, matchLen := 0#5, mask := 0#8, out := [] }

theorem eq_of_withoutToken {st t : State} (h : withoutToken t = withoutToken st) :
    t = { st with
      codeBuf := t.codeBuf, codePtr := t.codePtr, matchLen := t.matchLen, mask := t.mask, out := t.out } := by
  have e : t = { withoutToken t with
    codeBuf := t.codeBuf, codePtr := t.codePtr, matchLen := t.matchLen, mask := t.mask, out := t.out } := rfl
  rw [h] at e
  exact e

/-- The token of an iteration, chosen and its group closed where it is full: nothing of the window or the trees changes,
and OUT only grows (R145 to R149). -/
theorem tokenEmission_frame {st s : State} (h : st.clampMatch.chooseToken = .ok s) :
    withoutToken s.closeToken = withoutToken st ∧ st.out <+: s.closeToken.out := by
  obtain ⟨htoken, -⟩ := chooseToken_frame h
  obtain ⟨hclose, hout⟩ := closeToken_frame s
  have hs : s.out = st.out := by rw [htoken, clampMatch_eq]
  refine ⟨?_, hs ▸ hout⟩
  calc withoutToken s.closeToken = withoutToken s := by rw [hclose]; rfl
    _ = withoutToken st.clampMatch := by rw [htoken]; rfl
    _ = withoutToken st := by rw [clampMatch_eq]; rfl

/-- An iteration leaves OP, STATUS, FLAGS, the host's side of the port and the free values alone. -/
theorem encoderIter_frame {st t : State} (h : st.encoderIter = .ok t) :
    t.op = st.op ∧ t.status = st.status ∧ t.flags = st.flags ∧ t.host = st.host ∧ t.reply = st.reply ∧
      t.frees = st.frees := by
  obtain ⟨s, u, htoken, hslide, rfl⟩ := encoderIter_ok h
  rw [loopTest_frame, eq_of_slideWindow hslide, eq_of_withoutToken (tokenEmission_frame htoken).1]
  exact ⟨rfl, rfl, rfl, rfl, rfl, rfl⟩

/-- What an iteration writes: OUT grows, and RING changes where input bytes overwrite it (R149, R150). -/
theorem encoderIter_keeps {st t : State} (h : st.encoderIter = .ok t) :
    KeepsForm st t ∧ st.out <+: t.out ∧ RingWrittenFromS st t := by
  obtain ⟨s, u, htoken, hslide, rfl⟩ := encoderIter_ok h
  obtain ⟨hemit, hout⟩ := tokenEmission_frame htoken
  obtain ⟨hform, hring⟩ := slideWindow_keeps hslide
  have hu : u.out = s.closeToken.out := by rw [eq_of_slideWindow hslide]
  have e := eq_of_withoutToken hemit
  have htok : KeepsForm st s.closeToken := by rw [e]; exact .of_eq rfl rfl rfl rfl rfl rfl rfl
  rw [e] at hring
  rw [loopTest_frame]
  refine ⟨(htok.trans hform).trans (.of_eq rfl rfl rfl rfl rfl rfl rfl), ?_, hring⟩
  rw [hu]
  exact hout

theorem encoderIter_moves {st t : State} (h : st.encoderIter = .ok t) :
    (t.len ≠ 0#5 ∧ t.seq = .eIter) ∨ (t.len = 0#5 ∧ t.seq = .eFlush) := by
  obtain ⟨-, u, -, -, rfl⟩ := encoderIter_ok h
  unfold State.loopTest
  split
  · exact .inr ⟨‹_›, rfl⟩
  · exact .inl ⟨‹_›, rfl⟩

/-- The final flush changes OUT, SEQ and STATUS (R153). -/
theorem encoderFlush_frame (st : State) :
    st.encoderFlush = { st with out := st.encoderFlush.out, seq := .done, status := .done } ∧
      st.out <+: st.encoderFlush.out := by
  unfold State.encoderFlush
  split
  · exact ⟨rfl, List.prefix_append _ _⟩
  · exact ⟨rfl, List.prefix_refl _⟩

/-! ## The sequencer's transition -/

theorem outcomeOf_eq_next {x : Except Fault State} {t : State} (h : outcomeOf x = .next t) : x = .ok t := by
  cases x with
  | ok s => cases h; rfl
  | error f => cases h

/-- Where SEQ goes, and STATUS with it (R40). -/
def SeqMoves (st t : State) : Prop :=
  match st.seq with
  | .idle | .done => t = st
  | .dInit => t.seq = .dCycle ∧ t.status = st.status
  | .dCycle => (t.seq = .dCycle ∧ t.status = st.status) ∨ (t.seq = .done ∧ t.status = .done)
  | .eInit => t.seq = .eLoad ∧ t.status = st.status
  | .eLoad =>
    (t.len = 0#5 ∧ t.seq = .done ∧ t.status = .done) ∨ (t.len ≠ 0#5 ∧ t.seq = .eSeed ∧ t.status = st.status)
  | .eSeed => t.seq = .eIter ∧ t.status = st.status
  | .eIter => ((t.len ≠ 0#5 ∧ t.seq = .eIter) ∨ (t.len = 0#5 ∧ t.seq = .eFlush)) ∧ t.status = st.status
  | .eFlush => t.seq = .done ∧ t.status = .done

/-- What every transition of the sequencer keeps, and where it goes. -/
structure Transition (st t : State) : Prop where
  op : t.op = st.op
  host : t.host = st.host
  reply : t.reply = st.reply
  frees : st.seq ≠ .eInit → t.frees = st.frees
  out : st.seq ≠ .dInit → st.seq ≠ .eInit → st.out <+: t.out
  form : KeepsForm st t
  moves : SeqMoves st t

theorem transition_waiting {st : State} (hs : st.seq = .idle ∨ st.seq = .done) : Transition st st where
  op := rfl
  host := rfl
  reply := rfl
  frees _ := rfl
  out _ _ := List.prefix_refl _
  form := .refl st
  moves := by rcases hs with hs | hs <;> simp only [SeqMoves, hs]

theorem transition_decoderInit {st : State} (hs : st.seq = .dInit) : Transition st st.decoderInit where
  op := rfl
  host := rfl
  reply := rfl
  frees _ := rfl
  out h := absurd hs h
  form := ⟨rfl, rfl, fun _ => Memory.wf_nil _, id, fun _ => Nat.zero_le _⟩
  moves := by simp only [SeqMoves, hs]; exact ⟨rfl, rfl⟩

theorem transition_decoderCycle {st t : State} (hs : st.seq = .dCycle) (h : DecoderEffect st t) : Transition st t where
  op := by rw [h.frame]
  host := by rw [h.frame]
  reply := by rw [h.frame]
  frees _ := by rw [h.frame]
  out _ _ := h.out
  form := h.form
  moves := by simpa only [SeqMoves, hs] using h.moves

theorem transition_encoderInit {st : State} (hs : st.seq = .eInit) : Transition st st.encoderInit where
  op := rfl
  host := rfl
  reply := rfl
  frees h := absurd hs h
  out _ h := absurd hs h
  form :=
    ⟨rfl, rfl, fun _ => Memory.wf_nil _, fun _ => ⟨treeWf_nil, treeWf_nil, treeWf_nil⟩, fun _ => Nat.zero_le _⟩
  moves := by simp only [SeqMoves, hs]; exact ⟨rfl, rfl⟩

theorem transition_encoderLoad {st : State} (hs : st.seq = .eLoad) : Transition st st.encoderLoad where
  op := by rw [encoderLoad_frame]
  host := by rw [encoderLoad_frame]
  reply := by rw [encoderLoad_frame]
  frees _ := by rw [encoderLoad_frame]
  out _ _ := by rw [encoderLoad_frame]
  form := keepsForm_encoderLoad st
  moves := by simpa only [SeqMoves, hs] using encoderLoad_moves st

theorem transition_encoderSeed {st t : State} (hs : st.seq = .eSeed) (h : st.encoderSeed = .ok t) :
    Transition st t := by
  obtain ⟨-, -, htrees⟩ := encoderSeed_frame h
  have e := eq_of_encoderSeed h
  refine ⟨by rw [e], by rw [e], by rw [e], fun _ => by rw [e], fun _ _ => by rw [e], ?_, ?_⟩
  · exact ⟨by rw [e], by rw [e], by rw [e]; exact id, htrees, by rw [e]; exact id⟩
  · simp only [SeqMoves, hs]
    rw [e]
    exact ⟨rfl, rfl⟩

theorem transition_encoderIter {st t : State} (hs : st.seq = .eIter) (h : st.encoderIter = .ok t) :
    Transition st t := by
  obtain ⟨hop, hstatus, -, hhost, hreply, hfrees⟩ := encoderIter_frame h
  obtain ⟨hform, hout, -⟩ := encoderIter_keeps h
  refine ⟨hop, hhost, hreply, fun _ => hfrees, fun _ _ => hout, hform, ?_⟩
  simpa only [SeqMoves, hs] using ⟨encoderIter_moves h, hstatus⟩

theorem transition_encoderFlush {st : State} (hs : st.seq = .eFlush) : Transition st st.encoderFlush := by
  obtain ⟨e, hout⟩ := encoderFlush_frame st
  refine ⟨by rw [e], by rw [e], by rw [e], fun _ => by rw [e], fun _ _ => hout, ?_, ?_⟩
  · rw [e]; exact .of_eq rfl rfl rfl rfl rfl rfl rfl
  · simp only [SeqMoves, hs]
    rw [e]
    exact ⟨rfl, rfl⟩

/-- Every next state of the sequencer is a transition of R40's table. -/
theorem blockStep_transition {st t : State} (h : blockStep st = .next t) : Transition st t := by
  cases hs : st.seq <;> simp only [blockStep, hs] at h
  case idle => cases h; exact transition_waiting (.inl hs)
  case dInit => cases h; exact transition_decoderInit hs
  case dCycle =>
    obtain ⟨u, hu, heffect⟩ := decoderCycle_effect st
    cases hu.symm.trans h
    exact transition_decoderCycle hs heffect
  case eInit => cases h; exact transition_encoderInit hs
  case eLoad => cases h; exact transition_encoderLoad hs
  case eSeed => exact transition_encoderSeed hs (outcomeOf_eq_next h)
  case eIter => exact transition_encoderIter hs (outcomeOf_eq_next h)
  case eFlush => cases h; exact transition_encoderFlush hs
  case done => cases h; exact transition_waiting (.inr hs)

/-! ## Well-formed states stay well formed -/

/-- A transition keeps STATUS, OP and SEQ in agreement (R21, R22, R40). -/
theorem Transition.matches {st t : State} (h : Transition st t) (hstatus : st.statusMatchesSeq = true)
    (hop : st.opMatchesSeq = true) : t.statusMatchesSeq = true ∧ t.opMatchesSeq = true := by
  have hm := h.moves
  have ho := h.op
  unfold SeqMoves at hm
  unfold State.statusMatchesSeq State.opMatchesSeq at *
  cases hs : st.seq <;> simp only [hs, decide_eq_true_eq] at hm hstatus hop
  case idle | done => subst hm; simp [hs, hstatus]
  case dInit | eInit | eSeed | eFlush => simp [hm, ho, hstatus, hop]
  case dCycle => rcases hm with hm | hm <;> simp [hm, ho, hstatus, hop]
  case eLoad => rcases hm with ⟨-, hm⟩ | ⟨-, hm⟩ <;> simp [hm, ho, hstatus, hop]
  case eIter => obtain ⟨⟨-, hm⟩ | ⟨-, hm⟩, hst⟩ := hm <;> simp [hm, hst, ho, hstatus, hop]

theorem blockStep_wf {st t : State} (hst : st.wf = true) (h : blockStep st = .next t) : t.wf = true := by
  have htr := blockStep_transition h
  obtain ⟨-, -, hstatus, hop, -, -⟩ := st.wf_iff.mp hst
  obtain ⟨hstatus', hop'⟩ := htr.matches hstatus hop
  exact htr.form.wf hst hstatus' hop'

/-- Both commands are START with the OP bit that decodes to them (R94, R221). -/
theorem exec_decodeCommand (op : BitVec 1) (b : List Byte) (st : State) :
    exec (decodeCommand op b) st = st.startCall op b := by
  rcases BitVec.eq_zero_or_eq_one op with rfl | rfl <;> rfl

theorem startCall_wf {st t : State} {op : BitVec 1} {b : List Byte} (hst : st.wf = true)
    (h : st.startCall op b = .next t) : t.wf = true := by
  obtain ⟨hring, htrees, -, -, -, -⟩ := st.wf_iff.mp hst
  unfold State.startCall at h
  split at h
  · cases h
  · split at h
    · cases h
    · rename_i hlen
      cases h
      have hseq : (st.latchStart op b).statusMatchesSeq = true ∧ (st.latchStart op b).opMatchesSeq = true := by
        rcases BitVec.eq_zero_or_eq_one op with rfl | rfl <;> exact ⟨rfl, rfl⟩
      exact (State.wf_iff _).mpr ⟨hring, htrees, hseq.1, hseq.2, Nat.zero_le _, Nat.le_of_not_lt hlen⟩

theorem blockReset_wf (st : State) : st.blockReset.wf = true :=
  (State.wf_iff _).mpr
    ⟨Memory.wf_nil _, ⟨treeWf_nil, treeWf_nil, treeWf_nil⟩, rfl, rfl, Nat.le_refl _, Nat.zero_le _⟩

/-- `State.wf` does not look at the host's side of the port. -/
theorem hostStep_wf {m : HostMove} {st t : State} (hst : st.wf = true) (h : hostStep m st = .next t) :
    t.wf = true := by
  cases m with
  | pass => exact blockStep_wf hst h
  | start op b => exact startCall_wf hst ((exec_decodeCommand op b st).symm.trans h)
  | readStatus => cases h; exact hst
  | readOut =>
    simp only [hostStep, readOut] at h
    split at h
    · cases h; exact hst
    · cases h
  | blockReset => cases h; exact blockReset_wf st

/-- Settles O21: each host move and each transition of the sequencer keeps the parts of `State.wf`. -/
theorem stepKeepsStateWellFormed : Obligations.StepKeepsStateWellFormed := by
  intro st t hst h
  cases hm : st.host with
  | nil => exact blockStep_wf hst ((step_of_no_move hm).symm.trans h)
  | cons m rest => exact hostStep_wf (st := { st with host := rest }) hst ((step_of_move hm).symm.trans h)

/-! ## The sequencer's statements -/

/-- Settles O15: R40's table is the `moves` part of a transition. -/
theorem sequencerTransitions : Obligations.SequencerTransitions := by
  intro st t hh h
  have hm := (blockStep_transition ((step_of_no_move hh).symm.trans h)).moves
  cases hs : st.seq <;> simp only [SeqMoves, hs] at hm ⊢
  case idle | done | eFlush => exact hm
  case dInit | eInit | eSeed | eIter => exact hm.1
  case dCycle => exact hm.imp And.left id
  case eLoad => exact hm.imp id fun ⟨hlen, hseq, _⟩ => ⟨hlen, hseq⟩

/-- Settles O17: the fields of a transition that it names. -/
theorem sequencerStepFrame : Obligations.SequencerStepFrame := by
  intro st t hh h
  have htr := blockStep_transition ((step_of_no_move hh).symm.trans h)
  refine ⟨htr.form.input, htr.op, htr.form.params, htr.host, htr.reply, htr.frees, fun hd he => ?_⟩
  obtain ⟨more, hmore⟩ := htr.out hd he
  exact ⟨more, hmore.symm⟩

/-- Settles O18: D_INIT by definition, D_CYCLE by the effect of a token cycle. -/
theorem decompressLeavesEncoderStateAlone : Obligations.DecompressLeavesEncoderStateAlone := by
  intro st t hh hseq h
  rw [step_of_no_move hh] at h
  rcases hseq with hs | hs <;> simp only [blockStep, hs] at h
  · cases h
    have hne : st.seq ≠ .dCycle := by rw [hs]; decide
    exact ⟨rfl, rfl, rfl, rfl, rfl, rfl, rfl, rfl, rfl, rfl, rfl, rfl, fun hc => absurd hc hne⟩
  · obtain ⟨u, hu, heffect⟩ := decoderCycle_effect st
    cases hu.symm.trans h
    have e := heffect.frame
    exact ⟨by rw [e], by rw [e], by rw [e], by rw [e], by rw [e], by rw [e], by rw [e], by rw [e], by rw [e],
      by rw [e], by rw [e], by rw [e], fun _ => heffect.upperRing⟩

/-- COMPRESS's phases do not write FLAGS (R37). -/
theorem blockStep_flags {st t : State} (hd : st.seq ≠ .dInit) (hc : st.seq ≠ .dCycle) (h : blockStep st = .next t) :
    t.flags = st.flags := by
  cases hs : st.seq <;> simp only [blockStep, hs] at h
  case dInit => exact absurd hs hd
  case dCycle => exact absurd hs hc
  case idle | done | eInit => cases h; rfl
  case eLoad => cases h; rw [encoderLoad_frame]
  case eSeed => rw [eq_of_encoderSeed (outcomeOf_eq_next h)]
  case eIter =>
    obtain ⟨-, -, hflags, -⟩ := encoderIter_frame (outcomeOf_eq_next h)
    exact hflags
  case eFlush => cases h; rw [(encoderFlush_frame st).1]

/-- Settles O19: FLAGS phase by phase, RING by the progress of the slide. -/
theorem compressFrame : Obligations.CompressFrame := by
  intro st t hh hop h0 h
  rw [step_of_no_move hh] at h
  have hne : ∀ q : Seq, (q = .dInit ∨ q = .dCycle) → st.seq ≠ q := by
    rintro q (rfl | rfl) hs <;> simp [State.opMatchesSeq, hs, h0] at hop
  refine ⟨blockStep_flags (hne _ (.inl rfl)) (hne _ (.inr rfl)) h, fun hs => ?_⟩
  simp only [blockStep, hs] at h
  obtain ⟨-, -, hring⟩ := encoderIter_keeps (outcomeOf_eq_next h)
  exact hring

end Sys2Proof.Machine

/-! # The sequencer does not look at the host's moves (spec/43_host_interface.md R220, R302)

Every procedure of the block answers the same with other moves waiting at the port: it commutes with replacing them. -/

namespace Sys2Proof.Machine

/-- st with other host moves waiting at the port. -/
def withHost (host : List HostMove) (st : State) : State := { st with host := host }

/-- A procedure's result with other host moves waiting. -/
def resultWithHost (host : List HostMove) (x : Except Fault State) : Except Fault State :=
  match x with
  | .ok st => .ok (withHost host st)
  | .error f => .error f

/-- A step's outcome with other host moves waiting. -/
def outcomeWithHost (host : List HostMove) (x : Host.Outcome State Fault Refusal) : Host.Outcome State Fault Refusal :=
  andThen x fun st => .next (withHost host st)

/-- One turn of the load, where an input byte remains (R142). -/
theorem loadLoop_succ_of_input {n : Nat} {st : State} {c : Byte} (h : st.input[st.ip]? = some c) :
    loadLoop (n + 1) st = loadLoop n
      { (st.advance 1).ringWrite (Config.initPos.toNat + st.len.toNat) c with len := st.len + 1#5 } := by
  simp only [loadLoop, State.inByte?, h]

/-- The load ends where none does (R142). -/
theorem loadLoop_of_end {n : Nat} {st : State} (h : st.input[st.ip]? = none) : loadLoop n st = st := by
  cases n with
  | zero => rfl
  | succ n => simp only [loadLoop, State.inByte?, h]

section
variable (host : List HostMove)

@[simp] theorem resultWithHost_ok (st : State) : resultWithHost host (.ok st) = .ok (withHost host st) := rfl
@[simp] theorem outcomeWithHost_next (st : State) : outcomeWithHost host (.next st) = .next (withHost host st) := rfl

/-! ## Reads and writes -/

section
variable (st : State)
@[simp] theorem keyByte_withHost (p : Pos) (i : Nat) : (withHost host st).keyByte p i = st.keyByte p i := rfl
@[simp] theorem lsonAt_withHost (j : TreeIdx) : (withHost host st).lsonAt j = st.lsonAt j := rfl
@[simp] theorem rsonAt_withHost (j : TreeIdx) : (withHost host st).rsonAt j = st.rsonAt j := rfl
@[simp] theorem dadAt_withHost (j : TreeIdx) : (withHost host st).dadAt j = st.dadAt j := rfl
@[simp] theorem matchLen_withHost : (withHost host st).matchLen = st.matchLen := rfl
@[simp] theorem unread_withHost : (withHost host st).unread = st.unread := rfl
@[simp] theorem inAvail_withHost : (withHost host st).inAvail = st.inAvail := rfl
@[simp] theorem r_withHost : (withHost host st).r = st.r := rfl
@[simp] theorem s_withHost : (withHost host st).s = st.s := rfl
@[simp] theorem advance_withHost (n : Nat) : (withHost host st).advance n = withHost host (st.advance n) := rfl
@[simp] theorem stop_withHost : (withHost host st).stop = withHost host st.stop := rfl
@[simp] theorem setLson_withHost (j v : TreeIdx) :
    (withHost host st).setLson j v = withHost host (st.setLson j v) := rfl
@[simp] theorem setRson_withHost (j v : TreeIdx) :
    (withHost host st).setRson j v = withHost host (st.setRson j v) := rfl
@[simp] theorem setDad_withHost (j v : TreeIdx) :
    (withHost host st).setDad j v = withHost host (st.setDad j v) := rfl
end

/-! ## The match finder -/

@[simp] theorem compareKeys_withHost (st : State) (r p : Pos) (n i : Nat) :
    compareKeys (withHost host st) r p n i = compareKeys st r p n i := by
  induction n generalizing i with
  | zero => rfl
  | succ n ih => simp only [compareKeys, keyByte_withHost, ih]

@[simp] theorem attachNode_withHost (st : State) (r : Pos) (p : TreeIdx) (cmp : Int) :
    attachNode (withHost host st) r p cmp = withHost host (attachNode st r p cmp) := by
  unfold attachNode
  split <;> rfl

@[simp] theorem relinkParent_withHost (st : State) (p q : TreeIdx) :
    relinkParent (withHost host st) p q = withHost host (relinkParent st p q) := by
  simp only [relinkParent, rsonAt_withHost, dadAt_withHost, setRson_withHost, setLson_withHost,
    apply_ite (withHost host)]
  rfl

@[simp] theorem replaceNode_withHost (st : State) (r p : Pos) :
    replaceNode (withHost host st) r p = withHost host (replaceNode st r p) := by
  simp [replaceNode]

@[simp] theorem promoteChild_withHost (st : State) (p q : TreeIdx) :
    promoteChild (withHost host st) p q = withHost host (promoteChild st p q) := by
  simp [promoteChild]

@[simp] theorem takeRightSubtree_withHost (st : State) (p q : TreeIdx) :
    takeRightSubtree (withHost host st) p q = withHost host (takeRightSubtree st p q) := rfl

@[simp] theorem unlinkPredecessor_withHost (st : State) (p q : TreeIdx) :
    unlinkPredecessor (withHost host st) p q = withHost host (unlinkPredecessor st p q) := rfl

@[simp] theorem recordMatch_withHost (st : State) (p : Pos) (i : Nat) :
    recordMatch (withHost host st) p i = withHost host (recordMatch st p i) := by
  simp only [recordMatch, matchLen_withHost, apply_ite (withHost host)]
  rfl

theorem descend_withHost (r : Pos) (fuel : Nat) (st : State) (p : TreeIdx) (cmp : Int) :
    descend r fuel (withHost host st) p cmp = resultWithHost host (descend r fuel st p cmp) := by
  induction fuel generalizing st p cmp with
  | zero => rfl
  | succ fuel ih =>
    simp only [descend, rsonAt_withHost, lsonAt_withHost, attachNode_withHost, compareKeys_withHost,
      recordMatch_withHost, replaceNode_withHost, matchLen_withHost, ih]
    generalize (if 0 ≤ cmp then st.rsonAt p else st.lsonAt p) = child
    by_cases hnil : child = nilIdx
    · simp only [if_pos hnil, resultWithHost_ok]
    · simp only [if_neg hnil]
      cases nodeOf? child with
      | none => rfl
      | some q => simp only [apply_ite (resultWithHost host), resultWithHost_ok]

@[simp] theorem insertNode_withHost (r : Pos) (st : State) :
    insertNode r (withHost host st) = resultWithHost host (insertNode r st) := by
  simp only [insertNode, setRson_withHost, setLson_withHost, keyByte_withHost, ← descend_withHost]
  rfl

@[simp] theorem rightmost_withHost (st : State) (fuel : Nat) (q : TreeIdx) :
    rightmost (withHost host st) fuel q = rightmost st fuel q := by
  induction fuel generalizing q with
  | zero => rfl
  | succ fuel ih => simp only [rightmost, rsonAt_withHost, ih]

@[simp] theorem deleteTwoChildren_withHost (st : State) (p : TreeIdx) :
    deleteTwoChildren (withHost host st) p = resultWithHost host (deleteTwoChildren st p) := by
  simp only [deleteTwoChildren, rsonAt_withHost, lsonAt_withHost, rightmost_withHost, unlinkPredecessor_withHost,
    takeRightSubtree_withHost, promoteChild_withHost]
  split
  · rfl
  · cases rightmost st Config.walkBound (st.rsonAt (st.lsonAt p)) <;> rfl

@[simp] theorem deleteNode_withHost (p : Pos) (st : State) :
    deleteNode p (withHost host st) = resultWithHost host (deleteNode p st) := by
  simp only [deleteNode, dadAt_withHost, rsonAt_withHost, lsonAt_withHost, promoteChild_withHost,
    deleteTwoChildren_withHost, apply_ite (resultWithHost host), resultWithHost_ok]

/-! ## COMPRESS -/

theorem loadLoop_withHost (n : Nat) (st : State) :
    loadLoop n (withHost host st) = withHost host (loadLoop n st) := by
  induction n generalizing st with
  | zero => rfl
  | succ n ih =>
    cases hin : st.input[st.ip]? with
    | none => rw [loadLoop_of_end hin, loadLoop_of_end (st := withHost host st) hin]
    | some c => rw [loadLoop_succ_of_input hin, loadLoop_succ_of_input (st := withHost host st) hin, ← ih]; rfl

theorem encoderLoad_withHost (st : State) : (withHost host st).encoderLoad = withHost host st.encoderLoad := by
  have hload : loadLoop Config.maxMatch { withHost host st with len := 0#5 } =
      withHost host (loadLoop Config.maxMatch { st with len := 0#5 }) :=
    loadLoop_withHost host Config.maxMatch { st with len := 0#5 }
  simp only [State.encoderLoad, hload]
  generalize loadLoop Config.maxMatch { st with len := 0#5 } = s
  by_cases h : s.len = 0#5
  · rw [if_pos h, if_pos (show (withHost host s).len = 0#5 from h)]; rfl
  · rw [if_neg h, if_neg (show (withHost host s).len ≠ 0#5 from h)]; rfl

theorem seedLoop_withHost (n k : Nat) (st : State) :
    seedLoop n k (withHost host st) = resultWithHost host (seedLoop n k st) := by
  induction n generalizing k st with
  | zero => rfl
  | succ n ih =>
    simp only [seedLoop, r_withHost, insertNode_withHost]
    cases insertNode (st.r - BitVec.ofNat 12 k) st with
    | error f => rfl
    | ok s => exact ih _ s

theorem encoderSeed_withHost (st : State) :
    (withHost host st).encoderSeed = resultWithHost host st.encoderSeed := by
  simp only [State.encoderSeed, seedLoop_withHost]
  cases seedLoop Config.seedNodes 1 st with
  | error f => rfl
  | ok s =>
    simp only [resultWithHost_ok, r_withHost, insertNode_withHost]
    cases insertNode s.r s <;> rfl

theorem pushCode_withHost (st : State) (v : Byte) :
    (withHost host st).pushCode v = resultWithHost host (st.pushCode v) := by
  by_cases h : st.codePtr.toNat < 17
  · rw [pushCode_of_lt v h, pushCode_of_lt (st := withHost host st) v h]; rfl
  · simp only [State.pushCode]
    rw [dif_neg h, dif_neg (show ¬ (withHost host st).codePtr.toNat < 17 from h)]; rfl

theorem emitMatch_withHost (st : State) : emitMatch (withHost host st) = resultWithHost host (emitMatch st) := by
  have hpush : (withHost host st).markMatch.pushCode (matchByte0 st.matchPos) =
      resultWithHost host (st.markMatch.pushCode (matchByte0 st.matchPos)) := pushCode_withHost host st.markMatch _
  show (match (withHost host st).markMatch.pushCode (matchByte0 st.matchPos) with | .error f => _ | .ok s => _) = _
  rw [hpush]
  simp only [emitMatch]
  cases st.markMatch.pushCode (matchByte0 st.matchPos) with
  | error f => rfl
  | ok s => exact pushCode_withHost host s _

theorem chooseToken_withHost (st : State) :
    (withHost host st).chooseToken = resultWithHost host st.chooseToken := by
  have hlit : emitLiteral { withHost host st with matchLen := 1#5 } =
      resultWithHost host (emitLiteral { st with matchLen := 1#5 }) :=
    pushCode_withHost host { st with matchLen := 1#5 } _
  simp only [State.chooseToken, matchLen_withHost, hlit, emitMatch_withHost, apply_ite (resultWithHost host)]

theorem clampMatch_withHost (st : State) : (withHost host st).clampMatch = withHost host st.clampMatch := by
  rw [clampMatch_eq, clampMatch_eq]
  rfl

theorem closeToken_withHost (st : State) : (withHost host st).closeToken = withHost host st.closeToken := by
  simp only [State.closeToken, apply_ite (withHost host)]
  rfl

theorem slideByte_withHost (c : Byte) (st : State) :
    slideByte c (withHost host st) = resultWithHost host (slideByte c st) := by
  simp only [slideByte, s_withHost, deleteNode_withHost]
  cases deleteNode st.s st with
  | error f => rfl
  | ok s =>
    have hwrite : ((withHost host s).mirrorWrite c).advanceWindow = withHost host (s.mirrorWrite c).advanceWindow := rfl
    simp only [resultWithHost_ok, hwrite, r_withHost, insertNode_withHost]
    cases insertNode (s.mirrorWrite c).advanceWindow.r (s.mirrorWrite c).advanceWindow <;> rfl

/-- The end of a turn of R151: the insertion, left out once LEN is 0. -/
theorem insertUnlessEmpty_withHost (st : State) :
    (if (withHost host st).len = 0#5 then .ok (withHost host st)
      else insertNode (withHost host st).r (withHost host st)) =
    resultWithHost host (if st.len = 0#5 then .ok st else insertNode st.r st) := by
  rw [insertNode_withHost, apply_ite (resultWithHost host)]
  rfl

theorem tailByte_withHost (st : State) : tailByte (withHost host st) = resultWithHost host (tailByte st) := by
  have hdelete : deleteNode st.s { withHost host st with i := st.i + 1#5 } =
      resultWithHost host (deleteNode st.s { st with i := st.i + 1#5 }) :=
    deleteNode_withHost host st.s { st with i := st.i + 1#5 }
  show (match deleteNode st.s { withHost host st with i := st.i + 1#5 } with | .error f => _ | .ok s => _) = _
  rw [hdelete]
  simp only [tailByte]
  cases deleteNode st.s { st with i := st.i + 1#5 } with
  | error f => rfl
  | ok s => exact insertUnlessEmpty_withHost host { s.advanceWindow with len := s.len - 1#5 }

theorem slideTurn_withHost (st : State) : slideTurn (withHost host st) = resultWithHost host (slideTurn st) := by
  cases hin : st.input[st.ip]? with
  | none =>
    rw [slideTurn_of_end hin, slideTurn_of_end (st := withHost host st) hin]
    exact tailByte_withHost host st
  | some c =>
    rw [slideTurn_of_input hin, slideTurn_of_input (st := withHost host st) hin]
    exact slideByte_withHost host c (st.advance 1)

theorem slideTurns_withHost (l : List Nat) (st : State) :
    l.foldlM (fun s _ => slideTurn s) (withHost host st) =
      resultWithHost host (l.foldlM (fun s _ => slideTurn s) st) := by
  induction l generalizing st with
  | nil => rfl
  | cons a l ih =>
    rw [List.foldlM_cons, List.foldlM_cons, slideTurn_withHost]
    cases slideTurn st with
    | error f => rfl
    | ok s => exact ih s

theorem slideWindow_withHost (st : State) :
    (withHost host st).slideWindow = resultWithHost host st.slideWindow := by
  rw [slideWindow_eq_fold, slideWindow_eq_fold]
  exact slideTurns_withHost host _ { st with lastLen := st.matchLen, i := 0#5 }

theorem loopTest_withHost (st : State) : (withHost host st).loopTest = withHost host st.loopTest := by
  simp only [State.loopTest, apply_ite (withHost host)]
  rfl

theorem encoderIter_withHost (st : State) :
    (withHost host st).encoderIter = resultWithHost host st.encoderIter := by
  simp only [State.encoderIter, clampMatch_withHost, chooseToken_withHost]
  cases st.clampMatch.chooseToken with
  | error f => rfl
  | ok s =>
    simp only [resultWithHost_ok, closeToken_withHost, slideWindow_withHost]
    cases s.closeToken.slideWindow with
    | error f => rfl
    | ok u => simp only [resultWithHost_ok, loopTest_withHost]

theorem encoderFlush_withHost (st : State) : (withHost host st).encoderFlush = withHost host st.encoderFlush := by
  simp only [State.encoderFlush, ← stop_withHost, apply_ite (withHost host)]
  rfl

/-! ## DECOMPRESS -/

theorem copyMatch_withHost (pos : Pos) (n k : Nat) (st : State) :
    copyMatch pos n k (withHost host st) = withHost host (copyMatch pos n k st) := by
  induction n generalizing k st with
  | zero => rfl
  | succ n ih => exact ih (k + 1) (st.emitDecoded (st.windowByte (matchSource pos k)))

theorem exec_withHost (i : Instr) (st : State) : exec i (withHost host st) = outcomeWithHost host (exec i st) := by
  cases i with
  | ctrl c =>
    simp only [exec, execCtrl, inAvail_withHost, apply_ite (outcomeWithHost host)]
    rfl
  | lit d =>
    simp only [exec, execLit, inAvail_withHost, apply_ite (outcomeWithHost host)]
    rfl
  | matchTok pos len =>
    simp only [exec, execMatch, advance_withHost, inAvail_withHost, stop_withHost, copyMatch_withHost,
      apply_ite (outcomeWithHost host), outcomeWithHost_next]
  | cmdCompress input =>
    simp only [exec, execCmdCompress, State.startCall, apply_ite (outcomeWithHost host)]
    rfl
  | cmdDecompress input =>
    simp only [exec, execCmdDecompress, State.startCall, apply_ite (outcomeWithHost host)]
    rfl

theorem runElement_withHost (k : Kind) (st : State) :
    runElement k (withHost host st) = outcomeWithHost host (runElement k st) := by
  simp only [runElement, unread_withHost]
  cases decode k st.unread with
  | error e => rfl
  | ok x => exact exec_withHost host x.1 st

theorem afterRefill_withHost (st : State) :
    afterRefill (withHost host st) = outcomeWithHost host (afterRefill st) := by
  have htoken : runToken (withHost host st) = outcomeWithHost host (runToken st) :=
    runElement_withHost host st.tokenKind st
  simp only [afterRefill, htoken, apply_ite (outcomeWithHost host)]
  rfl

theorem decoderCycle_withHost (st : State) :
    decoderCycle (withHost host st) = outcomeWithHost host (decoderCycle st) := by
  have hshift : (withHost host st).shiftFlags = withHost host st.shiftFlags := rfl
  cases hn : st.shiftFlags.needsRefill with
  | false =>
    rw [decoderCycle_of_no_refill hn, decoderCycle_of_no_refill (st := withHost host st) hn, hshift]
    exact runElement_withHost host _ _
  | true =>
    simp only [decoderCycle, if_pos hn, hshift, if_pos (show (withHost host st.shiftFlags).needsRefill = true from hn),
      runElement_withHost]
    cases runElement .control st.shiftFlags with
    | next s => exact afterRefill_withHost host s
    | fault f => rfl
    | refused f => rfl

/-! ## The sequencer -/

theorem outcomeOf_withHost (x : Except Fault State) :
    outcomeOf (resultWithHost host x) = outcomeWithHost host (outcomeOf x) := by
  cases x <;> rfl

/-- The sequencer's transition is the same whatever the host does next (R220, R302). -/
theorem blockStep_withHost (st : State) : blockStep (withHost host st) = outcomeWithHost host (blockStep st) := by
  have hseq : (withHost host st).seq = st.seq := rfl
  cases hs : st.seq <;> simp only [blockStep, hseq, hs]
  case idle | dInit | eInit | done => rfl
  case dCycle => exact decoderCycle_withHost host st
  case eLoad => exact congrArg Host.Outcome.next (encoderLoad_withHost host st)
  case eSeed => rw [encoderSeed_withHost, outcomeOf_withHost]
  case eIter => rw [encoderIter_withHost, outcomeOf_withHost]
  case eFlush => exact congrArg Host.Outcome.next (encoderFlush_withHost host st)

end

theorem outcomeOf_ne_refused (x : Except Fault State) (f : Refusal) : outcomeOf x ≠ .refused f := by
  cases x <;> exact nofun

/-- The sequencer itself refuses nothing (R301). -/
theorem blockStep_ne_refused (st : State) (f : Refusal) : blockStep st ≠ .refused f := by
  cases hs : st.seq <;> simp only [blockStep, hs]
  case idle | dInit | eInit | eLoad | eFlush | done => exact nofun
  case dCycle =>
    obtain ⟨t, ht, -⟩ := decoderCycle_effect st
    rw [ht]
    exact nofun
  case eSeed | eIter => exact outcomeOf_ne_refused _ f

/-- Settles O12: both steps are `blockStep st`, with other moves left waiting. -/
theorem passLetsTheSequencerStep : Obligations.PassLetsTheSequencerStep := by
  intro st rest hh
  have hpass : step st = outcomeWithHost rest (blockStep st) :=
    (step_of_move hh).trans (blockStep_withHost rest st)
  have hnone : step { st with host := [] } = outcomeWithHost [] (blockStep st) :=
    (step_of_no_move rfl).trans (blockStep_withHost [] st)
  rw [hpass, hnone]
  cases hb : blockStep st with
  | next s => exact ⟨fun u hu => by cases hu; rfl, nofun, nofun⟩
  | fault f => exact ⟨nofun, fun g hg => by cases hg; rfl, nofun⟩
  | refused f => exact absurd hb (blockStep_ne_refused st f)

end Sys2Proof.Machine

/-! # The encoding of a match and its inverse (spec/30_encoding.md R81 to R94)

Both bytes of a match, and both fields read from two bytes, as numbers: the round trips are then arithmetic. -/

namespace Sys2Proof.Machine

/-! ## The fields of two bytes -/

theorem matchPosOf_eq_append (i j : Byte) : matchPosOf i j = (j.extractLsb' 4 4 ++ i : BitVec (4 + 8)) := by
  apply BitVec.eq_of_getLsbD_eq
  intro k hk
  rw [BitVec.getLsbD_append]
  interval_cases k <;> simp [matchPosOf]

/-- The position that two bytes hold: the low byte first, then the high nibble of the second (R84). -/
theorem toNat_matchPosOf (i j : Byte) : (matchPosOf i j).toNat = i.toNat + 256 * (j.toNat / 16) := by
  rw [matchPosOf_eq_append, BitVec.toNat_append, ← Nat.shiftLeft_add_eq_or_of_lt i.isLt, BitVec.extractLsb'_toNat,
    Nat.shiftLeft_eq, Nat.shiftRight_eq_div_pow]
  have := j.isLt
  omega

/-- The length that two bytes hold: 3 more than the low nibble of the second (R84). -/
theorem matchLenOf_eq (j : Byte) : matchLenOf j = j.toNat % 16 + 3 := by
  rw [matchLenOf, BitVec.toNat_and, show (0x0F#8).toNat = 2 ^ 4 - 1 from rfl, Nat.and_two_pow_sub_one_eq_mod]

/-! ## The bytes of a match -/

theorem toNat_matchByte0 (pos : Pos) : (matchByte0 pos).toNat = pos.toNat % 256 := by
  rw [matchByte0, BitVec.toNat_setWidth, BitVec.toNat_and, show (0xFF#12).toNat = 2 ^ 8 - 1 from rfl,
    Nat.and_two_pow_sub_one_eq_mod, Nat.mod_mod]

theorem matchByte1_eq_append (pos : Pos) {len : Nat} (h : len ≤ 18) :
    matchByte1 pos len = pos.extractLsb' 8 4 ++ BitVec.ofNat 4 (len - 3) := by
  have hlow : ∀ m < 16, BitVec.ofNat 8 m = 0#4 ++ BitVec.ofNat 4 m := by decide
  have hhigh : ((pos >>> 4) &&& 0xF0#12).setWidth 8 = pos.extractLsb' 8 4 ++ 0#4 := by
    apply BitVec.eq_of_getLsbD_eq
    intro k hk
    rw [BitVec.getLsbD_append]
    interval_cases k <;> simp
  rw [matchByte1, hhigh, hlow _ (by omega), BitVec.or_append, BitVec.or_zero, BitVec.zero_or]

theorem toNat_matchByte1 (pos : Pos) {len : Nat} (h : len ≤ 18) :
    (matchByte1 pos len).toNat = pos.toNat / 256 * 16 + (len - 3) := by
  rw [matchByte1_eq_append pos h, BitVec.toNat_append, ← Nat.shiftLeft_add_eq_or_of_lt (BitVec.isLt _),
    BitVec.extractLsb'_toNat, Nat.shiftLeft_eq, Nat.shiftRight_eq_div_pow, BitVec.toNat_ofNat]
  have := pos.isLt
  omega

/-! ## Both round trips of a match -/

theorem matchPosOf_matchBytes (pos : Pos) {len : Nat} (h : len ≤ 18) :
    matchPosOf (matchByte0 pos) (matchByte1 pos len) = pos := by
  apply BitVec.eq_of_toNat_eq
  rw [toNat_matchPosOf, toNat_matchByte0, toNat_matchByte1 pos h]
  omega

theorem matchLenOf_matchByte1 (pos : Pos) {len : Nat} (h3 : 3 ≤ len) (h : len ≤ 18) :
    matchLenOf (matchByte1 pos len) = len := by
  rw [matchLenOf_eq, toNat_matchByte1 pos h]
  omega

theorem matchByte0_matchPosOf (i j : Byte) : matchByte0 (matchPosOf i j) = i := by
  have hi := i.isLt
  apply BitVec.eq_of_toNat_eq
  rw [toNat_matchByte0, toNat_matchPosOf]
  omega

theorem matchByte1_matchFields (i j : Byte) : matchByte1 (matchPosOf i j) (matchLenOf j) = j := by
  have hi := i.isLt
  apply BitVec.eq_of_toNat_eq
  rw [toNat_matchByte1 _ (matchLenOf_bounds j).2, toNat_matchPosOf, matchLenOf_eq]
  omega

theorem wf_matchTok_iff (pos : Pos) (len : Nat) : (Instr.matchTok pos len).wf = true ↔ 3 ≤ len ∧ len ≤ 18 := by
  simp [Instr.wf]

/-! ## Elements and commands -/

theorem encode_matchTok (pos : Pos) {len : Nat} (h : len ≤ 18) :
    encode (.matchTok pos len) =
      [BitVec.ofNat 8 (pos.toNat % 256), BitVec.ofNat 8 (pos.toNat / 256 * 16 + (len - 3))] := by
  rw [← toNat_matchByte0, ← toNat_matchByte1 pos h, BitVec.ofNat_toNat, BitVec.ofNat_toNat, BitVec.setWidth_eq,
    BitVec.setWidth_eq]
  rfl

/-- Under its kind, a well-formed element is read back from its encoding, whatever follows (R84, R85). -/
theorem decode_encode {i : Instr} {k : Kind} (rest : List Byte) (hwf : i.wf = true) (hk : i.kind? = some k) :
    decode k (encode i ++ rest) = .ok (i, rest) := by
  cases i with
  | ctrl c => cases hk; rfl
  | lit d => cases hk; rfl
  | matchTok pos len =>
    cases hk
    obtain ⟨h3, h18⟩ := (wf_matchTok_iff pos len).mp hwf
    have hdecode : decode .matched (encode (.matchTok pos len) ++ rest) =
        .ok (.matchTok (matchPosOf (matchByte0 pos) (matchByte1 pos len)) (matchLenOf (matchByte1 pos len)), rest) := rfl
    rw [hdecode, matchPosOf_matchBytes pos h18, matchLenOf_matchByte1 pos h3 h18]
  | cmdCompress b => cases hk
  | cmdDecompress b => cases hk

theorem decodeCommand_encodeCommand {i : Instr} {op : BitVec 1} {b : List Byte}
    (h : encodeCommand i = some (op, b)) : decodeCommand op b = i := by
  cases i with
  | ctrl c => cases h
  | lit d => cases h
  | matchTok pos len => cases h
  | cmdCompress input => cases h; rfl
  | cmdDecompress input => cases h; rfl

/-- Settles O2: the bytes of a match, then the round trips of elements and commands. -/
theorem decodeInvertsEncode : Obligations.DecodeInvertsEncode :=
  ⟨fun pos _ _ h18 => encode_matchTok pos h18, fun _ _ rest => decode_encode rest,
    fun _ _ _ => decodeCommand_encodeCommand⟩

/-- Settles O3, by kind and number of bytes. -/
theorem everyByteStringDecodes : Obligations.EveryByteStringDecodes := by
  intro k bytes
  match k, bytes with
  | .control, [] => exact .inr ⟨_, rfl, rfl, by simp⟩
  | .control, c :: rest => exact .inl ⟨.ctrl c, rest, rfl, rfl, rfl, rfl⟩
  | .literal, [] => exact .inr ⟨_, rfl, rfl, by simp⟩
  | .literal, d :: rest => exact .inl ⟨.lit d, rest, rfl, rfl, rfl, rfl⟩
  | .matched, [] => exact .inr ⟨_, rfl, rfl, by simp⟩
  | .matched, [_] => exact .inr ⟨_, rfl, rfl, by simp⟩
  | .matched, i :: j :: rest =>
    refine .inl ⟨_, rest, rfl, (wf_matchTok_iff _ _).mpr (matchLenOf_bounds j), rfl, ?_⟩
    show matchByte0 (matchPosOf i j) :: matchByte1 (matchPosOf i j) (matchLenOf j) :: rest = i :: j :: rest
    rw [matchByte0_matchPosOf, matchByte1_matchFields]

/-- Settles O1: both sides are words and terms without variables. -/
theorem writtenOutWordsDecode : Obligations.WrittenOutWordsDecode := by
  unfold Obligations.WrittenOutWordsDecode
  decide

/-- Settles O7: the move is taken, and the OP bit selects the command. -/
theorem portRunsTheCommand : Obligations.PortRunsTheCommand := by
  intro st op b rest hh
  have h : step st = exec (decodeCommand op b) { st with host := rest } := step_of_move hh
  exact ⟨fun h0 => by rw [h, h0]; rfl, fun h1 => by rw [h, h1]; rfl⟩

end Sys2Proof.Machine

/-! # The output of COMPRESS as groups of tokens (spec/30_encoding.md R88, R93)

Every iteration adds one token to the open group, which stands encoded in CODE_BUF; a group that reaches 8 tokens goes to
OUT.  The tokens are the instructions that `decode` reads back. -/

namespace Sys2Proof.Machine

/-- A token of a group: a well-formed literal or match (R86). -/
def IsToken (i : Instr) : Prop := i.wf = true ∧ (i.kind? = some .literal ∨ i.kind? = some .matched)

theorem isToken_lit (d : Byte) : IsToken (.lit d) := ⟨rfl, .inl rfl⟩

theorem isToken_matchTok (pos : Pos) {len : Nat} (h3 : 3 ≤ len) (h18 : len ≤ 18) : IsToken (.matchTok pos len) :=
  ⟨(wf_matchTok_iff pos len).mpr ⟨h3, h18⟩, .inr rfl⟩

/-! ## Encoded groups -/

/-- A token added at the end sets its own control bit (R93). -/
theorem groupControl_append (tokens : List Instr) (tok : Instr) (n : Nat) :
    groupControl (tokens ++ [tok]) n =
      groupControl tokens n ||| (if tok.controlBit then BitVec.ofNat 8 (2 ^ (n + tokens.length)) else 0#8) := by
  induction tokens generalizing n with
  | nil => simp [groupControl]
  | cons t tokens ih =>
    simp only [List.cons_append, groupControl, ih, BitVec.or_assoc, List.length_cons]
    rw [Nat.add_right_comm, Nat.add_assoc]

theorem encodeGroup_append_lit (tokens : List Instr) (d : Byte) :
    encodeGroup (tokens ++ [.lit d]) = encodeGroup tokens ++ [d] := by
  simp [encodeGroup, groupControl_append, Instr.controlBit, encode]

theorem encodeGroup_append_matchTok (tokens : List Instr) (pos : Pos) (len : Nat) :
    encodeGroup (tokens ++ [.matchTok pos len]) =
      (groupControl tokens 0 ||| BitVec.ofNat 8 (2 ^ tokens.length)) ::
        (tokens.flatMap encode ++ [matchByte0 pos] ++ [matchByte1 pos len]) := by
  simp [encodeGroup, groupControl_append, Instr.controlBit, encode]

theorem encode_ne_nil {i : Instr} (h : IsToken i) : encode i ≠ [] := by
  cases i with
  | ctrl _ | lit _ | matchTok _ _ => exact List.cons_ne_nil _ _
  | cmdCompress _ | cmdDecompress _ => obtain ⟨-, hk | hk⟩ := h <;> cases hk

/-- A group's encoding is longer than its control byte exactly when it has tokens. -/
theorem one_lt_length_encodeGroup {tokens : List Instr} (h : ∀ i ∈ tokens, IsToken i) :
    1 < (encodeGroup tokens).length ↔ tokens ≠ [] := by
  cases tokens with
  | nil => simp [encodeGroup]
  | cons t rest =>
    have := List.length_pos_iff.mpr (encode_ne_nil (h t (by simp)))
    simp [encodeGroup]
    omega

/-! ## The group buffer -/

/-- CODE_BUF[0..CODE_PTR-1] is the encoding of these tokens. -/
structure HoldsGroup (st : State) (tokens : List Instr) : Prop where
  code : st.pendingCode = encodeGroup tokens
  ptr : st.codePtr.toNat = (encodeGroup tokens).length

theorem pushCode_pendingCode {st t : State} {v : Byte} (h : st.pushCode v = .ok t) :
    t.pendingCode = st.pendingCode ++ [v] ∧ t.codePtr.toNat = st.codePtr.toNat + 1 := by
  obtain ⟨hp, rfl⟩ := pushCode_ok h
  have hptr : (st.codePtr + 1#5).toNat = st.codePtr.toNat + 1 := by
    simp only [BitVec.toNat_add, BitVec.toNat_ofNat]
    omega
  refine ⟨?_, hptr⟩
  show ((st.codeBuf.set st.codePtr.toNat v hp).toList).take (st.codePtr + 1#5).toNat = _
  rw [hptr, List.take_add_one, Vector.toList_set, List.take_set_of_le (Nat.le_refl _)]
  simp [State.pendingCode, hp]

/-- Marking a match sets a bit of the first pending byte, the control byte (R148). -/
theorem markMatch_pendingCode {st : State} {c : Byte} {rest : List Byte} (h : st.pendingCode = c :: rest) :
    st.markMatch.pendingCode = (c ||| st.mask) :: rest := by
  have hpos : 0 < st.codePtr.toNat := by
    apply Nat.pos_of_ne_zero
    intro h0
    simp [State.pendingCode, h0] at h
  have hc : st.codeBuf[0] = c := by
    have := congrArg (·[0]?) h
    simpa [State.pendingCode, List.getElem?_take, hpos] using this
  calc st.markMatch.pendingCode = st.pendingCode.set 0 (c ||| st.mask) := by
        simp only [State.pendingCode, State.markMatch_codeBuf, State.markMatch_codePtr, Vector.toList_set, hc,
          List.take_set]
    _ = (c ||| st.mask) :: rest := by rw [h]; rfl

/-- The token that `State.chooseToken` emits (R146 to R148). -/
def State.token (st : State) : Instr :=
  if st.matchLen.toNat ≤ 2 then .lit (st.windowByte st.r) else .matchTok st.matchPos st.matchLen.toNat

theorem isToken_token {st : State} (h : st.matchLen.toNat ≤ 18) : IsToken st.token := by
  unfold State.token
  split
  · exact isToken_lit _
  · exact isToken_matchTok _ (by omega) h

theorem HoldsGroup.emitLiteral {st t : State} {tokens : List Instr} (hg : HoldsGroup st tokens)
    (h : emitLiteral st = .ok t) : HoldsGroup t (tokens ++ [.lit (st.windowByte st.r)]) := by
  obtain ⟨hcode, hptr⟩ := pushCode_pendingCode h
  rw [hg.code] at hcode
  rw [hg.ptr] at hptr
  exact ⟨by rw [hcode, encodeGroup_append_lit], by rw [hptr, encodeGroup_append_lit, List.length_append]; rfl⟩

theorem emitMatch_ok {st t : State} (h : emitMatch st = .ok t) :
    ∃ s, st.markMatch.pushCode (matchByte0 st.matchPos) = .ok s ∧
      s.pushCode (matchByte1 st.matchPos st.matchLen.toNat) = .ok t := by
  simp only [emitMatch] at h
  split at h
  · cases h
  · rename_i s hs
    exact ⟨s, hs, h⟩

theorem HoldsGroup.emitMatch {st t : State} {tokens : List Instr} (hg : HoldsGroup st tokens)
    (hmask : st.mask = BitVec.ofNat 8 (2 ^ tokens.length)) (h : emitMatch st = .ok t) :
    HoldsGroup t (tokens ++ [.matchTok st.matchPos st.matchLen.toNat]) := by
  obtain ⟨s, hs, ht⟩ := emitMatch_ok h
  obtain ⟨hcode, hptr⟩ := pushCode_pendingCode hs
  obtain ⟨hcode', hptr'⟩ := pushCode_pendingCode ht
  rw [markMatch_pendingCode hg.code, hmask] at hcode
  rw [State.markMatch_codePtr, hg.ptr] at hptr
  constructor
  · rw [hcode', hcode, encodeGroup_append_matchTok]
    rfl
  · rw [hptr', hptr, encodeGroup_append_matchTok]
    simp [encodeGroup]

/-- Token emission appends the chosen token to the open group (R146 to R148). -/
theorem HoldsGroup.chooseToken {st t : State} {tokens : List Instr} (hg : HoldsGroup st tokens)
    (hmask : st.mask = BitVec.ofNat 8 (2 ^ tokens.length)) (h : st.chooseToken = .ok t) :
    HoldsGroup t (tokens ++ [st.token]) := by
  unfold State.chooseToken at h
  unfold State.token
  split at h
  · rename_i hle
    rw [if_pos hle]
    have hg' : HoldsGroup { st with matchLen := 1#5 } tokens := ⟨hg.code, hg.ptr⟩
    exact hg'.emitLiteral h
  · rename_i hgt
    rw [if_neg hgt]
    exact hg.emitMatch hmask h

/-! ## Groups in OUT -/

/-- The encoder has emitted these full groups and holds these tokens, fewer than 8, of the next one (R32 to R34, R88). -/
structure Emitted (st : State) (full : List (List Instr)) (tokens : List Instr) : Prop where
  out : st.out = full.flatMap encodeGroup
  fullLength : ∀ g ∈ full, g.length = 8
  fullTokens : ∀ g ∈ full, ∀ i ∈ g, IsToken i
  openLength : tokens.length < 8
  openTokens : ∀ i ∈ tokens, IsToken i
  mask : st.mask = BitVec.ofNat 8 (2 ^ tokens.length)
  holds : HoldsGroup st tokens

/-- Only OUT, MASK, CODE_BUF and CODE_PTR are looked at. -/
theorem Emitted.congr {st t : State} {full : List (List Instr)} {tokens : List Instr} (h : Emitted st full tokens)
    (hout : t.out = st.out) (hmask : t.mask = st.mask) (hbuf : t.codeBuf = st.codeBuf)
    (hptr : t.codePtr = st.codePtr) : Emitted t full tokens where
  out := hout.trans h.out
  fullLength := h.fullLength
  fullTokens := h.fullTokens
  openLength := h.openLength
  openTokens := h.openTokens
  mask := hmask.trans h.mask
  holds := ⟨by rw [State.pendingCode, hbuf, hptr]; exact h.holds.code, by rw [hptr]; exact h.holds.ptr⟩

theorem closeToken_of_open {st : State} (h : st.mask <<< 1 ≠ 0#8) :
    st.closeToken = { st with mask := st.mask <<< 1 } := by
  unfold State.closeToken
  exact if_neg h

theorem closeToken_of_full {st : State} (h : st.mask <<< 1 = 0#8) :
    st.closeToken = { st with
      out := st.out ++ st.pendingCode, codeBuf := st.codeBuf.set 0 0x00#8, codePtr := 1#5, mask := 0x01#8 } := by
  unfold State.closeToken
  exact if_pos h

theorem shiftLeft_twoPow {k : Nat} (h : k < 8) : BitVec.ofNat 8 (2 ^ k) <<< 1 = BitVec.ofNat 8 (2 ^ (k + 1)) := by
  revert k
  decide

theorem take_one_set_zero (buf : Vector Byte 17) (v : Byte) : (buf.set 0 v).toList.take 1 = [v] := by
  simp [List.take_one, List.head?_eq_getElem?]

/-- The eighth token of a group sends it to OUT and opens an empty one; an earlier token stays in the buffer (R149).
Here s is st with tok added to the group buffer. -/
theorem Emitted.closeToken {st s : State} {full : List (List Instr)} {tokens : List Instr} {tok : Instr}
    (h : Emitted st full tokens) (hout : s.out = st.out) (hmask : s.mask = st.mask) (htok : IsToken tok)
    (hg : HoldsGroup s (tokens ++ [tok])) :
    (tokens.length < 7 ∧ Emitted s.closeToken full (tokens ++ [tok])) ∨
      (tokens.length = 7 ∧ Emitted s.closeToken (full ++ [tokens ++ [tok]]) []) := by
  have hlen := h.openLength
  have htokens : ∀ i ∈ tokens ++ [tok], IsToken i :=
    List.forall_mem_append.mpr ⟨h.openTokens, List.forall_mem_singleton.mpr htok⟩
  have hshift : s.mask <<< 1 = BitVec.ofNat 8 (2 ^ (tokens.length + 1)) := by
    rw [hmask, h.mask, shiftLeft_twoPow hlen]
  by_cases h7 : tokens.length = 7
  · right
    rw [closeToken_of_full (by rw [hshift, h7]; rfl)]
    refine ⟨h7, ?_, ?_, ?_, by simp, by simp, rfl, ⟨take_one_set_zero _ _, rfl⟩⟩
    · simp [hout, h.out, hg.code]
    · exact List.forall_mem_append.mpr ⟨h.fullLength, List.forall_mem_singleton.mpr (by simp [h7])⟩
    · exact List.forall_mem_append.mpr ⟨h.fullTokens, List.forall_mem_singleton.mpr htokens⟩
  · left
    have hopen : s.mask <<< 1 ≠ 0#8 := by
      have hpow : ∀ k < 8, k ≠ 7 → BitVec.ofNat 8 (2 ^ (k + 1)) ≠ 0#8 := by decide
      rw [hshift]
      exact hpow _ hlen h7
    rw [closeToken_of_open hopen]
    exact ⟨by omega, hout.trans h.out, h.fullLength, h.fullTokens, by simp; omega, htokens,
      by rw [List.length_append]; exact hshift, ⟨hg.code, hg.ptr⟩⟩

/-! ## An iteration -/

theorem slideWindow_matchLen {st t : State} (h : st.slideWindow = .ok t) (hm : st.matchLen.toNat ≤ 18) :
    t.matchLen.toNat ≤ 18 := by
  obtain ⟨s, hslide, htail⟩ := slideWindow_ok h
  have hs : s.matchLen.toNat ≤ 18 := by
    refine slideLoop_induct (fun u => u.matchLen.toNat ≤ 18) ?_ ?_ hslide
    · intro u c v _ _ _ hv
      obtain ⟨-, -, -, -, -, -, -, hlen, -⟩ := slideByte_effect hv
      exact hlen
    · exact hm
  refine tailLoop_induct (fun u => u.matchLen.toNat ≤ 18) (fun u v hu _ hv => ?_) hs htail
  obtain ⟨-, -, -, -, -, -, -, hlen, -⟩ := tailByte_effect hv
  exact hlen hu

/-- An iteration adds the chosen token to what was emitted (R141, R146 to R149). -/
theorem Emitted.encoderIter {st t : State} {full : List (List Instr)} {tokens : List Instr}
    (h : Emitted st full tokens) (hm : st.matchLen.toNat ≤ 18) (hstep : st.encoderIter = .ok t) :
    t.matchLen.toNat ≤ 18 ∧
      ((tokens.length < 7 ∧ Emitted t full (tokens ++ [st.clampMatch.token])) ∨
        (tokens.length = 7 ∧ Emitted t (full ++ [tokens ++ [st.clampMatch.token]]) [])) := by
  obtain ⟨s, u, htoken, hslide, rfl⟩ := encoderIter_ok hstep
  have hclamp : st.clampMatch.matchLen.toNat ≤ 18 := by
    rw [clampMatch_eq, BitVec.toNat_ofNat]
    omega
  have hst : Emitted st.clampMatch full tokens := by
    rw [clampMatch_eq]
    exact h.congr rfl rfl rfl rfl
  obtain ⟨hframe, hlen⟩ := chooseToken_frame htoken
  have hclose := hst.closeToken (s := s) (by rw [hframe]) (by rw [hframe]) (isToken_token hclamp)
    (hst.holds.chooseToken hst.mask htoken)
  have hkept : ∀ {full tokens}, Emitted s.closeToken full tokens → Emitted u.loopTest full tokens := by
    intro full tokens h
    rw [loopTest_frame, eq_of_slideWindow hslide]
    exact h.congr rfl rfl rfl rfl
  have hchosen : s.closeToken.matchLen.toNat ≤ 18 := by
    rw [(closeToken_frame s).1]
    show s.matchLen.toNat ≤ 18
    rw [hlen]
    split
    · decide
    · exact hclamp
  have hslid := slideWindow_matchLen hslide hchosen
  exact ⟨by rw [loopTest_frame]; exact hslid, hclose.imp (And.imp_right hkept) (And.imp_right hkept)⟩

/-! ## A whole call -/

/-- OUT is a sequence of groups, all but the last of 8 tokens, and none for the empty input (R88). -/
def OutIsGroups (st : State) : Prop :=
  ∃ groups : List (List Instr), st.out = groups.flatMap encodeGroup ∧
    (∀ g ∈ groups, 1 ≤ g.length ∧ g.length ≤ 8 ∧ ∀ i ∈ g, IsToken i) ∧
    (∀ g ∈ groups.dropLast, g.length = 8) ∧ (st.input = [] → groups = [])

/-- The final flush makes the open group, if it has tokens, the last one (R153). -/
theorem Emitted.encoderFlush {st : State} {full : List (List Instr)} {tokens : List Instr}
    (h : Emitted st full tokens) (hinput : st.input ≠ []) : OutIsGroups st.encoderFlush := by
  have hfull : ∀ g ∈ full, 1 ≤ g.length ∧ g.length ≤ 8 ∧ ∀ i ∈ g, IsToken i := fun g hg => by
    have := h.fullLength g hg
    exact ⟨by omega, by omega, h.fullTokens g hg⟩
  have hptr : 1 < st.codePtr.toNat ↔ tokens ≠ [] := by
    rw [h.holds.ptr, one_lt_length_encodeGroup h.openTokens]
  unfold State.encoderFlush
  by_cases htokens : tokens = []
  · rw [if_neg (by simp [hptr, htokens])]
    exact ⟨full, h.out, hfull, fun g hg => h.fullLength g (List.mem_of_mem_dropLast hg), fun he => absurd he hinput⟩
  · rw [if_pos (hptr.mpr htokens)]
    have hlast : 1 ≤ tokens.length ∧ tokens.length ≤ 8 ∧ ∀ i ∈ tokens, IsToken i :=
      ⟨List.length_pos_iff.mpr htokens, h.openLength.le, h.openTokens⟩
    refine ⟨full ++ [tokens], ?_, ?_, ?_, fun he => absurd he hinput⟩
    · show st.out ++ st.pendingCode = _
      simp [h.out, h.holds.code]
    · exact List.forall_mem_append.mpr ⟨hfull, List.forall_mem_singleton.mpr hlast⟩
    · rw [List.dropLast_concat]
      exact h.fullLength

/-- Once the load has found input, the encoder has emitted full groups and holds an open one. -/
structure EmitsGroups (st : State) : Prop where
  input : st.input ≠ []
  matchLen : st.matchLen.toNat ≤ 18
  emitted : ∃ full tokens, Emitted st full tokens

/-- What each phase of COMPRESS has emitted, from START to DONE. -/
def State.EmissionInv (st : State) : Prop :=
  match st.seq with
  | .eInit => True
  | .eLoad => st.matchLen.toNat ≤ 18 ∧ Emitted st [] []
  | .eSeed | .eIter | .eFlush => EmitsGroups st
  | .done => OutIsGroups st
  | .idle | .dInit | .dCycle => False

theorem emitted_encoderInit (st : State) : Emitted st.encoderInit [] [] :=
  ⟨rfl, by simp, by simp, by simp, by simp, rfl, ⟨rfl, rfl⟩⟩

/-- The load of an empty input takes nothing (R143). -/
theorem encoderLoad_len_of_empty {st : State} (h : st.input = []) : st.encoderLoad.len = 0#5 := by
  have hload : loadLoop Config.maxMatch { st with len := 0#5 } = { st with len := 0#5 } :=
    loadLoop_of_end (by simp [h])
  simp only [State.encoderLoad, hload, if_true, State.stop_len]

theorem Emitted.encoderLoad {st : State} (hm : st.matchLen.toNat ≤ 18) (h : Emitted st [] []) :
    st.encoderLoad.EmissionInv := by
  have e := encoderLoad_frame st
  unfold State.EmissionInv
  rcases encoderLoad_moves st with ⟨-, hseq, -⟩ | ⟨hlen, hseq, -⟩ <;> simp only [hseq]
  · have hout : st.encoderLoad.out = [] := by rw [e]; exact h.out
    exact ⟨[], hout, by simp, by simp, fun _ => rfl⟩
  · have hinput : st.encoderLoad.input = st.input := by rw [e]
    refine ⟨?_, by rw [e]; exact hm, [], [], h.congr (by rw [e]) (by rw [e]) (by rw [e]) (by rw [e])⟩
    rw [hinput]
    exact fun he => hlen (encoderLoad_len_of_empty he)

theorem EmitsGroups.encoderSeed {st t : State} (h : EmitsGroups st) (hstep : st.encoderSeed = .ok t) :
    EmitsGroups t := by
  obtain ⟨hinput, -, full, tokens, he⟩ := h
  obtain ⟨-, hlen, -⟩ := encoderSeed_frame hstep
  have e := eq_of_encoderSeed hstep
  exact ⟨by rw [e]; exact hinput, hlen, full, tokens, he.congr (by rw [e]) (by rw [e]) (by rw [e]) (by rw [e])⟩

theorem EmitsGroups.encoderIter {st t : State} (h : EmitsGroups st) (hstep : st.encoderIter = .ok t) :
    EmitsGroups t := by
  obtain ⟨hinput, hm, full, tokens, he⟩ := h
  obtain ⟨hlen, hemitted⟩ := he.encoderIter hm hstep
  obtain ⟨hform, -, -⟩ := encoderIter_keeps hstep
  refine ⟨by rw [hform.input]; exact hinput, hlen, ?_⟩
  rcases hemitted with ⟨-, he'⟩ | ⟨-, he'⟩
  · exact ⟨_, _, he'⟩
  · exact ⟨_, _, he'⟩

/-- Every transition of a running COMPRESS keeps its output in groups. -/
theorem blockStep_emissionInv {st t : State} (h : st.EmissionInv) (hstep : blockStep st = .next t) :
    t.EmissionInv := by
  have hmove := (blockStep_transition hstep).moves
  unfold SeqMoves at hmove
  unfold State.EmissionInv at h ⊢
  cases hs : st.seq <;> simp only [blockStep, hs] at hstep h hmove
  case eInit =>
    cases hstep
    exact ⟨by simp [State.encoderInit], emitted_encoderInit st⟩
  case eLoad =>
    cases hstep
    exact h.2.encoderLoad h.1
  case eSeed =>
    rw [hmove.1]
    exact h.encoderSeed (outcomeOf_eq_next hstep)
  case eIter =>
    have hemits := h.encoderIter (outcomeOf_eq_next hstep)
    obtain ⟨⟨-, hseq⟩ | ⟨-, hseq⟩, -⟩ := hmove
    · rw [hseq]; exact hemits
    · rw [hseq]; exact hemits
  case eFlush =>
    obtain ⟨hinput, -, full, tokens, he⟩ := h
    cases hstep
    rw [hmove.1]
    exact he.encoderFlush hinput
  case done =>
    cases hstep
    rw [hs]
    exact h

/-! ## Runs -/

theorem andThen_eq_next {x : Host.Outcome State Fault Refusal} {f : State → Host.Outcome State Fault Refusal}
    {t : State} (h : andThen x f = .next t) : ∃ s, x = .next s ∧ f s = .next t := by
  cases x with
  | next s => exact ⟨s, rfl, h⟩
  | fault r => cases h
  | refused r => cases h

/-- A property that every step keeps holds after a run. -/
theorem stepMany_induct (P : State → Prop) (hP : ∀ s t, P s → step s = .next t → P t) {n : Nat} {st t : State}
    (h0 : P st) (h : stepMany n st = .next t) : P t := by
  induction n generalizing st with
  | zero => cases h; exact h0
  | succ n ih =>
    obtain ⟨s, hs, ht⟩ := andThen_eq_next h
    exact ih (hP st s h0 hs) ht

/-- START, accepted, latches the call (R221). -/
theorem startCall_eq_next {st t : State} {op : BitVec 1} {b : List Byte} (h : st.startCall op b = .next t) :
    t = st.latchStart op b := by
  unfold State.startCall at h
  split at h
  · cases h
  · split at h
    · cases h
    · cases h; rfl

/-- What holds all along a run of COMPRESS on input b, with no host move waiting. -/
structure CompressRun (b : List Byte) (st : State) : Prop where
  host : st.host = []
  input : st.input = b
  status : st.statusMatchesSeq = true
  op : st.opMatchesSeq = true
  emission : st.EmissionInv

theorem CompressRun.step {b : List Byte} {st t : State} (h : CompressRun b st) (hstep : step st = .next t) :
    CompressRun b t := by
  rw [step_of_no_move h.host] at hstep
  have htr := blockStep_transition hstep
  obtain ⟨hstatus, hop⟩ := htr.matches h.status h.op
  exact ⟨htr.host.trans h.host, htr.form.input.trans h.input, hstatus, hop, blockStep_emissionInv h.emission hstep⟩

theorem compressRun_latchStart {st : State} (b : List Byte) (h : st.host = []) :
    CompressRun b (st.latchStart 0#1 b) :=
  ⟨h, rfl, rfl, rfl, trivial⟩

/-- SEQ is DONE when STATUS is (R21, R40). -/
theorem seq_of_status_done {st : State} (h : st.statusMatchesSeq = true) (hd : st.status = .done) : st.seq = .done := by
  unfold State.statusMatchesSeq at h
  cases hs : st.seq <;> simp [hs, hd] at h
  rfl

/-- Settles O46: `EmissionInv` holds along the whole call, and at DONE it says that OUT is groups. -/
theorem compressEmitsWholeGroups : Obligations.CompressEmitsWholeGroups := by
  rintro st t b ⟨hhost, -, -⟩ ⟨s, n, hstart, hrun, hdone⟩
  rw [exec_decodeCommand] at hstart
  rw [startCall_eq_next hstart] at hrun
  have h := stepMany_induct (CompressRun b) (fun _ _ => CompressRun.step) (compressRun_latchStart b hhost) hrun
  have hinv := h.emission
  rw [State.EmissionInv, seq_of_status_done h.status hdone] at hinv
  obtain ⟨groups, hout, htokens, hfull, hempty⟩ := hinv
  exact ⟨groups, hout, htokens, hfull, fun hb => hempty (h.input.trans hb)⟩

end Sys2Proof.Machine

/-! # DECOMPRESS (spec/40_decompress.md)

A token cycle either completes its token, which takes input and emits 1 to 9 bytes for each byte it takes, or is cut by
the end of the input.  The statements about a whole call rest on that alternative and on the refill cadence. -/

namespace Sys2Proof.Machine

/-! ## Elements at the end of the input, and elements decoded -/

theorem execCtrl_of_end {st : State} (c : Byte) (h : st.input.length ≤ st.ip) : execCtrl c st = .next st.stop := by
  rw [execCtrl, if_neg (by rw [State.inAvail_iff]; omega)]

theorem execLit_of_end {st : State} (d : Byte) (h : st.input.length ≤ st.ip) : execLit d st = .next st.stop := by
  rw [execLit, if_neg (by rw [State.inAvail_iff]; omega)]

theorem execMatch_of_end {st : State} (pos : Pos) (len : Nat) (h : st.input.length ≤ st.ip) :
    execMatch pos len st = .next st.stop := by
  rw [execMatch, if_neg (by rw [State.inAvail_iff]; omega)]

theorem execMatch_of_last {st : State} (pos : Pos) (len : Nat) (h : st.ip + 1 = st.input.length) :
    execMatch pos len st = .next (st.advance 1).stop := by
  have hfirst : st.inAvail = true := st.inAvail_iff.mpr (by omega)
  have hsecond : ¬ (st.advance 1).inAvail = true := by
    rw [State.inAvail_iff, State.advance_ip, State.advance_input]
    omega
  simp only [execMatch, if_pos hfirst, if_neg hsecond]

theorem runElement_of_ok {k : Kind} {st : State} {i : Instr} {rest : List Byte}
    (h : decode k st.unread = .ok (i, rest)) : runElement k st = exec i st := by
  simp only [runElement, h]

theorem runElement_of_error {k : Kind} {st : State} {e : DecodeError} (h : decode k st.unread = .error e) :
    runElement k st = .next (st.stopShort e) := by
  simp only [runElement, h]

/-- Only the end of the input ends the reading of a control byte (R105). -/
theorem decode_control_error {bytes : List Byte} {e : DecodeError} (h : decode .control bytes = .error e) :
    bytes = [] ∧ e = .endBeforeControl := by
  cases bytes with
  | nil => cases h; exact ⟨rfl, rfl⟩
  | cons c rest => cases h

theorem decode_control_ok {bytes rest : List Byte} {i : Instr} (h : decode .control bytes = .ok (i, rest)) :
    ∃ c, bytes = c :: rest ∧ i = .ctrl c := by
  cases bytes with
  | nil => cases h
  | cons c tail => cases h; exact ⟨c, rfl, rfl⟩

/-! ## The two halves of a cycle -/

theorem step_of_dCycle {st : State} (hh : st.host = []) (hs : st.seq = .dCycle) : step st = decoderCycle st := by
  rw [step_of_no_move hh]
  simp only [blockStep, hs]

theorem needsRefill_of_exhausted {st : State} (h : st.flags.getLsbD 8 = false) : st.needsRefill = true := by
  rw [State.needsRefill, h, Bool.not_false]

theorem not_needsRefill_of_sentinel {st : State} (h : st.flags.getLsbD 8 = true) : st.needsRefill = false := by
  rw [State.needsRefill, h, Bool.not_true]

/-- A cycle that needs a refill and finds no control byte stops (R102). -/
theorem decoderCycle_of_end {st : State} (hn : st.shiftFlags.needsRefill = true) (h : st.input.length ≤ st.ip) :
    decoderCycle st = .next st.shiftFlags.stop := by
  have hd : decode .control st.shiftFlags.unread = .error .endBeforeControl := by
    rw [show st.shiftFlags.unread = [] from List.drop_eq_nil_of_le h]
    rfl
  simp only [decoderCycle, if_pos hn, runElement_of_error hd, andThen_next]
  rfl

/-- A cycle that needs a refill runs its token from the state that the refill leaves (R101). -/
theorem decoderCycle_of_ctrl {st : State} {i : Instr} {rest : List Byte} (hs : st.seq = .dCycle)
    (hn : st.shiftFlags.needsRefill = true) (hd : decode .control st.shiftFlags.unread = .ok (i, rest)) :
    ∃ s, exec i st.shiftFlags = .next s ∧ decoderCycle st = runToken s := by
  obtain ⟨c, hbytes, rfl⟩ := decode_control_ok hd
  have hav : st.shiftFlags.ip < st.shiftFlags.input.length := by
    have hlen := st.shiftFlags.unread_length
    rw [hbytes, List.length_cons] at hlen
    omega
  have hexec : exec (.ctrl c) st.shiftFlags =
      .next { st.shiftFlags.advance 1 with flags := refillValue c } := execCtrl_of_avail c hav
  refine ⟨_, hexec, ?_⟩
  simp only [decoderCycle, if_pos hn, runElement_of_ok hd, hexec, andThen_next]
  rw [afterRefill, if_neg (by simp [hs])]

/-- Settles O14: the two shapes of a cycle, each with the element that `decode` answers at IP. -/
theorem cycleRunsTheDecodedElements : Obligations.CycleRunsTheDecodedElements := by
  rintro st s1 hh hs rfl
  rw [step_of_dCycle hh hs]
  refine ⟨fun hbit k hk => ?_, fun hbit => ⟨fun e hd => ?_, fun i rest hd => ?_⟩⟩
  · have hcycle : decoderCycle st = runElement k st.shiftFlags := by
      rw [hk]
      exact decoderCycle_of_no_refill (not_needsRefill_of_sentinel hbit)
    exact ⟨fun i rest hd => hcycle.trans (runElement_of_ok hd), fun e hd => hcycle.trans (runElement_of_error hd)⟩
  · exact decoderCycle_of_end (needsRefill_of_exhausted hbit) (List.drop_eq_nil_iff.mp (decode_control_error hd).1)
  · obtain ⟨s, hexec, hcycle⟩ := decoderCycle_of_ctrl hs (needsRefill_of_exhausted hbit) hd
    refine ⟨s, hexec, fun k hk => ?_⟩
    subst hk
    exact ⟨fun j rest' hd' => hcycle.trans (runElement_of_ok hd'),
      fun e hd' => hcycle.trans (runElement_of_error hd')⟩

/-- Settles O25: CTRL's two cases. -/
theorem ctrlRefillsFlags : Obligations.CtrlRefillsFlags :=
  ⟨fun _ _ => rfl, fun c _ h => execCtrl_of_avail c h, fun c _ h => execCtrl_of_end c h⟩

/-- Settles O26: LIT's two cases, RING by its one write. -/
theorem litEmitsTheByte : Obligations.LitEmitsTheByte :=
  ⟨fun _ _ => rfl,
    fun d st h => ⟨_, execLit_of_avail d h, rfl, fun a => (st.advance 1).ringRead_emitDecoded d a⟩,
    fun d _ h => execLit_of_end d h⟩

/-! ## The bytes of a match -/

/-- The copy of n + 1 bytes is the copy of n bytes and one byte more. -/
theorem copyMatch_succ_last (pos : Pos) (n k : Nat) (st : State) :
    copyMatch pos (n + 1) k st =
      (copyMatch pos n k st).emitDecoded ((copyMatch pos n k st).windowByte (matchSource pos (k + n))) := by
  induction n generalizing k st with
  | zero => rfl
  | succ n ih => rw [copyMatch_succ, ih, ← copyMatch_succ, Nat.add_right_comm, Nat.add_assoc]

/-- The bytes that a byte-serial copy from pos has taken since st, and where they stand in t (R104, R404). -/
structure CopiedFrom (pos : Pos) (st t : State) (copied : List Byte) : Prop where
  out : t.out = st.out ++ copied
  source : ∀ k, k < copied.length → copied[k]? = some
    (if (pos + BitVec.ofNat 12 k - st.r).toNat < k then copied.getD (pos + BitVec.ofNat 12 k - st.r).toNat 0#8
      else st.ringRead (pos + BitVec.ofNat 12 k).toNat)
  written : ∀ k, k < copied.length → copied[k]? = some (t.ringRead (st.r + BitVec.ofNat 12 k).toNat)
  kept : ∀ a, (∀ k, k < copied.length → a ≠ (st.r + BitVec.ofNat 12 k).toNat) → t.ringRead a = st.ringRead a

/-- What the window holds at p after the copy: the copied byte that was written there, else the old contents. -/
theorem CopiedFrom.ringRead {pos : Pos} {st t : State} {copied : List Byte} (h : CopiedFrom pos st t copied) (p : Pos) :
    t.ringRead p.toNat =
      if (p - st.r).toNat < copied.length then copied.getD (p - st.r).toNat 0#8 else st.ringRead p.toNat := by
  split
  case isTrue hlt =>
    have hw := h.written _ hlt
    rw [BitVec.ofNat_toNat, BitVec.setWidth_eq, add_sub_cancel] at hw
    rw [List.getD_eq_getElem?_getD, hw]
    rfl
  case isFalse hge =>
    refine h.kept _ fun k hk hp => hge ?_
    rw [BitVec.eq_of_toNat_eq hp, add_sub_cancel_left]
    exact (Nat.mod_le k _).trans_lt hk

/-- One byte more is copied. -/
theorem CopiedFrom.emitDecoded {pos : Pos} {st t : State} {copied : List Byte} (h : CopiedFrom pos st t copied)
    (hr : t.r = st.r + BitVec.ofNat 12 copied.length) (hlen : copied.length < 4096) :
    CopiedFrom pos st (t.emitDecoded (t.windowByte (matchSource pos copied.length)))
      (copied ++ [t.windowByte (matchSource pos copied.length)]) where
  out := by rw [State.emitDecoded_out, h.out, List.append_assoc]
  source k hk := by
    rcases Nat.lt_succ_iff_lt_or_eq.mp (List.length_append ▸ hk) with hk | rfl
    · rw [List.getElem?_append_left hk, h.source k hk]
      split
      · rw [List.getD_append _ _ _ _ (by omega)]
      · rfl
    · rw [List.getElem?_concat_length, State.windowByte, matchSource, h.ringRead]
      split
      · rw [List.getD_append _ _ _ _ ‹_›]
      · rfl
  written k hk := by
    rw [State.ringRead_emitDecoded, hr]
    rcases Nat.lt_succ_iff_lt_or_eq.mp (List.length_append ▸ hk) with hk | rfl
    · rw [List.getElem?_append_left hk, h.written k hk, if_neg]
      exact fun heq => Nat.ne_of_lt hk (pos_add_inj (by omega) hlen heq)
    · rw [List.getElem?_concat_length, if_pos rfl]
  kept a ha := by
    rw [List.length_append] at ha
    rw [State.ringRead_emitDecoded, hr, if_neg (ha copied.length (Nat.lt_succ_self _))]
    exact h.kept a fun k hk => ha k (Nat.lt_succ_of_lt hk)

/-- A copy of at most 4096 bytes, which wrap onto no byte of their own. -/
theorem copyMatch_copiedFrom (pos : Pos) (st : State) {n : Nat} (hn : n ≤ 4096) :
    ∃ copied, copied.length = n ∧ CopiedFrom pos st (copyMatch pos n 0 st) copied := by
  induction n with
  | zero => exact ⟨[], rfl, by simp [copyMatch], by simp, by simp, fun _ _ => rfl⟩
  | succ n ih =>
    obtain ⟨copied, rfl, h⟩ := ih (by omega)
    rw [copyMatch_succ_last, Nat.zero_add]
    exact ⟨_, by simp, h.emitDecoded (copyMatch_r _ _ _ _) (by omega)⟩

/-- Settles O27: the fields of the two bytes, the copied bytes, and the two ends of the input. -/
theorem matchCopiesByteSerially : Obligations.MatchCopiesByteSerially := by
  refine ⟨fun i j rest => ⟨_, _, rfl, toNat_matchPosOf i j, matchLenOf_eq j⟩, fun st pos len _ hlen hav => ?_,
    fun st pos len h => execMatch_of_last pos len h, fun st pos len h => execMatch_of_end pos len h⟩
  obtain ⟨copied, rfl, h⟩ := copyMatch_copiedFrom pos (st.advance 2) (n := len) (by omega)
  refine ⟨_, copied, execMatch_of_avail pos _ hav, rfl, ?_, h.source, h.written, h.kept⟩
  rw [copyMatch_frame, copyMatch_r]
  congr 1
  exact h.out

/-! ## A token completed or cut -/

/-- From st to t a token that emits n bytes at R is completed: at least 1 byte and at most 9 for each input byte that it
takes (R103, R104, R108). -/
structure TokenCompleted (st t : State) (n : Nat) : Prop where
  seq : t.seq = st.seq
  out : t.out.length = st.out.length + n
  cursor : t.r = st.r + BitVec.ofNat 12 n
  emits : 0 < n
  ratio : n ≤ 9 * (t.ip - st.ip)

/-- The input ends before the token does: it is consumed, the operation stops, and only FLAGS may differ (R105). -/
def TokenCut (st t : State) : Prop :=
  t = { st with flags := t.flags, ip := st.input.length, seq := .done, status := .done }

/-- A token that ends in t, from st. -/
def TokenEnds (st t : State) : Prop := (∃ n, TokenCompleted st t n) ∨ TokenCut st t

theorem tokenCompleted_lit (d : Byte) (st : State) : TokenCompleted st ((st.advance 1).emitDecoded d) 1 :=
  ⟨rfl, by simp, rfl, by omega, by simp⟩

theorem tokenCompleted_match (pos : Pos) {len : Nat} (h3 : 3 ≤ len) (h18 : len ≤ 18) (st : State) :
    TokenCompleted st (copyMatch pos len 0 (st.advance 2)) len where
  seq := by rw [copyMatch_frame]; rfl
  out := by
    obtain ⟨copied, hlen, hout⟩ := copyMatch_out pos len 0 (st.advance 2)
    rw [hout, List.length_append, hlen]; rfl
  cursor := copyMatch_r pos len 0 _
  emits := by omega
  ratio := by
    rw [copyMatch_frame]
    show len ≤ 9 * (st.ip + 2 - st.ip)
    omega

/-- Running a token within the input completes it or is cut. -/
theorem runElement_tokenEnds {k : Kind} (hk : k ≠ .control) {st : State} (hip : st.ip ≤ st.input.length) :
    ∃ t, runElement k st = .next t ∧ TokenEnds st t := by
  rcases runElement_cases k st with ⟨e, he, -, h⟩ | ⟨c, hc, -⟩ | ⟨d, -, -, -, h⟩ | ⟨i, j, -, -, -, -, h⟩
  · rw [st.unread_length] at he
    have hend : st.ip + e.consumed = st.input.length := by omega
    exact ⟨_, h, .inr (by simp only [TokenCut, State.advance, State.stop, hend])⟩
  · exact absurd hc hk
  · exact ⟨_, h, .inl ⟨1, tokenCompleted_lit d st⟩⟩
  · obtain ⟨h3, h18⟩ := matchLenOf_bounds j
    exact ⟨_, h, .inl ⟨_, tokenCompleted_match (matchPosOf i j) h3 h18 st⟩⟩

/-- A token that ends after the refill or after the shift ends in the cycle. -/
theorem TokenEnds.of_flags_advance {st t : State} {v : BitVec 16} {n : Nat}
    (h : TokenEnds { st.advance n with flags := v } t) : TokenEnds st t := by
  refine h.imp (fun ⟨m, hc⟩ => ⟨m, hc.seq, hc.out, hc.cursor, hc.emits, ?_⟩) id
  have hratio : m ≤ 9 * (t.ip - (st.ip + n)) := hc.ratio
  omega

theorem bitKind_ne_control (b : Bool) : (if b then Kind.matched else .literal) ≠ .control := by
  cases b <;> simp

theorem State.tokenKind_ne_control (st : State) : st.tokenKind ≠ .control := bitKind_ne_control _

/-- A token cycle within the input completes its token or is cut (R101, R105). -/
theorem decoderCycle_tokenEnds {st : State} (hs : st.seq = .dCycle) (hip : st.ip ≤ st.input.length) :
    ∃ t, decoderCycle st = .next t ∧ TokenEnds st t := by
  cases hn : st.shiftFlags.needsRefill with
  | false =>
    rw [decoderCycle_of_no_refill hn]
    obtain ⟨t, ht, hends⟩ := runElement_tokenEnds st.shiftFlags.tokenKind_ne_control (st := st.shiftFlags) hip
    exact ⟨t, ht, TokenEnds.of_flags_advance (n := 0) hends⟩
  | true =>
    cases hc : st.input[st.ip]? with
    | none =>
      have hend := List.getElem?_eq_none_iff.mp hc
      refine ⟨_, decoderCycle_of_end hn hend, .inr ?_⟩
      simp only [TokenCut, ← Nat.le_antisymm hip hend]
      rfl
    | some c =>
      obtain ⟨hlt, -⟩ := List.getElem?_eq_some_iff.mp hc
      rw [decoderCycle_of_refill hs hn hc]
      obtain ⟨t, ht, hends⟩ := runElement_tokenEnds (bitKind_ne_control (c.getLsbD 0))
        (st := { st with flags := refillValue c, ip := st.ip + 1 }) hlt
      exact ⟨t, ht, TokenEnds.of_flags_advance (n := 1) hends⟩

theorem step_tokenEnds {st t : State} (hh : st.host = []) (hs : st.seq = .dCycle) (hip : st.ip ≤ st.input.length)
    (h : step st = .next t) : TokenEnds st t := by
  obtain ⟨u, hu, hends⟩ := decoderCycle_tokenEnds hs hip
  cases hu.symm.trans ((step_of_dCycle hh hs).symm.trans h)
  exact hends

/-- Settles O30: a completed token is the first case, a cut one the second. -/
theorem decoderStopsOnlyAtEndOfInput : Obligations.DecoderStopsOnlyAtEndOfInput := by
  intro st t hh hs hip h
  have hform := (blockStep_transition ((step_of_no_move hh).symm.trans h)).form
  rcases step_tokenEnds hh hs hip h with ⟨n, hc⟩ | hcut
  · have hemits := hc.emits
    have hratio := hc.ratio
    have hout := hc.out
    exact .inl ⟨hc.seq.trans hs, by omega, hform.input ▸ hform.ip hip, by omega⟩
  · rw [hcut]
    exact .inr ⟨rfl, rfl, rfl, rfl, rfl, rfl⟩

/-! ## A whole call -/

/-- What holds all along a run of DECOMPRESS on input b, with no host move waiting: OUT's bound by the input consumed
(R110), R by OUT (R26), and at DONE that the input is consumed (R107). -/
structure DecompressRun (b : List Byte) (st : State) : Prop where
  host : st.host = []
  input : st.input = b
  ip : st.ip ≤ b.length
  bound : st.out.length ≤ 9 * st.ip
  cursor : st.seq ≠ .dInit → st.r = Config.initPos + BitVec.ofNat 12 st.out.length
  phase : st.seq = .dInit ∨ st.seq = .dCycle ∨ st.seq = .done
  ends : st.seq = .done → st.status = .done ∧ st.ip = b.length

theorem decompressRun_latchStart {st : State} (b : List Byte) (h : st.host = []) :
    DecompressRun b (st.latchStart 1#1 b) :=
  ⟨h, rfl, Nat.zero_le _, Nat.zero_le _, fun hs => absurd rfl hs, .inl rfl, nofun⟩

theorem decompressRun_decoderInit {b : List Byte} {st : State} (h : DecompressRun b st) :
    DecompressRun b st.decoderInit :=
  ⟨h.host, h.input, Nat.zero_le _, Nat.zero_le _, fun _ => by simp [State.decoderInit], .inr (.inl rfl), nofun⟩

theorem DecompressRun.of_tokenEnds {b : List Byte} {st t : State} (h : DecompressRun b st) (hs : st.seq = .dCycle)
    (htr : Transition st t) (hends : TokenEnds st t) : DecompressRun b t := by
  have hcursor := h.cursor (by rw [hs]; decide)
  have hlen : st.input.length = b.length := by rw [h.input]
  have hip := htr.form.ip (hlen ▸ h.ip)
  rw [htr.form.input, hlen] at hip
  have hbound := h.bound
  rcases hends with ⟨n, hc⟩ | hcut
  · have hseq : t.seq = .dCycle := hc.seq.trans hs
    refine ⟨htr.host.trans h.host, htr.form.input.trans h.input, hip, ?_, fun _ => ?_, .inr (.inl hseq), ?_⟩
    · have hratio := hc.ratio
      have hemits := hc.emits
      rw [hc.out]
      omega
    · rw [hc.cursor, hc.out, hcursor, BitVec.ofNat_add, BitVec.add_assoc]
    · rw [hseq]
      nofun
  · have hle := h.ip
    rw [hcut]
    refine ⟨h.host, h.input, hlen.le, ?_, fun _ => hcursor, .inr (.inr rfl), fun _ => ⟨rfl, hlen⟩⟩
    show st.out.length ≤ 9 * st.input.length
    omega

theorem DecompressRun.of_step {b : List Byte} {st t : State} (h : DecompressRun b st) (hstep : step st = .next t) :
    DecompressRun b t := by
  have hblock := (step_of_no_move h.host).symm.trans hstep
  have htr := blockStep_transition hblock
  rcases h.phase with hs | hs | hs
  · simp only [blockStep, hs] at hblock
    cases hblock
    exact decompressRun_decoderInit h
  · exact h.of_tokenEnds hs htr (step_tokenEnds h.host hs (h.input ▸ h.ip) hstep)
  · simp only [blockStep, hs] at hblock
    cases hblock
    exact h

/-- From a token cycle, a run reaches DONE within as many steps as input bytes are left, and one more: each cycle takes
input or is the last (R111). -/
theorem DecompressRun.reaches_done {b : List Byte} {st : State} (h : DecompressRun b st) (hs : st.seq = .dCycle) :
    ∃ n t, n ≤ b.length - st.ip + 1 ∧ stepMany n st = .next t ∧ t.seq = .done := by
  induction hleft : b.length - st.ip using Nat.strong_induction_on generalizing st with
  | _ left ih =>
    subst hleft
    obtain ⟨t, hcycle, hends⟩ := decoderCycle_tokenEnds hs (h.input ▸ h.ip)
    have hstep : step st = .next t := (step_of_dCycle h.host hs).trans hcycle
    have hrun := h.of_step hstep
    rcases hends with ⟨n, hc⟩ | hcut
    · have hless : b.length - t.ip < b.length - st.ip := by
        have hemits := hc.emits
        have hratio := hc.ratio
        have hle := hrun.ip
        omega
      obtain ⟨m, u, hm, hsteps, hdone⟩ := ih _ hless hrun (hc.seq.trans hs) rfl
      exact ⟨m + 1, u, by omega, by rw [stepMany_succ, hstep]; exact hsteps, hdone⟩
    · exact ⟨1, t, by omega, by rw [stepMany_succ, hstep]; rfl, by rw [hcut]⟩

theorem DecompressRun.of_steps {b : List Byte} {st t : State} {n : Nat} (h : DecompressRun b st)
    (hsteps : stepMany n st = .next t) : DecompressRun b t :=
  stepMany_induct (DecompressRun b) (fun _ _ => DecompressRun.of_step) h hsteps

/-- Settles O31: one step of initialisation, then the token cycles; the end state is that of a `DecompressRun`. -/
theorem decompressReachesDone : Obligations.DecompressReachesDone := by
  rintro st b ⟨hhost, hbusy, hlen⟩
  have hstart : exec (.cmdDecompress b) st = .next (st.latchStart 1#1 b) := by
    show st.startCall 1#1 b = _
    rw [State.startCall, if_neg hbusy, if_neg (Nat.not_lt.mpr hlen)]
  have hinit : step (st.latchStart 1#1 b) = .next (st.latchStart 1#1 b).decoderInit := step_of_no_move hhost
  have hrun := decompressRun_decoderInit (decompressRun_latchStart b hhost)
  obtain ⟨n, t, hn, hsteps, hdone⟩ := hrun.reaches_done rfl
  refine ⟨_, n + 1, t, hstart, Nat.succ_le_succ hn, by rw [stepMany_succ, hinit]; exact hsteps, ?_⟩
  have hend := hrun.of_steps hsteps
  obtain ⟨hstatus, hip⟩ := hend.ends hdone
  exact ⟨hstatus, hdone, hip, hend.cursor (by rw [hdone]; decide)⟩

/-- Settles O32: the bound that a `DecompressRun` keeps, with IP at most L. -/
theorem decompressOutputBound : Obligations.DecompressOutputBound := by
  rintro st t b ⟨hhost, -, -⟩ ⟨s, n, hstart, hsteps, -⟩
  rw [exec_decodeCommand] at hstart
  rw [startCall_eq_next hstart] at hsteps
  have h := (decompressRun_latchStart b hhost).of_steps hsteps
  exact h.bound.trans (Nat.mul_le_mul_left 9 h.ip)

/-! ## The refill cadence -/

/-- The first cycle of a call refills (R102, R109). -/
theorem needsRefill_decoderInit (st : State) : st.decoderInit.shiftFlags.needsRefill = true :=
  needsRefill_of_exhausted (by simp [State.decoderInit])

/-- The state after token k of the group that the control byte c governs: stopped, or with FLAGS shifted k times
(R109). -/
structure InGroup (c : Byte) (k : Nat) (st : State) : Prop where
  host : st.host = []
  phase : st.seq = .done ∨ (st.seq = .dCycle ∧ st.flags = refillValue c >>> k)

theorem InGroup.flags {c : Byte} {k : Nat} {st : State} (h : InGroup c k st) (hs : st.seq = .dCycle) :
    st.flags = refillValue c >>> k := by
  rcases h.phase with hdone | ⟨-, hflags⟩
  · simp [hs] at hdone
  · exact hflags

/-- Token k runs with FLAGS shifted k times, and leaves them so. -/
theorem inGroup_of_runElement {c : Byte} {k : Nat} {kind : Kind} {s t : State} (hk : kind ≠ .control)
    (hh : s.host = []) (hs : s.seq = .dCycle) (hf : s.flags = refillValue c >>> k)
    (h : runElement kind s = .next t) : InGroup c k t := by
  obtain ⟨u, hu, hflags, -, hhost, hseq⟩ := runElement_token hk (st := s)
  cases hu.symm.trans h
  exact ⟨hhost.trans hh, hseq.symm.imp id fun hseq => ⟨hseq.trans hs, hflags.trans hf⟩⟩

/-- The cycle after token k, k < 7, needs no refill and runs token k + 1 of the group. -/
theorem InGroup.decoderCycle {c : Byte} {k : Nat} {st : State} (h : InGroup c k st) (hs : st.seq = .dCycle)
    (hk : k + 1 < 8) :
    decoderCycle st = runElement (if c.getLsbD (k + 1) then .matched else .literal)
      { st with flags := refillValue c >>> (k + 1) } := by
  have hshift : st.shiftFlags = { st with flags := refillValue c >>> (k + 1) } := by
    rw [BitVec.shiftRight_add, ← h.flags hs]
    rfl
  have hn : st.shiftFlags.needsRefill = false := by
    rw [hshift]
    exact not_needsRefill_of_sentinel (refillValue_sentinel c hk)
  rw [decoderCycle_of_no_refill hn, hshift, State.tokenKind, refillValue_kind c hk]

theorem InGroup.of_step {c : Byte} {k : Nat} {st t : State} (h : InGroup c k st) (hk : k + 1 < 8)
    (hstep : step st = .next t) : InGroup c (k + 1) t := by
  rcases h.phase with hs | ⟨hs, -⟩
  · rw [step_of_no_move h.host] at hstep
    simp only [blockStep, hs] at hstep
    cases hstep
    exact ⟨h.host, .inl hs⟩
  · rw [step_of_dCycle h.host hs, h.decoderCycle hs hk] at hstep
    exact inGroup_of_runElement (bitKind_ne_control _) (by exact h.host) (by exact hs) rfl hstep

/-- A run of k + 1 steps from the refill with c has run token k. -/
theorem inGroup_of_steps {st t : State} {c : Byte} {k : Nat} (hh : st.host = []) (hs : st.seq = .dCycle)
    (hn : st.shiftFlags.needsRefill = true) (hc : st.input[st.ip]? = some c) (hk : k < 8)
    (hsteps : stepMany (k + 1) st = .next t) : InGroup c k t := by
  induction k generalizing t with
  | zero =>
    obtain ⟨u, hu, hzero⟩ := andThen_eq_next hsteps
    cases hzero
    rw [step_of_dCycle hh hs, decoderCycle_of_refill hs hn hc] at hu
    exact inGroup_of_runElement (bitKind_ne_control _) (by exact hh) (by exact hs) (by simp) hu
  | succ k ih =>
    rw [stepMany_add (k + 1) 1] at hsteps
    obtain ⟨u, hu, hone⟩ := andThen_eq_next hsteps
    obtain ⟨v, hv, hzero⟩ := andThen_eq_next hone
    cases hzero
    exact (ih (by omega) hu).of_step hk hv

/-- Settles O29: cycle 0 is the refill, cycles 1 to 7 are `InGroup`'s, and after token 7 the sentinel is shifted out. -/
theorem controlByteGovernsEightTokens : Obligations.ControlByteGovernsEightTokens := by
  refine ⟨fun st t hh hs h => ?_, fun st c hh hs hn hc => ⟨fun k t hk hsteps ht => ?_, fun t hsteps ht => ?_⟩⟩
  · rw [step_of_no_move hh] at h
    simp only [blockStep, hs] at h
    cases h
    exact ⟨rfl, needsRefill_decoderInit st⟩
  · cases k with
    | zero =>
      cases hsteps
      simpa using (step_of_dCycle hh hs).trans (decoderCycle_of_refill hs hn hc)
    | succ k =>
      have hgroup := inGroup_of_steps hh hs hn hc (by omega) hsteps
      simpa using (step_of_dCycle hgroup.host ht).trans (hgroup.decoderCycle ht hk)
  · have hflags := (inGroup_of_steps hh hs hn hc (by omega) hsteps).flags ht
    refine ⟨hflags, needsRefill_of_exhausted ?_⟩
    rw [State.shiftFlags_flags, hflags, ← BitVec.shiftRight_add, refillValue_exhausted]

end Sys2Proof.Machine

/-! # The pieces of an iteration of COMPRESS (spec/41_compress.md R144 to R149, R153)

Seeding, token choice, the two emissions, the group's flush and the final flush, one statement each. -/

namespace Sys2Proof.Machine

/-! ## Seeding -/

/-- Inserting positions one after the other, stopping at the first fault (R144). -/
def insertAll (positions : List Pos) (st : State) : Except Fault State :=
  positions.foldlM (fun s p => insertNode p s) st

theorem insertAll_cons (p : Pos) (positions : List Pos) (st : State) :
    insertAll (p :: positions) st = insertNode p st >>= insertAll positions := rfl

theorem insertAll_append (positions more : List Pos) (st : State) :
    insertAll (positions ++ more) st = insertAll positions st >>= insertAll more :=
  List.foldlM_append

theorem insertNode_r {r : Pos} {st t : State} (h : insertNode r st = .ok t) : t.r = st.r := by
  rw [eq_of_withoutSearch (insertNode_frame h).1]

/-- The positions that n turns of the seeding loop insert, the first one k behind R (R144). -/
def seedPositions (r : Pos) (k n : Nat) : List Pos := (List.range' k n).map fun j => r - BitVec.ofNat 12 j

theorem seedLoop_eq_insertAll (n k : Nat) (st : State) :
    seedLoop n k st = insertAll (seedPositions st.r k n) st := by
  induction n generalizing k st with
  | zero => rfl
  | succ n ih =>
    rw [seedPositions, List.range'_succ, List.map_cons, insertAll_cons]
    simp only [seedLoop]
    cases h : insertNode (st.r - BitVec.ofNat 12 k) st with
    | error f => rfl
    | ok s =>
      show seedLoop n (k + 1) s = insertAll (seedPositions st.r (k + 1) n) s
      rw [ih, insertNode_r h]

theorem insertAll_r {positions : List Pos} {st t : State} (h : insertAll positions st = .ok t) : t.r = st.r := by
  induction positions generalizing st with
  | nil => cases h; rfl
  | cons p positions ih =>
    rw [insertAll_cons] at h
    cases hp : insertNode p st with
    | error f => rw [hp] at h; cases h
    | ok s => rw [hp] at h; exact (ih h).trans (insertNode_r hp)

/-- Seeding is nineteen insertions, R last (R144). -/
theorem encoderSeed_eq_insertAll (st : State) :
    st.encoderSeed =
      (insertAll (seedPositions st.r 1 18 ++ [st.r]) st).map fun s => { s with seq := .eIter } := by
  rw [insertAll_append]
  simp only [State.encoderSeed, Config.seedNodes, seedLoop_eq_insertAll]
  cases h : insertAll (seedPositions st.r 1 18) st with
  | error f => rfl
  | ok s =>
    simp only [insertAll_r h]
    show _ = (insertAll [st.r] s).map _
    rw [insertAll_cons]
    cases insertNode st.r s <;> rfl

/-- Settles O37: the seeding loop and the insertion of R are one fold. -/
theorem seedingInsertsNineteenPositions : Obligations.SeedingInsertsNineteenPositions := by
  intro st hh hs
  rw [step_of_no_move hh]
  simp only [blockStep, hs, encoderSeed_eq_insertAll]
  rfl

/-! ## Token choice and emission -/

/-- A clamped match length fits its register. -/
theorem toNat_clampedLen (st : State) :
    (BitVec.ofNat 5 (min st.matchLen.toNat st.len.toNat)).toNat = min st.matchLen.toNat st.len.toNat := by
  have := st.matchLen.isLt
  rw [BitVec.toNat_ofNat]
  omega

theorem clampMatch_chooseToken_of_le {st : State} (h : min st.matchLen.toNat st.len.toNat ≤ 2) :
    st.clampMatch.chooseToken = emitLiteral { st with matchLen := 1#5 } := by
  rw [clampMatch_eq]
  exact if_pos ((toNat_clampedLen st).trans_le h)

theorem clampMatch_chooseToken_of_lt {st : State} (h : 2 < min st.matchLen.toNat st.len.toNat) :
    st.clampMatch.chooseToken =
      emitMatch { st with matchLen := BitVec.ofNat 5 (min st.matchLen.toNat st.len.toNat) } := by
  rw [clampMatch_eq]
  exact if_neg (Nat.not_le.mpr (h.trans_eq (toNat_clampedLen st).symm))

/-- Settles O38: the two branches of the choice, at the clamped length. -/
theorem tokenChoiceClampsAndCompares : Obligations.TokenChoiceClampsAndCompares := by
  rintro st m rfl
  exact ⟨clampMatch_chooseToken_of_le, clampMatch_chooseToken_of_lt⟩

theorem emitLiteral_eq {st : State} (h : st.codePtr.toNat < 17) :
    emitLiteral st = .ok { st with
      codeBuf := st.codeBuf.set st.codePtr.toNat (st.windowByte st.r) h
      codePtr := st.codePtr + 1#5 } :=
  pushCode_of_lt _ h

/-- Settles O39: one push, past the control byte where CODE_PTR is. -/
theorem literalEmissionAppendsTheByte : Obligations.LiteralEmissionAppendsTheByte := by
  intro st h
  refine ⟨emitLiteral_eq h, fun h1 t ht => ?_⟩
  rw [emitLiteral_eq h] at ht
  cases ht
  exact Vector.getElem_set_ne (by omega) (by omega) (by omega)

theorem toNat_codePtr_succ {p : BitVec 5} (h : p.toNat ≤ 15) : (p + 1#5).toNat = p.toNat + 1 := by
  rw [BitVec.toNat_add, BitVec.toNat_ofNat]
  omega

/-- A match emission is the marked control byte and two pushes (R148). -/
theorem emitMatch_eq {st : State} (h : st.codePtr.toNat ≤ 15) :
    emitMatch st = .ok { st with
      codeBuf := ((st.codeBuf.set 0 (st.codeBuf[0] ||| st.mask)).set st.codePtr.toNat (matchByte0 st.matchPos)).set
        (st.codePtr.toNat + 1) (matchByte1 st.matchPos st.matchLen.toNat)
      codePtr := st.codePtr + 2#5 } := by
  have hptr := toNat_codePtr_succ h
  have hfirst := pushCode_of_lt (st := st.markMatch) (matchByte0 st.matchPos) (by rw [State.markMatch_codePtr]; omega)
  simp only [emitMatch, hfirst]
  rw [pushCode_of_lt _ (show (st.codePtr + 1#5).toNat < 17 by omega)]
  simp only [State.markMatch_codePtr, State.markMatch_codeBuf, hptr]
  rw [BitVec.add_assoc]
  rfl

/-- The cells of the group buffer after a match emission (R148). -/
theorem emitMatch_cells {st : State} (h1 : 1 ≤ st.codePtr.toNat) (h15 : st.codePtr.toNat ≤ 15) :
    ∃ t, emitMatch st = .ok t ∧ t = { st with codeBuf := t.codeBuf, codePtr := st.codePtr + 2#5 } ∧
      t.codeBuf[0] = st.codeBuf[0] ||| st.mask ∧
      t.codeBuf[st.codePtr.toNat]? = some (matchByte0 st.matchPos) ∧
      t.codeBuf[st.codePtr.toNat + 1]? = some (matchByte1 st.matchPos st.matchLen.toNat) ∧
      ∀ j, 1 ≤ j → j ≠ st.codePtr.toNat → j ≠ st.codePtr.toNat + 1 → t.codeBuf[j]? = st.codeBuf[j]? := by
  refine ⟨_, emitMatch_eq h15, rfl, ?_, by simp, by simp, fun j hj hne hne' => ?_⟩
  · simp [show st.codePtr.toNat ≠ 0 by omega]
  · rw [Vector.getElem?_set_ne _ (Ne.symm hne'), Vector.getElem?_set_ne _ (Ne.symm hne),
      Vector.getElem?_set_ne _ (by omega)]

/-- Settles O40: the cells of the buffer, with the two bytes as numbers. -/
theorem matchEmissionAppendsTwoBytes : Obligations.MatchEmissionAppendsTwoBytes := by
  intro st h1 h15 _ h18
  obtain ⟨t, ht, hframe, hcontrol, hfirst, hsecond, hother⟩ := emitMatch_cells h1 h15
  exact ⟨t, _, _, ht, hcontrol, hfirst, hsecond, toNat_matchByte0 _, toNat_matchByte1 _ h18, hother, hframe⟩

/-! ## The group's flush and the final flush -/

/-- Settles O41: the open and the full group. -/
theorem fullGroupIsFlushed : Obligations.FullGroupIsFlushed :=
  fun _ => ⟨closeToken_of_open, closeToken_of_full⟩

/-- Settles O44: the two branches of the flush. -/
theorem finalFlushEmitsThePartialGroup : Obligations.FinalFlushEmitsThePartialGroup := by
  intro st hh hs
  have hstep : step st = .next st.encoderFlush := by
    rw [step_of_no_move hh]
    simp only [blockStep, hs]
  rw [hstep, State.encoderFlush]
  exact ⟨fun h => by rw [if_pos h]; rfl, fun h => by rw [if_neg (Nat.not_lt.mpr h)]; rfl⟩

end Sys2Proof.Machine

/-! # The window of COMPRESS (spec/41_compress.md R142, R150, R151, R160, R161, R63)

The load fills the lookahead; every turn of the slide moves the window by one byte and keeps its invariant. -/

namespace Sys2Proof.Machine

/-! ## The load -/

/-- One turn of the load, with the input byte c (R142). -/
def loadByte (c : Byte) (st : State) : State :=
  { (st.advance 1).ringWrite (Config.initPos.toNat + st.len.toNat) c with len := st.len + 1#5 }

@[simp] theorem loadByte_input (c : Byte) (st : State) : (loadByte c st).input = st.input := rfl
@[simp] theorem loadByte_ip (c : Byte) (st : State) : (loadByte c st).ip = st.ip + 1 := rfl
@[simp] theorem loadByte_len (c : Byte) (st : State) : (loadByte c st).len = st.len + 1#5 := rfl

theorem ringRead_loadByte (c : Byte) (st : State) (a : Nat) :
    (loadByte c st).ringRead a = if a = 4078 + st.len.toNat then c else st.ringRead a :=
  State.ringRead_ringWrite (st.advance 1) _ _ _

/-- Where the load stands in t, from st: LEN counts with IP, and the bytes taken stand from cell 4078 on (R142). -/
structure LoadedFrom (st t : State) : Prop where
  len : t.len.toNat = t.ip
  ip : st.ip ≤ t.ip
  ring : ∀ a, t.ringRead a =
    if 4078 + st.ip ≤ a ∧ a < 4078 + t.ip then st.input.getD (a - 4078) 0#8 else st.ringRead a

theorem LoadedFrom.of_loadByte {c : Byte} {st t : State} (hlen : st.len.toNat = st.ip)
    (hin : st.input[st.ip]? = some c) (h : LoadedFrom (loadByte c st) t) : LoadedFrom st t := by
  have hip := h.ip
  rw [loadByte_ip] at hip
  refine ⟨h.len, by omega, fun a => ?_⟩
  rw [h.ring, ringRead_loadByte, loadByte_ip, loadByte_input, hlen]
  by_cases ha : a = 4078 + st.ip
  · have hc : st.input.getD (a - 4078) 0#8 = c := by
      rw [ha, Nat.add_sub_cancel_left, List.getD_eq_getElem?_getD, hin]
      rfl
    rw [if_neg (by omega), if_pos ha, if_pos (by omega), hc]
  · rw [if_neg ha]
    exact if_congr (by omega) rfl rfl

theorem loadLoop_loadedFrom {n : Nat} {st : State} (hlen : st.len.toNat = st.ip) (hip : st.ip ≤ st.input.length)
    (hn : st.ip + n < 32) :
    (loadLoop n st).ip = min (st.ip + n) st.input.length ∧ LoadedFrom st (loadLoop n st) := by
  have hstart : LoadedFrom st st := ⟨hlen, Nat.le_refl _, fun a => by rw [if_neg (by omega)]⟩
  induction n generalizing st with
  | zero => exact ⟨by simp [loadLoop, hip], hstart⟩
  | succ n ih =>
    cases hin : st.input[st.ip]? with
    | none =>
      have hend := List.getElem?_eq_none_iff.mp hin
      rw [loadLoop_of_end hin]
      exact ⟨by omega, hstart⟩
    | some c =>
      obtain ⟨hlt, -⟩ := List.getElem?_eq_some_iff.mp hin
      have hlen' : (loadByte c st).len.toNat = (loadByte c st).ip := by
        rw [loadByte_len, loadByte_ip, BitVec.toNat_add, hlen, BitVec.toNat_ofNat]
        omega
      obtain ⟨hip', hload⟩ := ih hlen' hlt (by rw [loadByte_ip]; omega)
        ⟨hlen', Nat.le_refl _, fun a => by rw [if_neg (by omega)]⟩
      rw [loadLoop_succ_of_input hin]
      refine ⟨hip'.trans ?_, hload.of_loadByte hlen hin⟩
      rw [loadByte_ip, loadByte_input, Nat.add_right_comm, Nat.add_assoc]

/-- E_LOAD at IP = 0 (R142). -/
theorem encoderLoad_loadedFrom {st : State} (hip : st.ip = 0) :
    st.encoderLoad.ip = min 18 st.input.length ∧ LoadedFrom st st.encoderLoad := by
  obtain ⟨hip', hload⟩ := loadLoop_loadedFrom (n := 18) (st := { st with len := 0#5 }) hip.symm
    (by simp [hip]) (by show st.ip + 18 < 32; omega)
  have hip'' : (loadLoop 18 { st with len := 0#5 }).ip = min 18 st.input.length := by
    rw [hip']
    show min (st.ip + 18) _ = _
    rw [hip]
  unfold State.encoderLoad
  simp only [Config.maxMatch]
  split
  · exact ⟨hip'', hload.len, hload.ip, hload.ring⟩
  · exact ⟨hip'', hload.len, hload.ip, hload.ring⟩

/-- The load stops exactly for an empty input (R143). -/
theorem encoderLoad_phase {st : State} (hip : st.ip = 0) :
    st.encoderLoad.seq = (if st.input = [] then .done else .eSeed) ∧
      st.encoderLoad.status = if st.input = [] then .done else st.status := by
  obtain ⟨hip', hload⟩ := encoderLoad_loadedFrom hip
  have hempty : st.encoderLoad.len = 0#5 ↔ st.input = [] := by
    rw [← BitVec.toNat_inj, hload.len, hip', ← List.length_eq_zero_iff, BitVec.toNat_ofNat]
    omega
  rcases encoderLoad_moves st with ⟨hlen, hseq, hstatus⟩ | ⟨hlen, hseq, hstatus⟩
  · rw [if_pos (hempty.mp hlen), if_pos (hempty.mp hlen)]
    exact ⟨hseq, hstatus⟩
  · rw [if_neg (mt hempty.mpr hlen), if_neg (mt hempty.mpr hlen)]
    exact ⟨hseq, hstatus⟩

/-- Settles O36: the cells of `LoadedFrom`, and the frame of the load. -/
theorem loadFillsTheLookahead : Obligations.LoadFillsTheLookahead := by
  intro st hh hs hip
  obtain ⟨hip', hload⟩ := encoderLoad_loadedFrom hip
  obtain ⟨hseq, hstatus⟩ := encoderLoad_phase hip
  have hring := hload.ring
  rw [hip', hip] at hring
  refine ⟨st.encoderLoad, ?_, hload.len.trans hip', hip', fun k hk => ?_, fun a ha => ?_, ?_⟩
  · rw [step_of_no_move hh]
    simp only [blockStep, hs]
  · rw [hring, if_pos (by omega), Nat.add_sub_cancel_left, List.getD_eq_getElem?_getD,
      List.getElem?_eq_getElem (by omega)]
    rfl
  · rw [hring, if_neg (by omega)]
  · conv_lhs => rw [encoderLoad_frame, hseq, hstatus]

/-! ## One turn of the slide -/

/-- What one position of the slide does to the registers and RING, with an input byte or without (R150, R151). -/
structure SlideTurn (st t : State) : Prop where
  frame : withoutWindow t = withoutWindow st
  r : t.r = st.r + 1#12
  s : t.s = st.s + 1#12
  matchLen : st.matchLen.toNat ≤ 18 → t.matchLen.toNat ≤ 18
  moves :
    (∃ c, st.input[st.ip]? = some c ∧ t.ip = st.ip + 1 ∧ t.len = st.len ∧ t.ring = mirroredRing st c) ∨
      (st.input.length ≤ st.ip ∧ t.ip = st.ip ∧ t.len = st.len - 1#5 ∧ t.ring = st.ring)

theorem slideTurn_of_ok {st t : State} (h : slideTurn st = .ok t) : SlideTurn st t := by
  cases hin : st.input[st.ip]? with
  | some c =>
    rw [slideTurn_of_input hin] at h
    obtain ⟨hframe, hr, hs, hip, hlen, -, hring, hmatch, -⟩ := slideByte_effect h
    exact ⟨hframe, hr, hs, fun _ => hmatch, .inl ⟨c, hin, hip, hlen, hring⟩⟩
  | none =>
    rw [slideTurn_of_end hin] at h
    obtain ⟨hframe, hr, hs, hip, hlen, -, hring, hmatch, -⟩ := tailByte_effect h
    exact ⟨hframe, hr, hs, hmatch, .inr ⟨List.getElem?_eq_none_iff.mp hin, hip, hlen, hring⟩⟩

theorem SlideTurn.input {st t : State} (h : SlideTurn st t) : t.input = st.input := by
  rw [eq_of_withoutWindow h.frame]

theorem SlideTurn.params {st t : State} (h : SlideTurn st t) : t.params = st.params := by
  rw [eq_of_withoutWindow h.frame]

/-- RING after a turn that took the byte c: S and its mirror cell are written. -/
theorem ringRead_of_mirroredRing {st t : State} {c : Byte} (hp : t.params = st.params) (hr : t.ring = mirroredRing st c)
    (a : Nat) :
    t.ringRead a = if a = st.s.toNat ∨ (st.s.toNat < 17 ∧ a = st.s.toNat + 4096) then c else st.ringRead a := by
  rw [State.ringRead_congr (st' := st.mirrorWrite c) hp hr, State.ringRead_mirrorWrite]

/-- The window below cell 4096 after a turn that took the byte c. -/
theorem windowByte_of_mirroredRing {st t : State} {c : Byte} (hp : t.params = st.params)
    (hr : t.ring = mirroredRing st c) (p : Pos) : t.windowByte p = if p = st.s then c else st.windowByte p := by
  have hlt := p.isLt
  rw [State.windowByte, ringRead_of_mirroredRing hp hr]
  refine if_congr ⟨?_, fun h => .inl (by rw [h])⟩ rfl rfl
  rintro (h | ⟨-, h⟩)
  · exact BitVec.eq_of_toNat_eq h
  · omega

/-- LEN after a turn without input, while there is lookahead. -/
theorem toNat_len_sub_one {len : BitVec 5} (h : len ≠ 0#5) : (len - 1#5).toNat = len.toNat - 1 := by
  have hpos : 0 < len.toNat := by
    rw [Nat.pos_iff_ne_zero]
    exact fun h0 => h (BitVec.eq_of_toNat_eq h0)
  have hlt := len.isLt
  rw [BitVec.toNat_sub, BitVec.toNat_ofNat]
  omega

/-- Bytes encoded so far (R161). -/
def State.encoded (st : State) : Nat := st.ip - st.len.toNat

/-- The parts of the encoder's invariant that the slide works on. -/
structure State.WindowInv (st : State) : Prop where
  cursor : st.r = st.s + Config.initPos
  matchLen : st.matchLen.toNat ≤ 18
  mirror : st.MirrorCoherent
  lookahead : st.Lookahead

/-- S is 18 positions on from R (R160). -/
theorem State.WindowInv.s_eq {st : State} (h : st.WindowInv) : st.s = st.r + BitVec.ofNat 12 18 := by
  rw [h.cursor, BitVec.add_assoc, show Config.initPos + BitVec.ofNat 12 18 = 0#12 from rfl, BitVec.add_zero]

/-- A turn counts one byte more as encoded. -/
theorem SlideTurn.encoded {st t : State} (h : SlideTurn st t) (hw : st.Lookahead) (hlen : st.len ≠ 0#5) :
    t.encoded = st.encoded + 1 := by
  have hle := hw.1
  unfold State.encoded
  rcases h.moves with ⟨c, -, hip, hlen', -⟩ | ⟨-, hip, hlen', -⟩
  · rw [hip, hlen']
    omega
  · have hsub := toNat_len_sub_one hlen
    have hpos : st.len.toNat ≠ 0 := fun h0 => hlen (BitVec.eq_of_toNat_eq h0)
    rw [hip, hlen', hsub]
    omega

/-- While input remains, the lookahead is full. -/
theorem State.Lookahead.len_of_input {st : State} (h : st.Lookahead) (hin : st.ip < st.input.length) :
    st.len.toNat = 18 := by
  obtain ⟨hle, -, hip, -⟩ := h
  omega

theorem SlideTurn.mirrorCoherent {st t : State} (h : SlideTurn st t) (hm : st.MirrorCoherent) : t.MirrorCoherent := by
  intro k hk
  rw [h.params]
  rcases h.moves with ⟨c, -, -, -, hring⟩ | ⟨-, -, -, hring⟩
  · rw [ringRead_of_mirroredRing h.params hring, ringRead_of_mirroredRing h.params hring]
    by_cases hs : k = st.s.toNat
    · left
      rw [if_pos (by omega), if_pos (by omega)]
    · rw [if_neg (by omega), if_neg (by omega)]
      exact hm k hk
  · rw [State.ringRead_congr h.params hring, State.ringRead_congr h.params hring]
    exact hm k hk

/-- The lookahead moves on by one byte (R161). -/
theorem SlideTurn.lookahead {st t : State} (h : SlideTurn st t) (hw : st.WindowInv) (hlen : st.len ≠ 0#5) :
    t.Lookahead := by
  have henc := h.encoded hw.lookahead hlen
  obtain ⟨hle, hmin, hip, hbytes⟩ := hw.lookahead
  unfold State.encoded at henc
  unfold State.Lookahead
  rw [henc, h.input, h.r]
  rcases h.moves with ⟨c, hc, hip', hlen', hring⟩ | ⟨hend, hip', hlen', hring⟩
  · obtain ⟨hlt, -⟩ := List.getElem?_eq_some_iff.mp hc
    have h18 := hw.lookahead.len_of_input hlt
    rw [hlen', hip']
    refine ⟨by omega, by omega, by omega, fun k hk => ?_⟩
    rw [pos_add_succ, windowByte_of_mirroredRing h.params hring, hw.s_eq]
    by_cases hk17 : k = 17
    · rw [hk17, if_pos rfl, ← hc]
      congr 1
      omega
    · have hne : st.r + BitVec.ofNat 12 (k + 1) ≠ st.r + BitVec.ofNat 12 18 := fun heq => by
        have := pos_add_inj (by omega) (by omega) (congrArg BitVec.toNat heq)
        omega
      rw [if_neg hne, ← hbytes (k + 1) (by omega)]
      congr 1
      omega
  · have hsub := toNat_len_sub_one hlen
    have hpos : st.len.toNat ≠ 0 := fun h0 => hlen (BitVec.eq_of_toNat_eq h0)
    rw [hlen', hsub, hip']
    refine ⟨by omega, by omega, by omega, fun k hk => ?_⟩
    rw [pos_add_succ, State.windowByte, State.ringRead_congr h.params hring, ← State.windowByte,
      ← hbytes (k + 1) (by omega)]
    congr 1
    omega

/-- A turn of the slide keeps the window's invariant, while there is lookahead (R160, R161, R63). -/
theorem SlideTurn.windowInv {st t : State} (h : SlideTurn st t) (hw : st.WindowInv) (hlen : st.len ≠ 0#5) :
    t.WindowInv where
  cursor := by rw [h.r, h.s, hw.cursor, BitVec.add_assoc, BitVec.add_comm _ 1#12, ← BitVec.add_assoc]
  matchLen := h.matchLen hw.matchLen
  mirror := h.mirrorCoherent hw.mirror
  lookahead := h.lookahead hw hlen

/-! ## The turns of a slide -/

/-- n positions of the slide. -/
def slideTurns (n : Nat) (st : State) : Except Fault State := (List.range n).foldlM (fun s _ => slideTurn s) st

theorem slideTurns_succ (n : Nat) (st : State) : slideTurns (n + 1) st = slideTurns n st >>= slideTurn := by
  rw [slideTurns, List.range_succ, List.foldlM_append]
  show (slideTurns n st >>= fun s => slideTurn s >>= pure) = _
  simp

theorem slideWindow_eq_turns (st : State) :
    st.slideWindow = slideTurns st.matchLen.toNat { st with lastLen := st.matchLen, i := 0#5 } :=
  slideWindow_eq_fold st

theorem bind_eq_ok {x : Except Fault State} {f : State → Except Fault State} {t : State} (h : x >>= f = .ok t) :
    ∃ s, x = .ok s ∧ f s = .ok t := by
  cases x with
  | ok s => exact ⟨s, rfl, h⟩
  | error e => cases h

/-- A property of the number of turns done that every turn keeps. -/
theorem slideTurns_induct (P : Nat → State → Prop) {n : Nat} {st t : State} (h0 : P 0 st)
    (hP : ∀ j s u, j < n → P j s → slideTurn s = .ok u → P (j + 1) u) (h : slideTurns n st = .ok t) : P n t := by
  induction n generalizing t with
  | zero => cases h; exact h0
  | succ n ih =>
    rw [slideTurns_succ] at h
    obtain ⟨s, hs, ht⟩ := bind_eq_ok h
    exact hP n s t (Nat.lt_succ_self n) (ih (fun j s u hj => hP j s u (Nat.lt_succ_of_lt hj)) hs) ht

/-- n turns of the slide lie between st and t (R150, R151). -/
structure Slid (n : Nat) (st t : State) : Prop where
  frame : withoutWindow t = withoutWindow st
  r : t.r = st.r + BitVec.ofNat 12 n
  s : t.s = st.s + BitVec.ofNat 12 n
  ip : t.ip = min st.input.length (st.ip + n)
  len : t.len.toNat + n = st.len.toNat + (t.ip - st.ip)
  bytes : ∀ j, st.ip + j < t.ip →
    st.input[st.ip + j]? = some (t.windowByte (st.s + BitVec.ofNat 12 j))

theorem Slid.refl {st : State} (hip : st.ip ≤ st.input.length) : Slid 0 st st :=
  ⟨rfl, by simp, by simp, by omega, by simp, fun _ _ => by omega⟩

/-- One turn more, while there is lookahead. -/
theorem Slid.turn {n : Nat} {st s t : State} (h : Slid n st s) (hturn : SlideTurn s t) (hn : n < 18)
    (hlen : n < st.len.toNat) (hip : st.ip ≤ st.input.length) : Slid (n + 1) st t := by
  have hinput : s.input = st.input := by rw [eq_of_withoutWindow h.frame]
  have hip' := h.ip
  have hlen' := h.len
  refine ⟨hturn.frame.trans h.frame, ?_, ?_, ?_, ?_, fun j hj => ?_⟩
  · rw [hturn.r, h.r, BitVec.add_assoc, BitVec.ofNat_add]
  · rw [hturn.s, h.s, BitVec.add_assoc, BitVec.ofNat_add]
  · rcases hturn.moves with ⟨c, hc, hmove, -, -⟩ | ⟨hend, hmove, -, -⟩
    · obtain ⟨hlt, -⟩ := List.getElem?_eq_some_iff.mp hc
      rw [hinput] at hlt
      omega
    · rw [hinput] at hend
      omega
  · rcases hturn.moves with ⟨c, hc, hmove, hkeep, -⟩ | ⟨hend, hmove, hkeep, -⟩
    · rw [hmove, hkeep]
      omega
    · have hne : s.len ≠ 0#5 := fun h0 => by
        rw [h0] at hlen'
        simp at hlen'
        omega
      have hpos : s.len.toNat ≠ 0 := fun h0 => hne (BitVec.eq_of_toNat_eq h0)
      rw [hmove, hkeep, toNat_len_sub_one hne]
      omega
  · rcases hturn.moves with ⟨c, hc, hmove, -, hring⟩ | ⟨hend, hmove, -, hring⟩
    · obtain ⟨hlt, -⟩ := List.getElem?_eq_some_iff.mp hc
      rw [hinput] at hlt hc
      rw [windowByte_of_mirroredRing hturn.params hring, h.s]
      by_cases hjn : j = n
      · rw [if_pos (by rw [hjn]), ← hc]
        congr 1
        omega
      · have hne : st.s + BitVec.ofNat 12 j ≠ st.s + BitVec.ofNat 12 n := fun heq =>
          hjn (pos_add_inj (by omega) (by omega) (congrArg BitVec.toNat heq))
        rw [if_neg hne]
        exact h.bytes j (by omega)
    · rw [State.windowByte, State.ringRead_congr hturn.params hring]
      exact h.bytes j (by omega)

theorem slideTurns_slid {n : Nat} {st t : State} (hn : n ≤ 18) (hlen : n ≤ st.len.toNat)
    (hip : st.ip ≤ st.input.length) (h : slideTurns n st = .ok t) : Slid n st t :=
  slideTurns_induct (fun j s => Slid j st s) (.refl hip)
    (fun _ _ _ hj hs hu => hs.turn (slideTurn_of_ok hu) (by omega) (by omega) hip) h

/-- After j turns, j below the lookahead's length, there is lookahead left. -/
theorem Slid.len_ne_zero {j : Nat} {st t : State} (h : Slid j st t) (hj : j < st.len.toNat) : t.len ≠ 0#5 := by
  intro h0
  have hlen := h.len
  rw [h0] at hlen
  simp at hlen
  omega

/-- Turns within the lookahead keep the window's invariant. -/
theorem State.WindowInv.slideTurns {n : Nat} {st t : State} (hw : st.WindowInv) (hn : n ≤ st.len.toNat)
    (h : slideTurns n st = .ok t) : t.WindowInv := by
  obtain ⟨hle, hmin, hip, -⟩ := hw.lookahead
  have hkeep : Slid n st t ∧ t.WindowInv := by
    refine slideTurns_induct (fun j s => Slid j st s ∧ s.WindowInv) ⟨.refl (by omega), hw⟩ ?_ h
    rintro j s u hj ⟨hs, hws⟩ hu
    have hturn := slideTurn_of_ok hu
    exact ⟨hs.turn hturn (by omega) (by omega) (by omega), hturn.windowInv hws (hs.len_ne_zero (by omega))⟩
  exact hkeep.2

end Sys2Proof.Machine

/-! # One iteration of COMPRESS and the encoder's invariant (spec/41_compress.md R141 to R152, R160, R161)

An iteration is one token emission, which keeps the group buffer in form, and as many turns of the slide as the token is
long, which keep the window's invariant. -/

namespace Sys2Proof.Machine

/-! ## The group buffer (R32 to R34, R148, R149) -/

theorem matchCount_le (c : Byte) (k : Nat) : matchCount c k ≤ k := by
  induction k with
  | zero => exact Nat.le_refl 0
  | succ k ih =>
    simp only [matchCount]
    split <;> omega

/-- Only the bits below k count. -/
theorem matchCount_congr {c d : Byte} {k : Nat} (h : ∀ j, j < k → c.getLsbD j = d.getLsbD j) :
    matchCount c k = matchCount d k := by
  induction k with
  | zero => rfl
  | succ k ih =>
    simp only [matchCount]
    rw [ih fun j hj => h j (Nat.lt_succ_of_lt hj), h k (Nat.lt_succ_self k)]

theorem getLsbD_or_mask (c : Byte) {k : Nat} (hk : k < 8) (j : Nat) :
    (c ||| 1#8 <<< k).getLsbD j = (c.getLsbD j || decide (k = j)) := by
  rw [BitVec.getLsbD_or, ← BitVec.twoPow_eq, BitVec.getLsbD_twoPow]
  simp [hk]

/-- CODE_PTR in an open group leaves room for a match (R33). -/
theorem State.GroupOpen.codePtr_bounds {st : State} (h : st.GroupOpen) :
    1 ≤ st.codePtr.toNat ∧ st.codePtr.toNat ≤ 15 := by
  obtain ⟨k, hk, -, hptr, -⟩ := h
  have := matchCount_le st.codeBuf[0] k
  omega

/-- Only MASK, CODE_PTR and the control byte are looked at. -/
theorem State.GroupOpen.congr {st t : State} (h : st.GroupOpen) (hmask : t.mask = st.mask)
    (hptr : t.codePtr = st.codePtr) (hbuf : t.codeBuf = st.codeBuf) : t.GroupOpen := by
  unfold State.GroupOpen
  rw [hmask, hptr, hbuf]
  exact h

/-- The group's k-th token is emitted: CODE_PTR and the control byte have it, MASK still selects it. -/
structure TokenAdded (k : Nat) (st : State) : Prop where
  mask : st.mask = 1#8 <<< k
  ptr : st.codePtr.toNat = 1 + (k + 1) + matchCount st.codeBuf[0] (k + 1)
  absent : ∀ n, k + 1 ≤ n → st.codeBuf[0].getLsbD n = false

theorem tokenAdded_lit {st t : State} {k : Nat} (hmask : st.mask = 1#8 <<< k)
    (hptr : st.codePtr.toNat = 1 + k + matchCount st.codeBuf[0] k) (hbits : ∀ n, k ≤ n → st.codeBuf[0].getLsbD n = false)
    (h15 : st.codePtr.toNat ≤ 15) (hm : t.mask = st.mask) (hp : t.codePtr = st.codePtr + 1#5)
    (hc : t.codeBuf[0] = st.codeBuf[0]) : TokenAdded k t where
  mask := hm.trans hmask
  ptr := by
    rw [hp, toNat_codePtr_succ h15, hptr, hc, matchCount, hbits k (Nat.le_refl k)]
    simp
    omega
  absent n hn := by rw [hc]; exact hbits n (by omega)

theorem tokenAdded_match {st t : State} {k : Nat} (hk : k < 8) (hmask : st.mask = 1#8 <<< k)
    (hptr : st.codePtr.toNat = 1 + k + matchCount st.codeBuf[0] k) (hbits : ∀ n, k ≤ n → st.codeBuf[0].getLsbD n = false)
    (h15 : st.codePtr.toNat ≤ 15) (hm : t.mask = st.mask) (hp : t.codePtr = st.codePtr + 2#5)
    (hc : t.codeBuf[0] = st.codeBuf[0] ||| st.mask) : TokenAdded k t where
  mask := hm.trans hmask
  ptr := by
    have hp2 : (st.codePtr + 2#5).toNat = st.codePtr.toNat + 2 := by
      rw [BitVec.toNat_add, BitVec.toNat_ofNat]
      omega
    have hcount : matchCount (st.codeBuf[0] ||| 1#8 <<< k) k = matchCount st.codeBuf[0] k :=
      matchCount_congr fun j hj => by rw [getLsbD_or_mask _ hk]; simp; omega
    rw [hp, hp2, hptr, hc, hmask, matchCount, hcount, getLsbD_or_mask _ hk]
    simp
    omega
  absent n hn := by
    rw [hc, hmask, getLsbD_or_mask _ hk, hbits n (by omega)]
    simp
    omega

/-- Mask advance and flush leave an open group (R149). -/
theorem TokenAdded.groupOpen {k : Nat} {st : State} (h : TokenAdded k st) (hk : k < 8) : st.closeToken.GroupOpen := by
  have hshift : st.mask <<< 1 = 1#8 <<< (k + 1) := by rw [h.mask, ← BitVec.shiftLeft_add]
  by_cases h7 : k = 7
  · rw [closeToken_of_full (by rw [hshift, h7]; rfl)]
    exact ⟨0, by omega, rfl, by simp [matchCount], by simp⟩
  · have hne : ∀ j < 7, 1#8 <<< (j + 1) ≠ 0#8 := by decide
    rw [closeToken_of_open (by rw [hshift]; exact hne k (by omega))]
    exact ⟨k + 1, by omega, hshift, h.ptr, h.absent⟩

/-! ## The token of an iteration -/

/-- The length of the token that an iteration emits: 1 for a literal, the clamped match length for a match (R145 to
R148). -/
def State.tokenLen (st : State) : Nat :=
  if min st.matchLen.toNat st.len.toNat ≤ 2 then 1 else min st.matchLen.toNat st.len.toNat

theorem State.tokenLen_bounds {st : State} (hm : st.matchLen.toNat ≤ 18) (hlen : st.len ≠ 0#5) :
    1 ≤ st.tokenLen ∧ st.tokenLen ≤ 18 ∧ st.tokenLen ≤ st.len.toNat := by
  have hpos : st.len.toNat ≠ 0 := fun h0 => hlen (BitVec.eq_of_toNat_eq h0)
  unfold State.tokenLen
  split <;> omega

/-- What the token emission of an iteration does to the state, for a literal (R147) and for a match (R148). -/
structure TokenEmitted (st tok : State) : Prop where
  matchLen : tok.matchLen = BitVec.ofNat 5 st.tokenLen
  lit : min st.matchLen.toNat st.len.toNat ≤ 2 →
    tok = { st with codeBuf := tok.codeBuf, codePtr := st.codePtr + 1#5, matchLen := tok.matchLen } ∧
      tok.codeBuf[st.codePtr.toNat]? = some (st.windowByte st.r) ∧
      ∀ j, j ≠ st.codePtr.toNat → tok.codeBuf[j]? = st.codeBuf[j]?
  matched : 2 < min st.matchLen.toNat st.len.toNat →
    tok = { st with codeBuf := tok.codeBuf, codePtr := st.codePtr + 2#5, matchLen := tok.matchLen } ∧
      tok.codeBuf[0] = st.codeBuf[0] ||| st.mask ∧
      tok.codeBuf[st.codePtr.toNat]? = some (matchByte0 st.matchPos) ∧
      tok.codeBuf[st.codePtr.toNat + 1]? =
        some (matchByte1 st.matchPos (min st.matchLen.toNat st.len.toNat)) ∧
      ∀ j, 1 ≤ j → j ≠ st.codePtr.toNat → j ≠ st.codePtr.toNat + 1 → tok.codeBuf[j]? = st.codeBuf[j]?

/-- With room in the group buffer, an iteration emits its token. -/
theorem chooseToken_tokenEmitted {st : State} (h1 : 1 ≤ st.codePtr.toNat) (h15 : st.codePtr.toNat ≤ 15) :
    ∃ tok, st.clampMatch.chooseToken = .ok tok ∧ TokenEmitted st tok := by
  by_cases hm : min st.matchLen.toNat st.len.toNat ≤ 2
  · have hptr : st.codePtr.toNat < 17 := by omega
    have hlit := emitLiteral_eq (st := { st with matchLen := 1#5 }) hptr
    refine ⟨_, (clampMatch_chooseToken_of_le hm).trans hlit, ?_, fun _ => ⟨rfl, ?_, fun j hj => ?_⟩,
      fun h => absurd hm (Nat.not_le.mpr h)⟩
    · rw [State.tokenLen, if_pos hm]
    · exact Vector.getElem?_set_self hptr
    · exact Vector.getElem?_set_ne hptr (Ne.symm hj)
  · have hlt := Nat.not_le.mp hm
    obtain ⟨tok, htok, hframe, hcontrol, hfirst, hsecond, hother⟩ := emitMatch_cells
      (st := { st with matchLen := BitVec.ofNat 5 (min st.matchLen.toNat st.len.toNat) }) h1 h15
    have hlen : tok.matchLen = BitVec.ofNat 5 (min st.matchLen.toNat st.len.toNat) := by rw [hframe]
    refine ⟨tok, (clampMatch_chooseToken_of_lt hlt).trans htok, ?_, fun h => absurd h hm,
      fun _ => ⟨by rw [hlen]; exact hframe, hcontrol, hfirst, ?_, hother⟩⟩
    · rw [hlen, State.tokenLen, if_neg hm]
    · rw [← toNat_clampedLen]
      exact hsecond

/-- Token emission and mask advance keep the group buffer in form. -/
theorem TokenEmitted.groupOpen {st tok : State} (h : TokenEmitted st tok) (hg : st.GroupOpen) :
    tok.closeToken.GroupOpen := by
  obtain ⟨h1, h15⟩ := hg.codePtr_bounds
  obtain ⟨k, hk, hmask, hptr, hbits⟩ := hg
  have hadded : TokenAdded k tok := by
    by_cases hm : min st.matchLen.toNat st.len.toNat ≤ 2
    · obtain ⟨hframe, -, hother⟩ := h.lit hm
      have hcontrol : tok.codeBuf[0] = st.codeBuf[0] := by simpa using hother 0 (by omega)
      exact tokenAdded_lit hmask hptr hbits h15 (by rw [hframe]) (by rw [hframe]) hcontrol
    · obtain ⟨hframe, hcontrol, -⟩ := h.matched (Nat.not_le.mp hm)
      exact tokenAdded_match hk hmask hptr hbits h15 (by rw [hframe]) (by rw [hframe]) hcontrol
  exact hadded.groupOpen hk

/-! ## An iteration as turns of the slide -/

theorem loopTest_eq (st : State) : st.loopTest = { st with seq := if st.len = 0#5 then .eFlush else .eIter } := by
  unfold State.loopTest
  split <;> rfl

/-- The state in which the slide of an iteration starts, after the token tok: LAST_LEN is its length, I is 0. -/
def slideStart (tok : State) (n : Nat) : State := { tok.closeToken with lastLen := BitVec.ofNat 5 n, i := 0#5 }

/-- An iteration, once its token is emitted, is the slide of the token's length and the loop test. -/
theorem encoderIter_eq_turns {st tok : State} {n : Nat} (h : st.clampMatch.chooseToken = .ok tok)
    (hn : tok.matchLen = BitVec.ofNat 5 n) (hlt : n < 32) :
    st.encoderIter = (slideTurns n (slideStart tok n)).map State.loopTest := by
  have hlen : tok.closeToken.matchLen = BitVec.ofNat 5 n := by rw [(closeToken_frame tok).1]; exact hn
  have htoNat : tok.closeToken.matchLen.toNat = n := by
    rw [hlen, BitVec.toNat_ofNat]
    omega
  have hslide : tok.closeToken.slideWindow = slideTurns n (slideStart tok n) := by
    rw [slideWindow_eq_turns, htoNat, slideStart, ← hlen]
  simp only [State.encoderIter, h, hslide]
  cases slideTurns n (slideStart tok n) <;> rfl

/-- Nothing of the window, the tree or the input differs where the slide starts. -/
theorem slideStart_eq {st tok : State} (h : st.clampMatch.chooseToken = .ok tok) (n : Nat) :
    slideStart tok n = { st with
      lastLen := BitVec.ofNat 5 n, i := 0#5, codeBuf := tok.closeToken.codeBuf, codePtr := tok.closeToken.codePtr,
      matchLen := tok.closeToken.matchLen, mask := tok.closeToken.mask, out := tok.closeToken.out } := by
  have e := eq_of_withoutToken (tokenEmission_frame h).1
  unfold slideStart
  conv_lhs => rw [e]

/-- The parts of the invariant that the window and the group buffer are about, with what is said of LEN. -/
theorem windowInv_and_groupOpen (st : State) (lenFact : Prop) :
    (st.r = st.s + Config.initPos ∧ st.matchLen.toNat ≤ 18 ∧ st.GroupOpen ∧ st.MirrorCoherent ∧ st.Lookahead ∧ lenFact) ↔
      st.WindowInv ∧ st.GroupOpen ∧ lenFact :=
  ⟨fun ⟨hr, hm, hg, hmirror, hlook, hlen⟩ => ⟨⟨hr, hm, hmirror, hlook⟩, hg, hlen⟩,
    fun ⟨⟨hr, hm, hmirror, hlook⟩, hg, hlen⟩ => ⟨hr, hm, hg, hmirror, hlook, hlen⟩⟩

theorem State.encoderInv_eSeed {st : State} (hs : st.seq = .eSeed) :
    st.EncoderInv ↔ st.WindowInv ∧ st.GroupOpen ∧ st.len ≠ 0#5 := by
  simp only [State.EncoderInv, hs, windowInv_and_groupOpen]

theorem State.encoderInv_eIter {st : State} (hs : st.seq = .eIter) :
    st.EncoderInv ↔ st.WindowInv ∧ st.GroupOpen ∧ st.len ≠ 0#5 := by
  simp only [State.EncoderInv, hs, windowInv_and_groupOpen]

theorem State.encoderInv_eFlush {st : State} (hs : st.seq = .eFlush) :
    st.EncoderInv ↔ st.WindowInv ∧ st.GroupOpen ∧ st.len = 0#5 := by
  simp only [State.EncoderInv, hs, windowInv_and_groupOpen]

/-- An iteration taken apart: its token tok, and the end u of its slide. -/
structure Iteration (st tok u : State) : Prop where
  token : st.clampMatch.chooseToken = .ok tok
  emitted : TokenEmitted st tok
  turns : slideTurns st.tokenLen (slideStart tok st.tokenLen) = .ok u

/-- Under the invariant an iteration emits its token, and then is its slide and the loop test. -/
theorem encoderIter_token {st : State} (hw : st.WindowInv) (hg : st.GroupOpen) (hlen : st.len ≠ 0#5) :
    ∃ tok, st.clampMatch.chooseToken = .ok tok ∧ TokenEmitted st tok ∧
      st.encoderIter = (slideTurns st.tokenLen (slideStart tok st.tokenLen)).map State.loopTest := by
  obtain ⟨h1, h15⟩ := hg.codePtr_bounds
  obtain ⟨tok, htok, hemitted⟩ := chooseToken_tokenEmitted h1 h15
  obtain ⟨-, h18, -⟩ := State.tokenLen_bounds hw.matchLen hlen
  exact ⟨tok, htok, hemitted, encoderIter_eq_turns htok hemitted.matchLen (by omega)⟩

theorem encoderIter_iteration {st t : State} (hw : st.WindowInv) (hg : st.GroupOpen) (hlen : st.len ≠ 0#5)
    (h : st.encoderIter = .ok t) : ∃ tok u, Iteration st tok u ∧ t = u.loopTest := by
  obtain ⟨tok, htok, hemitted, heq⟩ := encoderIter_token hw hg hlen
  rw [heq] at h
  cases hu : slideTurns st.tokenLen (slideStart tok st.tokenLen) with
  | error f => rw [hu] at h; cases h
  | ok u => rw [hu] at h; cases h; exact ⟨tok, u, ⟨htok, hemitted, hu⟩, rfl⟩

theorem blockStep_eIter {st : State} (hs : st.seq = .eIter) : blockStep st = outcomeOf st.encoderIter := by
  simp only [blockStep, hs]

/-- Settles O42: the token of `TokenEmitted`, and the turns of `encoderIter_eq_turns`. -/
theorem iterationEmitsOneTokenAndSlides : Obligations.IterationEmitsOneTokenAndSlides := by
  rintro st m n hh hs hinv rfl rfl
  obtain ⟨hw, hg, hlen⟩ := (State.encoderInv_eIter hs).mp hinv
  obtain ⟨hpos, h18, hle⟩ := State.tokenLen_bounds hw.matchLen hlen
  obtain ⟨tok, htok, hemitted, heq⟩ := encoderIter_token hw hg hlen
  refine ⟨hpos, h18, hle, tok, htok, hemitted.matchLen, hemitted.lit, fun hm => ?_, ?_⟩
  · obtain ⟨hframe, hcontrol, hfirst, hsecond, hother⟩ := hemitted.matched hm
    have hm18 : min st.matchLen.toNat st.len.toNat ≤ 18 := (Nat.min_le_left _ _).trans hw.matchLen
    refine ⟨hframe, hcontrol, hfirst.trans ?_, hsecond.trans ?_, hother⟩
    · rw [← toNat_matchByte0, BitVec.ofNat_toNat, BitVec.setWidth_eq]
    · rw [← toNat_matchByte1 _ hm18, BitVec.ofNat_toNat, BitVec.setWidth_eq]
  · rw [step_of_no_move hh, blockStep_eIter hs, heq, funext loopTest_eq]
    rfl

/-- The slide of an iteration moves the window by the token's length, from where the token found it. -/
theorem Iteration.slid {st tok u : State} (h : Iteration st tok u) (hw : st.WindowInv) (hlen : st.len ≠ 0#5) :
    Slid st.tokenLen (slideStart tok st.tokenLen) u := by
  obtain ⟨-, h18, hle⟩ := State.tokenLen_bounds hw.matchLen hlen
  obtain ⟨-, -, hip, -⟩ := hw.lookahead
  have e := slideStart_eq h.token st.tokenLen
  exact slideTurns_slid h18 (by rw [e]; exact hle) (by rw [e]; exact (hip.trans_le (Nat.min_le_left _ _))) h.turns

/-- Settles O43: the registers and the bytes of `Slid`. -/
theorem iterationAdvancesByTheToken : Obligations.IterationAdvancesByTheToken := by
  rintro st t m n hh hs hinv hstep rfl rfl
  obtain ⟨hw, hg, hlen⟩ := (State.encoderInv_eIter hs).mp hinv
  rw [step_of_no_move hh, blockStep_eIter hs] at hstep
  obtain ⟨tok, u, hiter, rfl⟩ := encoderIter_iteration hw hg hlen (outcomeOf_eq_next hstep)
  have hslid := hiter.slid hw hlen
  have e := slideStart_eq hiter.token st.tokenLen
  rw [loopTest_eq]
  refine ⟨?_, ?_, ?_, ?_, ?_⟩
  · rw [hslid.r, e]; rfl
  · rw [hslid.s, e]; rfl
  · rw [hslid.ip, e]; rfl
  · have hl := hslid.len
    rw [e] at hl
    exact hl
  · have hb := hslid.bytes
    rw [e] at hb
    exact hb

/-! ## The encoder's invariant -/

theorem State.WindowInv.congr {st t : State} (h : st.WindowInv) (hr : t.r = st.r) (hs : t.s = st.s)
    (hp : t.params = st.params) (hring : t.ring = st.ring) (hip : t.ip = st.ip) (hlen : t.len = st.len)
    (hin : t.input = st.input) (hm : t.matchLen.toNat ≤ 18) : t.WindowInv where
  cursor := by rw [hr, hs]; exact h.cursor
  matchLen := hm
  mirror := by
    unfold State.MirrorCoherent State.ringRead
    rw [hp, hring]
    exact h.mirror
  lookahead := by
    unfold State.Lookahead State.windowByte State.ringRead
    rw [hp, hring, hip, hlen, hin, hr]
    exact h.lookahead

/-- The slide starts in a window that the token emission left alone. -/
theorem TokenEmitted.windowInv {st tok : State} (h : TokenEmitted st tok) (htok : st.clampMatch.chooseToken = .ok tok)
    (hw : st.WindowInv) (hlen : st.len ≠ 0#5) : (slideStart tok st.tokenLen).WindowInv := by
  have e := slideStart_eq htok st.tokenLen
  obtain ⟨-, h18, -⟩ := State.tokenLen_bounds hw.matchLen hlen
  have hm : (slideStart tok st.tokenLen).matchLen = BitVec.ofNat 5 st.tokenLen := by
    rw [slideStart, (closeToken_frame tok).1]
    exact h.matchLen
  refine hw.congr (by rw [e]) (by rw [e]) (by rw [e]) (by rw [e]) (by rw [e]) (by rw [e]) (by rw [e]) ?_
  rw [hm, BitVec.toNat_ofNat]
  omega

theorem Iteration.windowInv {st tok u : State} (h : Iteration st tok u) (hw : st.WindowInv) (hlen : st.len ≠ 0#5) :
    u.WindowInv := by
  obtain ⟨-, -, hle⟩ := State.tokenLen_bounds hw.matchLen hlen
  have e := slideStart_eq h.token st.tokenLen
  exact (h.emitted.windowInv h.token hw hlen).slideTurns (by rw [e]; exact hle) h.turns

theorem Iteration.groupOpen {st tok u : State} (h : Iteration st tok u) (hw : st.WindowInv) (hg : st.GroupOpen)
    (hlen : st.len ≠ 0#5) : u.GroupOpen := by
  have e := eq_of_withoutWindow (h.slid hw hlen).frame
  exact (h.emitted.groupOpen hg).congr (by rw [e]; rfl) (by rw [e]; rfl) (by rw [e]; rfl)

/-- The loop test keeps the invariant: LEN decides between E_ITER and E_FLUSH (R152). -/
theorem State.WindowInv.loopTest {st : State} (hw : st.WindowInv) (hg : st.GroupOpen) : st.loopTest.EncoderInv := by
  rw [loopTest_eq]
  by_cases h0 : st.len = 0#5
  · rw [if_pos h0]
    exact (State.encoderInv_eFlush rfl).mpr ⟨hw.congr rfl rfl rfl rfl rfl rfl rfl hw.matchLen, hg, h0⟩
  · rw [if_neg h0]
    exact (State.encoderInv_eIter rfl).mpr ⟨hw.congr rfl rfl rfl rfl rfl rfl rfl hw.matchLen, hg, h0⟩

theorem encoderIter_encoderInv {st t : State} (hw : st.WindowInv) (hg : st.GroupOpen) (hlen : st.len ≠ 0#5)
    (h : st.encoderIter = .ok t) : t.EncoderInv := by
  obtain ⟨tok, u, hiter, rfl⟩ := encoderIter_iteration hw hg hlen h
  exact (hiter.windowInv hw hlen).loopTest (hiter.groupOpen hw hg hlen)

/-- The load of a non-empty input leaves a window that meets the invariant (R142, R161). -/
theorem encoderLoad_windowInv {st : State} (h : st.AtCallStart) : st.encoderLoad.WindowInv := by
  obtain ⟨hip, -, hr, hs, -, -, hm, -, -, -, hring, -⟩ := h
  obtain ⟨hip', hload⟩ := encoderLoad_loadedFrom hip
  have e := encoderLoad_frame st
  have hcells := hload.ring
  rw [hip, hip'] at hcells
  have hinput : st.encoderLoad.input = st.input := by rw [e]
  have hcursor : st.encoderLoad.r = Config.initPos := by rw [e]; exact hr
  refine ⟨?_, ?_, fun k hk => .inr ?_, ?_⟩
  · rw [e, hs]
    exact hr.trans (BitVec.zero_add _).symm
  · rw [e]
    show st.matchLen.toNat ≤ 18
    rw [hm]
    decide
  · have hp : st.encoderLoad.params = st.params := by rw [e]
    rw [hcells, hcells, if_neg (by omega), if_neg (by omega), State.ringRead_of_nil hring, State.ringRead_of_nil hring,
      ringDefault, ringDefault, Config.primedCells, if_pos (by omega), if_neg (by omega), hp]
    exact ⟨rfl, rfl⟩
  · unfold State.Lookahead
    rw [hload.len, hip', hinput]
    refine ⟨Nat.le_refl _, by omega, by omega, fun k hk => ?_⟩
    have haddr : (Config.initPos + BitVec.ofNat 12 k).toNat = 4078 + k := by
      rw [BitVec.toNat_add, BitVec.toNat_ofNat, BitVec.toNat_ofNat]
      omega
    rw [hcursor, State.windowByte, haddr, hcells, if_pos (by omega), Nat.add_sub_cancel_left, Nat.sub_self, Nat.zero_add,
      List.getD_eq_getElem?_getD, List.getElem?_eq_getElem (by omega)]
    rfl

theorem groupOpen_of_atCallStart {st : State} (h : st.AtCallStart) : st.GroupOpen := by
  obtain ⟨-, -, -, -, -, -, -, hmask, hptr, hcontrol, -⟩ := h
  exact ⟨0, by omega, hmask, by rw [hptr]; rfl, by simp [hcontrol]⟩

theorem encoderLoad_encoderInv {st : State} (h : st.AtCallStart) : st.encoderLoad.EncoderInv := by
  have e := encoderLoad_frame st
  rcases encoderLoad_moves st with ⟨-, hseq, -⟩ | ⟨hlen, hseq, -⟩
  · simp only [State.EncoderInv, hseq]
  · exact (State.encoderInv_eSeed hseq).mpr
      ⟨encoderLoad_windowInv h, (groupOpen_of_atCallStart h).congr (by rw [e]) (by rw [e]) (by rw [e]), hlen⟩

theorem encoderSeed_encoderInv {st t : State} (hs : st.seq = .eSeed) (hinv : st.EncoderInv)
    (h : st.encoderSeed = .ok t) : t.EncoderInv := by
  obtain ⟨hw, hg, hlen⟩ := (State.encoderInv_eSeed hs).mp hinv
  obtain ⟨-, hm, -⟩ := encoderSeed_frame h
  have e := eq_of_encoderSeed h
  have hseq : t.seq = .eIter := by rw [e]
  exact (State.encoderInv_eIter hseq).mpr
    ⟨hw.congr (by rw [e]) (by rw [e]) (by rw [e]) (by rw [e]) (by rw [e]) (by rw [e]) (by rw [e]) hm,
      hg.congr (by rw [e]) (by rw [e]) (by rw [e]), by rw [e]; exact hlen⟩

theorem encoderInit_atCallStart (st : State) : st.encoderInit.AtCallStart :=
  ⟨rfl, rfl, rfl, rfl, rfl, rfl, rfl, rfl, rfl, rfl, rfl, rfl, rfl, rfl⟩

/-- Outside the encoder's phases the invariant says nothing. -/
theorem encoderInv_of_not_encoding {st : State} (h : st.encoding = false) : st.EncoderInv := by
  unfold State.encoding at h
  unfold State.EncoderInv
  cases hs : st.seq <;> simp [hs] at h <;> trivial

theorem blockStep_encoderInv {st t : State} (hinv : st.EncoderInv) (h : blockStep st = .next t) : t.EncoderInv := by
  have hmove := (blockStep_transition h).moves
  unfold SeqMoves at hmove
  cases hs : st.seq <;> simp only [blockStep, hs] at h hmove
  case idle | done => cases h; exact hinv
  case dInit | eFlush => exact encoderInv_of_not_encoding (by simp [State.encoding, hmove])
  case dCycle => exact encoderInv_of_not_encoding (by rcases hmove with hm | hm <;> simp [State.encoding, hm])
  case eInit =>
    cases h
    exact encoderInit_atCallStart st
  case eLoad =>
    cases h
    simp only [State.EncoderInv, hs] at hinv
    exact encoderLoad_encoderInv hinv
  case eSeed => exact encoderSeed_encoderInv hs hinv (outcomeOf_eq_next h)
  case eIter =>
    obtain ⟨hw, hg, hlen⟩ := (State.encoderInv_eIter hs).mp hinv
    exact encoderIter_encoderInv hw hg hlen (outcomeOf_eq_next h)

/-- The invariant does not look at the host's side of the port. -/
theorem hostStep_encoderInv {m : HostMove} {st t : State} (hinv : st.EncoderInv) (h : hostStep m st = .next t) :
    t.EncoderInv := by
  cases m with
  | pass => exact blockStep_encoderInv hinv h
  | start op b =>
    rw [startCall_eq_next ((exec_decodeCommand op b st).symm.trans h)]
    rcases BitVec.eq_zero_or_eq_one op with rfl | rfl <;> exact encoderInv_of_not_encoding rfl
  | readStatus => cases h; exact hinv
  | readOut =>
    simp only [hostStep, readOut] at h
    split at h
    · cases h; exact hinv
    · cases h
  | blockReset => cases h; trivial

/-- Settles O22: each host move and each transition of the sequencer keeps the invariant. -/
theorem stepKeepsEncoderInvariant : Obligations.StepKeepsEncoderInvariant := by
  intro st t hinv h
  cases hm : st.host with
  | nil => exact blockStep_encoderInv hinv ((step_of_no_move hm).symm.trans h)
  | cons m rest => exact hostStep_encoderInv (st := { st with host := rest }) hinv ((step_of_move hm).symm.trans h)

end Sys2Proof.Machine

/-! # The tokens of a COMPRESS call (spec/41_compress.md R88, R146, R158)

Each iteration adds one token to what the encoder has emitted, and that token stands for as many input bytes as the
iteration encodes.  A token's encoding is no longer than what it stands for, and eight tokens share a control byte. -/

namespace Sys2Proof.Machine

/-! ## Tokens and the bytes they stand for -/

/-- The number of input bytes a token stands for: one for a literal, its length for a match. -/
def span : Instr → Nat
  | .lit _ => 1
  | .matchTok _ len => len
  | .ctrl _ | .cmdCompress _ | .cmdDecompress _ => 0

/-- The number of input bytes that tokens stand for. -/
def spans (tokens : List Instr) : Nat := (tokens.map span).sum

theorem spans_append (tokens tokens' : List Instr) : spans (tokens ++ tokens') = spans tokens + spans tokens' := by
  simp [spans]

@[simp] theorem spans_singleton (tok : Instr) : spans [tok] = span tok := by simp [spans]

/-- A token is encoded in at least one byte and in no more than it stands for. -/
theorem length_encode_le_span {i : Instr} (h : IsToken i) : 1 ≤ span i ∧ (encode i).length ≤ span i := by
  cases i with
  | lit d => exact ⟨Nat.le_refl 1, Nat.le_refl 1⟩
  | matchTok pos len =>
    obtain ⟨h3, h18⟩ := (wf_matchTok_iff pos len).mp h.1
    rw [encode_matchTok pos h18]
    exact ⟨Nat.le_trans (by omega) h3, Nat.le_trans (by simp) h3⟩
  | ctrl _ | cmdCompress _ | cmdDecompress _ => obtain ⟨-, hk | hk⟩ := h <;> cases hk

theorem length_le_spans {tokens : List Instr} (h : ∀ i ∈ tokens, IsToken i) :
    tokens.length ≤ spans tokens ∧ (tokens.flatMap encode).length ≤ spans tokens := by
  induction tokens with
  | nil => exact ⟨Nat.le_refl 0, Nat.le_refl 0⟩
  | cons tok tokens ih =>
    obtain ⟨htok, hrest⟩ := List.forall_mem_cons.mp h
    obtain ⟨hone, hcode⟩ := length_encode_le_span htok
    obtain ⟨hlen, hflat⟩ := ih hrest
    have hcons : spans (tok :: tokens) = span tok + spans tokens := by simp [spans]
    rw [hcons, List.flatMap_cons, List.length_append, List.length_cons]
    exact ⟨by omega, by omega⟩

/-- The clamped choice stands for as many bytes as the iteration slides (R145, R146). -/
theorem span_token (st : State) : span st.clampMatch.token = st.tokenLen := by
  have hm : st.clampMatch.matchLen.toNat = min st.matchLen.toNat st.len.toNat := by
    rw [clampMatch_eq]
    exact toNat_clampedLen st
  unfold State.token State.tokenLen
  rw [hm]
  split <;> rfl

/-! ## Tokens in groups -/

/-- These bytes are the tokens in groups, all of 8 but the last, which has 1 to 8 (R88). -/
def EncodesTokens (bytes : List Byte) (tokens : List Instr) : Prop :=
  ∃ groups : List (List Instr), bytes = groups.flatMap encodeGroup ∧ groups.flatten = tokens ∧
    (∀ g ∈ groups, 1 ≤ g.length ∧ g.length ≤ 8) ∧ (∀ g ∈ groups.dropLast, g.length = 8) ∧
    ∀ i ∈ tokens, IsToken i

theorem encodesTokens_nil : EncodesTokens [] [] :=
  ⟨[], rfl, rfl, nofun, nofun, nofun⟩

/-- Eight tokens share a control byte. -/
theorem groups_length_le {groups : List (List Instr)} (hpos : ∀ g ∈ groups, 1 ≤ g.length)
    (hfull : ∀ g ∈ groups.dropLast, g.length = 8) : 8 * groups.length ≤ groups.flatten.length + 7 := by
  induction groups with
  | nil => exact Nat.zero_le _
  | cons g rest ih =>
    obtain ⟨hg, hrest⟩ := List.forall_mem_cons.mp hpos
    rw [List.flatten_cons, List.length_append, List.length_cons]
    cases rest with
    | nil => simp; omega
    | cons g' rest =>
      rw [List.dropLast_cons_cons, List.forall_mem_cons] at hfull
      have := ih hrest hfull.2
      omega

theorem length_flatMap_encodeGroup (groups : List (List Instr)) :
    (groups.flatMap encodeGroup).length = groups.length + (groups.flatten.flatMap encode).length := by
  induction groups with
  | nil => rfl
  | cons g rest ih =>
    rw [List.flatMap_cons, List.length_append, ih, List.flatten_cons, List.flatMap_append, List.length_append,
      List.length_cons, encodeGroup, List.length_cons]
    omega

/-- One byte for each input byte, and one more for each eight (R158). -/
theorem EncodesTokens.length_le {bytes : List Byte} {tokens : List Instr} (h : EncodesTokens bytes tokens) :
    bytes.length ≤ spans tokens + (spans tokens + 7) / 8 := by
  obtain ⟨groups, rfl, rfl, hlen, hfull, htokens⟩ := h
  obtain ⟨hcount, hcode⟩ := length_le_spans htokens
  have hgroups := groups_length_le (fun g hg => (hlen g hg).1) hfull
  rw [length_flatMap_encodeGroup]
  omega

/-! ## What the encoder has emitted -/

/-- The tokens emitted so far, those of the open group among them. -/
def EmittedTokens (st : State) (tokens : List Instr) : Prop :=
  ∃ full rest, Emitted st full rest ∧ full.flatten ++ rest = tokens

theorem EmittedTokens.congr {st t : State} {tokens : List Instr} (h : EmittedTokens st tokens)
    (hout : t.out = st.out) (hmask : t.mask = st.mask) (hbuf : t.codeBuf = st.codeBuf)
    (hptr : t.codePtr = st.codePtr) : EmittedTokens t tokens := by
  obtain ⟨full, rest, hemitted, heq⟩ := h
  exact ⟨full, rest, hemitted.congr hout hmask hbuf hptr, heq⟩

theorem emittedTokens_of_atCallStart {st : State} (h : st.AtCallStart) : EmittedTokens st [] := by
  obtain ⟨-, hout, -, -, -, -, -, hmask, hptr, hcontrol, -⟩ := h
  refine ⟨[], [], ⟨hout, nofun, nofun, Nat.zero_lt_succ 7, nofun, hmask, ?_, ?_⟩, rfl⟩
  · have htake : st.codeBuf.toList.take 1 = [st.codeBuf[0]] := by
      simp [List.take_one, List.head?_eq_getElem?]
    rw [State.pendingCode, hptr]
    exact htake.trans (by rw [hcontrol]; rfl)
  · rw [hptr]
    rfl

/-- An iteration adds its token (R141, R146). -/
theorem EmittedTokens.encoderIter {st t : State} {tokens : List Instr} (h : EmittedTokens st tokens)
    (hm : st.matchLen.toNat ≤ 18) (hstep : st.encoderIter = .ok t) :
    EmittedTokens t (tokens ++ [st.clampMatch.token]) := by
  obtain ⟨full, rest, hemitted, rfl⟩ := h
  obtain ⟨-, ⟨-, hnext⟩ | ⟨-, hnext⟩⟩ := hemitted.encoderIter hm hstep
  · exact ⟨full, _, hnext, by rw [List.append_assoc]⟩
  · exact ⟨_, [], hnext, by simp⟩

/-- The final flush sends the open group, if it has tokens, after the full ones (R153). -/
theorem EmittedTokens.encoderFlush {st : State} {tokens : List Instr} (h : EmittedTokens st tokens) :
    EncodesTokens st.encoderFlush.out tokens := by
  obtain ⟨full, rest, hemitted, rfl⟩ := h
  have htokens : ∀ i ∈ full.flatten ++ rest, IsToken i := by
    simp only [List.forall_mem_append, List.mem_flatten]
    exact ⟨fun i ⟨g, hg, hi⟩ => hemitted.fullTokens g hg i hi, hemitted.openTokens⟩
  have hfull : ∀ g ∈ full, 1 ≤ g.length ∧ g.length ≤ 8 := fun g hg => by
    have := hemitted.fullLength g hg
    omega
  have hptr : 1 < st.codePtr.toNat ↔ rest ≠ [] := by
    rw [hemitted.holds.ptr, one_lt_length_encodeGroup hemitted.openTokens]
  unfold State.encoderFlush
  by_cases hrest : rest = []
  · subst hrest
    rw [if_neg (by simp [hptr])]
    exact ⟨full, hemitted.out, (List.append_nil _).symm, hfull,
      fun g hg => hemitted.fullLength g (List.mem_of_mem_dropLast hg), htokens⟩
  · rw [if_pos (hptr.mpr hrest)]
    refine ⟨full ++ [rest], ?_, by simp, ?_, ?_, htokens⟩
    · show st.out ++ st.pendingCode = _
      simp [hemitted.out, hemitted.holds.code]
    · exact List.forall_mem_append.mpr
        ⟨hfull, List.forall_mem_singleton.mpr ⟨List.length_pos_iff.mpr hrest, hemitted.openLength.le⟩⟩
    · rw [List.dropLast_concat]
      exact hemitted.fullLength

/-! ## Tokens stand for the input -/

/-- An iteration encodes as many bytes as its token stands for (R141, R161). -/
theorem encoderIter_encoded {st t : State} (hw : st.WindowInv) (hg : st.GroupOpen) (hlen : st.len ≠ 0#5)
    (h : st.encoderIter = .ok t) : t.encoded = st.encoded + span st.clampMatch.token := by
  obtain ⟨tok, u, hiter, rfl⟩ := encoderIter_iteration hw hg hlen h
  have hslid := hiter.slid hw hlen
  obtain ⟨-, -, hle⟩ := State.tokenLen_bounds hw.matchLen hlen
  obtain ⟨hlook, -, hip, -⟩ := hw.lookahead
  have hu := hslid.len
  have huip := hslid.ip
  rw [slideStart_eq hiter.token] at hu huip
  simp only at hu huip
  rw [loopTest_eq, span_token]
  show u.ip - u.len.toNat = st.ip - st.len.toNat + st.tokenLen
  omega

/-- What the tokens emitted stand for in each phase of COMPRESS. -/
def State.SpansInv (st : State) : Prop :=
  match st.seq with
  | .eInit | .eLoad => True
  | .eSeed | .eIter | .eFlush => ∃ tokens, EmittedTokens st tokens ∧ spans tokens = st.encoded
  | .done => ∃ tokens, EncodesTokens st.out tokens ∧ spans tokens = st.input.length
  | .idle | .dInit | .dCycle => False

theorem encoderLoad_spansInv {st : State} (h : st.AtCallStart) : st.encoderLoad.SpansInv := by
  have hstart := emittedTokens_of_atCallStart h
  obtain ⟨hip0, hout, -⟩ := h
  obtain ⟨hip, hload⟩ := encoderLoad_loadedFrom hip0
  have hlen := hload.len
  have e := encoderLoad_frame st
  rcases encoderLoad_moves st with ⟨h0, hseq, -⟩ | ⟨-, hseq, -⟩ <;> simp only [State.SpansInv, hseq]
  · refine ⟨[], ?_, ?_⟩
    · rw [e]
      show EncodesTokens st.out []
      rw [hout]
      exact encodesTokens_nil
    · have hinput : st.encoderLoad.input = st.input := by rw [e]
      rw [h0, hip] at hlen
      rw [hinput]
      show 0 = _
      simp at hlen
      omega
  · refine ⟨[], hstart.congr (by rw [e]) (by rw [e]) (by rw [e]) (by rw [e]), ?_⟩
    rw [State.encoded, hlen, Nat.sub_self]
    rfl

theorem encoderIter_spansInv {st t : State} (hw : st.WindowInv) (hg : st.GroupOpen) (hlen : st.len ≠ 0#5)
    (h : ∃ tokens, EmittedTokens st tokens ∧ spans tokens = st.encoded) (hstep : st.encoderIter = .ok t) :
    t.SpansInv := by
  obtain ⟨tokens, hemitted, hspans⟩ := h
  have hnext : ∃ tokens, EmittedTokens t tokens ∧ spans tokens = t.encoded :=
    ⟨_, hemitted.encoderIter hw.matchLen hstep, by
      rw [spans_append, spans_singleton, hspans, encoderIter_encoded hw hg hlen hstep]⟩
  rcases encoderIter_moves hstep with ⟨-, hseq⟩ | ⟨-, hseq⟩ <;> simpa only [State.SpansInv, hseq] using hnext

/-- Once nothing is left to encode, the whole input is. -/
theorem State.Lookahead.encoded_of_empty {st : State} (h : st.Lookahead) (h0 : st.len = 0#5) :
    st.encoded = st.input.length := by
  obtain ⟨-, hmin, hip, -⟩ := h
  rw [h0] at hmin hip
  rw [State.encoded, h0]
  simp at hmin hip ⊢
  omega

theorem blockStep_spansInv {st t : State} (hinv : st.EncoderInv) (h : st.SpansInv) (hstep : blockStep st = .next t) :
    t.SpansInv := by
  unfold State.SpansInv at h
  cases hs : st.seq <;> simp only [blockStep, hs] at hstep h
  case eInit =>
    cases hstep
    trivial
  case eLoad =>
    cases hstep
    simp only [State.EncoderInv, hs] at hinv
    exact encoderLoad_spansInv hinv
  case eSeed =>
    obtain ⟨tokens, hemitted, hspans⟩ := h
    have e := eq_of_encoderSeed (outcomeOf_eq_next hstep)
    have hseq : t.seq = .eIter := by rw [e]
    simp only [State.SpansInv, hseq]
    exact ⟨tokens, hemitted.congr (by rw [e]) (by rw [e]) (by rw [e]) (by rw [e]), by rw [hspans, e]; rfl⟩
  case eIter =>
    obtain ⟨hw, hg, hlen⟩ := (State.encoderInv_eIter hs).mp hinv
    exact encoderIter_spansInv hw hg hlen h (outcomeOf_eq_next hstep)
  case eFlush =>
    obtain ⟨hw, -, h0⟩ := (State.encoderInv_eFlush hs).mp hinv
    obtain ⟨tokens, hemitted, hspans⟩ := h
    cases hstep
    obtain ⟨e, -⟩ := encoderFlush_frame st
    have hseq : st.encoderFlush.seq = .done := by rw [e]
    have hinput : st.encoderFlush.input = st.input := by rw [e]
    simp only [State.SpansInv, hseq]
    exact ⟨tokens, hemitted.encoderFlush, by rw [hspans, hinput, hw.lookahead.encoded_of_empty h0]⟩
  case done =>
    cases hstep
    simpa only [State.SpansInv, hs] using h

/-- What holds all along a run of COMPRESS on input b. -/
structure SpansRun (b : List Byte) (st : State) : Prop where
  run : CompressRun b st
  window : st.EncoderInv
  spans : st.SpansInv

theorem SpansRun.step {b : List Byte} {st t : State} (h : SpansRun b st) (hstep : step st = .next t) :
    SpansRun b t :=
  have hblock := (step_of_no_move h.run.host).symm.trans hstep
  ⟨h.run.step hstep, blockStep_encoderInv h.window hblock, blockStep_spansInv h.window h.spans hblock⟩

/-- Settles O47: the tokens of the whole call stand for L bytes, and `EncodesTokens.length_le` bounds their encoding. -/
theorem compressOutputBound : Obligations.CompressOutputBound := by
  rintro st t b ⟨hhost, -, -⟩ ⟨s, n, hstart, hrun, hdone⟩
  rw [exec_decodeCommand] at hstart
  rw [startCall_eq_next hstart] at hrun
  obtain ⟨hcall, -, hspans⟩ := stepMany_induct (SpansRun b) (fun _ _ => SpansRun.step)
    ⟨compressRun_latchStart b hhost, trivial, trivial⟩ hrun
  rw [State.SpansInv, seq_of_status_done hcall.status hdone] at hspans
  obtain ⟨tokens, hout, hlen⟩ := hspans
  have hbound := hout.length_le
  rwa [hlen, hcall.input] at hbound

end Sys2Proof.Machine

/-! # OUT is a function of OP, IN and UNPRIMED_FILL (spec/41_compress.md R155, spec/40_decompress.md R111)

What a run can look at is a view of the state: the rest is blanked.  Every transition answers equal views from equal
views, and the views of two calls agree once the call is initialised. -/

namespace Sys2Proof.Machine

/-! ## Two runs in lockstep -/

/-- A relation that every pair of steps keeps holds after two runs of equal length. -/
theorem stepMany_lockstep (R : State → State → Prop)
    (hR : ∀ s s' t t', R s s' → step s = .next t → step s' = .next t' → R t t') {n : Nat} {st st' t t' : State}
    (h : R st st') (ht : stepMany n st = .next t) (ht' : stepMany n st' = .next t') : R t t' := by
  induction n generalizing st st' with
  | zero =>
    cases ht
    cases ht'
    exact h
  | succ n ih =>
    obtain ⟨s, hs, hrun⟩ := andThen_eq_next ht
    obtain ⟨s', hs', hrun'⟩ := andThen_eq_next ht'
    exact ih (hR st st' s s' h hs hs') hrun hrun'

/-- A run that has reached DONE may be prolonged (R312). -/
theorem stepMany_prolong {n : Nat} {st t : State} (h : stepMany n st = .next t) (hh : t.host = []) (hs : t.seq = .done)
    (m : Nat) : stepMany (n + m) st = .next t := by
  rw [stepMany_add, h]
  exact stepMany_of_done hh hs m

/-- Two runs that reach DONE end related, however many steps each of them takes. -/
theorem lockstep_to_done (R : State → State → Prop)
    (hR : ∀ s s' t t', R s s' → step s = .next t → step s' = .next t' → R t t') {n n' : Nat} {st st' t t' : State}
    (h : R st st') (ht : stepMany n st = .next t) (ht' : stepMany n' st' = .next t') (hd : t.host = [] ∧ t.seq = .done)
    (hd' : t'.host = [] ∧ t'.seq = .done) : R t t' :=
  stepMany_lockstep R hR h (stepMany_prolong ht hd.1 hd.2 n')
    (Nat.add_comm n' n ▸ stepMany_prolong ht' hd'.1 hd'.2 n)

/-! ## What the match finder and the slide look at -/

/-- st with everything blanked that neither the window nor the match finder looks at. -/
def windowView (st : State) : State :=
  { State.reset with
    params := { st.params with maxInputLen := 0 }
    input := st.input
    ip := st.ip
    seq := st.seq
    r := st.r
    s := st.s
    len := st.len
    matchPos := st.matchPos
    matchLen := st.matchLen
    ring := st.ring
    lson := st.lson
    rson := st.rson
    dad := st.dad }

section
variable (st : State)
@[simp] theorem keyByte_windowView (p : Pos) (i : Nat) : (windowView st).keyByte p i = st.keyByte p i := rfl
@[simp] theorem lsonAt_windowView (j : TreeIdx) : (windowView st).lsonAt j = st.lsonAt j := rfl
@[simp] theorem rsonAt_windowView (j : TreeIdx) : (windowView st).rsonAt j = st.rsonAt j := rfl
@[simp] theorem dadAt_windowView (j : TreeIdx) : (windowView st).dadAt j = st.dadAt j := rfl
@[simp] theorem matchLen_windowView : (windowView st).matchLen = st.matchLen := rfl
@[simp] theorem r_windowView : (windowView st).r = st.r := rfl
@[simp] theorem setLson_windowView (j v : TreeIdx) : (windowView st).setLson j v = windowView (st.setLson j v) := rfl
@[simp] theorem setRson_windowView (j v : TreeIdx) : (windowView st).setRson j v = windowView (st.setRson j v) := rfl
@[simp] theorem setDad_windowView (j v : TreeIdx) : (windowView st).setDad j v = windowView (st.setDad j v) := rfl

@[simp] theorem compareKeys_windowView (r p : Pos) (n i : Nat) :
    compareKeys (windowView st) r p n i = compareKeys st r p n i := by
  induction n generalizing i with
  | zero => rfl
  | succ n ih => simp only [compareKeys, keyByte_windowView, ih]

@[simp] theorem attachNode_windowView (r : Pos) (p : TreeIdx) (cmp : Int) :
    attachNode (windowView st) r p cmp = windowView (attachNode st r p cmp) := by
  simp only [attachNode, setRson_windowView, setLson_windowView, setDad_windowView, apply_ite windowView]

@[simp] theorem relinkParent_windowView (p q : TreeIdx) :
    relinkParent (windowView st) p q = windowView (relinkParent st p q) := by
  simp only [relinkParent, rsonAt_windowView, dadAt_windowView, setRson_windowView, setLson_windowView,
    apply_ite windowView]
  rfl

@[simp] theorem replaceNode_windowView (r p : Pos) :
    replaceNode (windowView st) r p = windowView (replaceNode st r p) := by
  simp [replaceNode]

@[simp] theorem promoteChild_windowView (p q : TreeIdx) :
    promoteChild (windowView st) p q = windowView (promoteChild st p q) := by
  simp [promoteChild]

@[simp] theorem takeRightSubtree_windowView (p q : TreeIdx) :
    takeRightSubtree (windowView st) p q = windowView (takeRightSubtree st p q) := rfl

@[simp] theorem unlinkPredecessor_windowView (p q : TreeIdx) :
    unlinkPredecessor (windowView st) p q = windowView (unlinkPredecessor st p q) := rfl

@[simp] theorem recordMatch_windowView (p : Pos) (i : Nat) :
    recordMatch (windowView st) p i = windowView (recordMatch st p i) := by
  simp only [recordMatch, matchLen_windowView, apply_ite windowView]
  rfl

@[simp] theorem rightmost_windowView (fuel : Nat) (q : TreeIdx) :
    rightmost (windowView st) fuel q = rightmost st fuel q := by
  induction fuel generalizing q with
  | zero => rfl
  | succ fuel ih => simp only [rightmost, rsonAt_windowView, ih]
end

theorem descend_windowView (r : Pos) (fuel : Nat) (st : State) (p : TreeIdx) (cmp : Int) :
    descend r fuel (windowView st) p cmp = (descend r fuel st p cmp).map windowView := by
  induction fuel generalizing st p cmp with
  | zero => rfl
  | succ fuel ih =>
    simp only [descend, rsonAt_windowView, lsonAt_windowView, attachNode_windowView, compareKeys_windowView,
      recordMatch_windowView, replaceNode_windowView, matchLen_windowView, ih]
    generalize (if 0 ≤ cmp then st.rsonAt p else st.lsonAt p) = child
    by_cases hnil : child = nilIdx
    · simp only [if_pos hnil]
      rfl
    · simp only [if_neg hnil]
      cases nodeOf? child with
      | none => rfl
      | some q =>
        simp only [apply_ite (Except.map windowView)]
        rfl

theorem insertNode_windowView (r : Pos) (st : State) :
    insertNode r (windowView st) = (insertNode r st).map windowView := by
  simp only [insertNode, setRson_windowView, setLson_windowView, keyByte_windowView, ← descend_windowView]
  rfl

theorem deleteTwoChildren_windowView (st : State) (p : TreeIdx) :
    deleteTwoChildren (windowView st) p = (deleteTwoChildren st p).map windowView := by
  simp only [deleteTwoChildren, rsonAt_windowView, lsonAt_windowView, rightmost_windowView,
    unlinkPredecessor_windowView, takeRightSubtree_windowView, promoteChild_windowView]
  split
  · rfl
  · cases rightmost st Config.walkBound (st.rsonAt (st.lsonAt p)) <;> rfl

theorem deleteNode_windowView (p : Pos) (st : State) :
    deleteNode p (windowView st) = (deleteNode p st).map windowView := by
  simp only [deleteNode, dadAt_windowView, rsonAt_windowView, lsonAt_windowView, promoteChild_windowView,
    deleteTwoChildren_windowView, apply_ite (Except.map windowView)]
  rfl

/-! ## The phases of COMPRESS -/

theorem loadLoop_windowView (n : Nat) (st : State) :
    loadLoop n (windowView st) = windowView (loadLoop n st) := by
  induction n generalizing st with
  | zero => rfl
  | succ n ih =>
    cases hin : st.input[st.ip]? with
    | none => rw [loadLoop_of_end hin, loadLoop_of_end (st := windowView st) hin]
    | some c => rw [loadLoop_succ_of_input hin, loadLoop_succ_of_input (st := windowView st) hin, ← ih]; rfl

theorem encoderLoad_windowView (st : State) : windowView (windowView st).encoderLoad = windowView st.encoderLoad := by
  have hload : loadLoop Config.maxMatch { windowView st with len := 0#5 } =
      windowView (loadLoop Config.maxMatch { st with len := 0#5 }) :=
    loadLoop_windowView Config.maxMatch { st with len := 0#5 }
  simp only [State.encoderLoad, hload]
  generalize loadLoop Config.maxMatch { st with len := 0#5 } = s
  by_cases h : s.len = 0#5
  · rw [if_pos h, if_pos (show (windowView s).len = 0#5 from h)]
    rfl
  · rw [if_neg h, if_neg (show (windowView s).len ≠ 0#5 from h)]
    rfl

theorem insertAll_windowView (ps : List Pos) (st : State) :
    insertAll ps (windowView st) = (insertAll ps st).map windowView := by
  induction ps generalizing st with
  | nil => rfl
  | cons p ps ih =>
    rw [insertAll_cons, insertAll_cons, insertNode_windowView]
    cases insertNode p st with
    | error f => rfl
    | ok s => exact ih s

theorem encoderSeed_windowView (st : State) :
    (windowView st).encoderSeed = st.encoderSeed.map windowView := by
  rw [encoderSeed_eq_insertAll, encoderSeed_eq_insertAll, r_windowView, insertAll_windowView]
  cases insertAll (seedPositions st.r 1 18 ++ [st.r]) st <;> rfl

/-! Each phase answers equal views from equal views -/

theorem view_eq_of_map {x y : Except Fault State} {t t' : State} (h : x.map windowView = y.map windowView)
    (ht : x = .ok t) (ht' : y = .ok t') : windowView t = windowView t' := by
  rw [ht, ht'] at h
  exact Except.ok.inj h

theorem insertNode_view {r r' : Pos} {st st' t t' : State} (h : windowView st = windowView st') (hr : r = r')
    (ht : insertNode r st = .ok t) (ht' : insertNode r' st' = .ok t') : windowView t = windowView t' :=
  view_eq_of_map (by rw [← insertNode_windowView, h, hr, insertNode_windowView]) ht ht'

theorem deleteNode_view {p p' : Pos} {st st' t t' : State} (h : windowView st = windowView st') (hp : p = p')
    (ht : deleteNode p st = .ok t) (ht' : deleteNode p' st' = .ok t') : windowView t = windowView t' :=
  view_eq_of_map (by rw [← deleteNode_windowView, h, hp, deleteNode_windowView]) ht ht'

theorem encoderSeed_view {st st' t t' : State} (h : windowView st = windowView st') (ht : st.encoderSeed = .ok t)
    (ht' : st'.encoderSeed = .ok t') : windowView t = windowView t' :=
  view_eq_of_map (by rw [← encoderSeed_windowView, h, encoderSeed_windowView]) ht ht'

theorem encoderLoad_view {st st' : State} (h : windowView st = windowView st') :
    windowView st.encoderLoad = windowView st'.encoderLoad := by
  rw [← encoderLoad_windowView, h, encoderLoad_windowView]

/-- A change that looks at nothing but the view. -/
theorem view_congr (f : State → State) (hf : ∀ st, windowView (f (windowView st)) = windowView (f st)) {st st' : State}
    (h : windowView st = windowView st') : windowView (f st) = windowView (f st') := by
  rw [← hf st, h, hf]

theorem slideByte_view {c : Byte} {st st' t t' : State} (h : windowView st = windowView st')
    (ht : slideByte c st = .ok t) (ht' : slideByte c st' = .ok t') : windowView t = windowView t' := by
  obtain ⟨s, u, hs, hu, rfl⟩ := slideByte_ok ht
  obtain ⟨s', u', hs', hu', rfl⟩ := slideByte_ok ht'
  have hdelete := deleteNode_view h (congrArg State.s h :) hs hs'
  have hwrite := view_congr (fun x => (x.mirrorWrite c).advanceWindow) (fun _ => rfl) hdelete
  have hinsert := insertNode_view hwrite (congrArg State.r hwrite :) hu hu'
  exact view_congr (fun x => { x with i := x.i + 1#5 }) (fun _ => rfl) hinsert

/-- What a turn without input does between the deletion and the insertion (R151). -/
def tailAdvance (st : State) : State := { st.advanceWindow with len := st.len - 1#5 }

theorem tailByte_view {st st' t t' : State} (h : windowView st = windowView st') (ht : tailByte st = .ok t)
    (ht' : tailByte st' = .ok t') : windowView t = windowView t' := by
  obtain ⟨s, hs, hcase⟩ := tailByte_ok ht
  obtain ⟨s', hs', hcase'⟩ := tailByte_ok ht'
  have hcount : windowView { st with i := st.i + 1#5 } = windowView { st' with i := st'.i + 1#5 } := h
  have hdelete := deleteNode_view hcount (congrArg State.s h :) hs hs'
  have hmove := view_congr tailAdvance (fun _ => rfl) hdelete
  have hlen : s.len - 1#5 = s'.len - 1#5 := (congrArg State.len hmove :)
  rcases hcase with ⟨h0, rfl⟩ | ⟨hne, hu⟩ <;> rcases hcase' with ⟨h0', rfl⟩ | ⟨hne', hu'⟩
  · exact hmove
  · exact absurd (hlen ▸ h0) hne'
  · exact absurd (hlen ▸ h0') hne
  · exact insertNode_view hmove (congrArg State.r hmove :) hu hu'

/-- A turn of the slide (R150, R151). -/
theorem slideTurn_view {st st' t t' : State} (h : windowView st = windowView st') (ht : slideTurn st = .ok t)
    (ht' : slideTurn st' = .ok t') : windowView t = windowView t' := by
  have hinput : st'.input[st'.ip]? = st.input[st.ip]? :=
    (congrArg (fun x : State => x.input[x.ip]?) h).symm
  cases hin : st.input[st.ip]? with
  | some c =>
    rw [slideTurn_of_input hin] at ht
    rw [slideTurn_of_input (hinput.trans hin)] at ht'
    exact slideByte_view (view_congr (fun x => x.advance 1) (fun _ => rfl) h) ht ht'
  | none =>
    rw [slideTurn_of_end hin] at ht
    rw [slideTurn_of_end (hinput.trans hin)] at ht'
    exact tailByte_view h ht ht'

theorem slideTurns_view {n : Nat} {st st' t t' : State} (h : windowView st = windowView st')
    (ht : slideTurns n st = .ok t) (ht' : slideTurns n st' = .ok t') : windowView t = windowView t' := by
  induction n generalizing t t' with
  | zero =>
    cases ht
    cases ht'
    exact h
  | succ n ih =>
    rw [slideTurns_succ] at ht ht'
    obtain ⟨s, hs, hturn⟩ := bind_eq_ok ht
    obtain ⟨s', hs', hturn'⟩ := bind_eq_ok ht'
    exact slideTurn_view (ih hs hs') hturn hturn'

/-- An iteration, where room in the group buffer and the lookahead are as the invariant says (R141). -/
theorem encoderIter_view {st st' t t' : State} (h : windowView st = windowView st')
    (hw : st.WindowInv ∧ st.GroupOpen ∧ st.len ≠ 0#5) (hw' : st'.WindowInv ∧ st'.GroupOpen ∧ st'.len ≠ 0#5)
    (ht : st.encoderIter = .ok t) (ht' : st'.encoderIter = .ok t') : windowView t = windowView t' := by
  obtain ⟨hwin, hgroup, hlen⟩ := hw
  obtain ⟨hwin', hgroup', hlen'⟩ := hw'
  obtain ⟨tok, u, hiter, rfl⟩ := encoderIter_iteration hwin hgroup hlen ht
  obtain ⟨tok', u', hiter', rfl⟩ := encoderIter_iteration hwin' hgroup' hlen' ht'
  have hn : st'.tokenLen = st.tokenLen := (congrArg State.tokenLen h).symm
  have hstart : ∀ {x tok u : State}, Iteration x tok u →
      windowView (slideStart tok x.tokenLen) = { windowView x with matchLen := BitVec.ofNat 5 x.tokenLen } := by
    intro x tok u hx
    have hm : tok.closeToken.matchLen = BitVec.ofNat 5 x.tokenLen := by
      rw [(closeToken_frame tok).1]
      exact hx.emitted.matchLen
    rw [slideStart_eq hx.token, hm]
    rfl
  have hturns' := hiter'.turns
  rw [hn] at hturns'
  have hstart' := hstart hiter'
  rw [hn] at hstart'
  refine view_congr State.loopTest (fun x => ?_) (slideTurns_view ?_ hiter.turns hturns')
  · rw [loopTest_eq, loopTest_eq]
    rfl
  · rw [hstart hiter, hstart', h]

/-! ## Two calls of COMPRESS -/

/-- What the final flush leaves in OUT (R153). -/
theorem Emitted.flushed {st : State} {full : List (List Instr)} {tokens : List Instr} (h : Emitted st full tokens) :
    st.encoderFlush.out = full.flatMap encodeGroup ++ if tokens = [] then [] else encodeGroup tokens := by
  have hptr : 1 < st.codePtr.toNat ↔ tokens ≠ [] := by
    rw [h.holds.ptr, one_lt_length_encodeGroup h.openTokens]
  unfold State.encoderFlush
  by_cases htokens : tokens = []
  · rw [if_neg (by simp [hptr, htokens]), if_pos htokens, List.append_nil]
    exact h.out
  · rw [if_pos (hptr.mpr htokens), if_neg htokens, ← h.holds.code, ← h.out]
    rfl

/-- What is compared of two runs of COMPRESS, once both are initialised: the view, OUT, and until DONE the tokens
emitted. -/
structure SameCompress (st st' : State) : Prop where
  view : windowView st = windowView st'
  out : st.out = st'.out
  emitted : st.seq ≠ .done → ∃ full tokens, Emitted st full tokens ∧ Emitted st' full tokens

theorem sameCompress_of_emitted {st st' : State} {full : List (List Instr)} {tokens : List Instr}
    (hview : windowView st = windowView st') (h : Emitted st full tokens) (h' : Emitted st' full tokens) :
    SameCompress st st' :=
  ⟨hview, h.out.trans h'.out.symm, fun _ => ⟨full, tokens, h, h'⟩⟩

theorem SameCompress.seq {st st' : State} (h : SameCompress st st') : st'.seq = st.seq := (congrArg State.seq h.view).symm

theorem SameCompress.encoderLoad {st st' : State} (h : SameCompress st st') (hs : st.seq = .eLoad) :
    SameCompress st.encoderLoad st'.encoderLoad := by
  obtain ⟨full, tokens, hemitted, hemitted'⟩ := h.emitted (by rw [hs]; decide)
  have e := encoderLoad_frame st
  have e' := encoderLoad_frame st'
  exact sameCompress_of_emitted (encoderLoad_view h.view)
    (hemitted.congr (by rw [e]) (by rw [e]) (by rw [e]) (by rw [e]))
    (hemitted'.congr (by rw [e']) (by rw [e']) (by rw [e']) (by rw [e']))

theorem SameCompress.encoderSeed {st st' t t' : State} (h : SameCompress st st') (hs : st.seq = .eSeed)
    (ht : st.encoderSeed = .ok t) (ht' : st'.encoderSeed = .ok t') : SameCompress t t' := by
  obtain ⟨full, tokens, hemitted, hemitted'⟩ := h.emitted (by rw [hs]; decide)
  have e := eq_of_encoderSeed ht
  have e' := eq_of_encoderSeed ht'
  exact sameCompress_of_emitted (encoderSeed_view h.view ht ht')
    (hemitted.congr (by rw [e]) (by rw [e]) (by rw [e]) (by rw [e]))
    (hemitted'.congr (by rw [e']) (by rw [e']) (by rw [e']) (by rw [e']))

theorem SameCompress.encoderIter {st st' t t' : State} (h : SameCompress st st') (hs : st.seq = .eIter)
    (hw : st.WindowInv ∧ st.GroupOpen ∧ st.len ≠ 0#5) (hw' : st'.WindowInv ∧ st'.GroupOpen ∧ st'.len ≠ 0#5)
    (ht : st.encoderIter = .ok t) (ht' : st'.encoderIter = .ok t') : SameCompress t t' := by
  obtain ⟨full, tokens, hemitted, hemitted'⟩ := h.emitted (by rw [hs]; decide)
  have hview := encoderIter_view h.view hw hw' ht ht'
  have htoken : st'.clampMatch.token = st.clampMatch.token := by
    rw [clampMatch_eq, clampMatch_eq]
    exact (congrArg (fun x : State =>
      State.token { x with matchLen := BitVec.ofNat 5 (min x.matchLen.toNat x.len.toNat) }) h.view).symm
  obtain ⟨-, hnext⟩ := hemitted.encoderIter hw.1.matchLen ht
  obtain ⟨-, hnext'⟩ := hemitted'.encoderIter hw'.1.matchLen ht'
  rw [htoken] at hnext'
  rcases hnext with ⟨hlt, hn⟩ | ⟨h7, hn⟩ <;> rcases hnext' with ⟨hlt', hn'⟩ | ⟨h7', hn'⟩
  · exact sameCompress_of_emitted hview hn hn'
  · omega
  · omega
  · exact sameCompress_of_emitted hview hn hn'

theorem SameCompress.encoderFlush {st st' : State} (h : SameCompress st st') (hs : st.seq = .eFlush) :
    SameCompress st.encoderFlush st'.encoderFlush := by
  obtain ⟨full, tokens, hemitted, hemitted'⟩ := h.emitted (by rw [hs]; decide)
  obtain ⟨e, -⟩ := encoderFlush_frame st
  obtain ⟨e', -⟩ := encoderFlush_frame st'
  refine ⟨?_, hemitted.flushed.trans hemitted'.flushed.symm, fun hne => absurd (by rw [e]) hne⟩
  have hstop := view_congr (fun x => { x with seq := .done }) (fun _ => rfl) h.view
  rw [e, e']
  exact hstop

/-- Two runs of COMPRESS on input b, both initialised. -/
structure CompressRuns (b : List Byte) (st st' : State) : Prop where
  left : CompressRun b st ∧ st.EncoderInv
  right : CompressRun b st' ∧ st'.EncoderInv
  same : SameCompress st st'
  initialised : st.seq ≠ .eInit

theorem CompressRuns.step {b : List Byte} {st st' t t' : State} (h : CompressRuns b st st') (ht : step st = .next t)
    (ht' : step st' = .next t') : CompressRuns b t t' := by
  obtain ⟨⟨hrun, hinv⟩, ⟨hrun', hinv'⟩, hsame, hinit⟩ := h
  have hblock := (step_of_no_move hrun.host).symm.trans ht
  have hblock' := (step_of_no_move hrun'.host).symm.trans ht'
  have hemission := hrun.emission
  have hmoves := (blockStep_transition hblock).moves
  have hseq := hsame.seq
  refine ⟨⟨hrun.step ht, blockStep_encoderInv hinv hblock⟩, ⟨hrun'.step ht', blockStep_encoderInv hinv' hblock'⟩, ?_, ?_⟩
  · unfold State.EmissionInv at hemission
    cases hs : st.seq <;> simp only [blockStep, hseq, hs] at hblock hblock' hemission
    case eInit => exact absurd hs hinit
    case eLoad =>
      cases hblock
      cases hblock'
      exact hsame.encoderLoad hs
    case eSeed => exact hsame.encoderSeed hs (outcomeOf_eq_next hblock) (outcomeOf_eq_next hblock')
    case eIter =>
      exact hsame.encoderIter hs ((State.encoderInv_eIter hs).mp hinv)
        ((State.encoderInv_eIter (hseq.trans hs)).mp hinv') (outcomeOf_eq_next hblock) (outcomeOf_eq_next hblock')
    case eFlush =>
      cases hblock
      cases hblock'
      exact hsame.encoderFlush hs
    case done =>
      cases hblock
      cases hblock'
      exact hsame
  · unfold SeqMoves at hmoves
    unfold State.EmissionInv at hemission
    intro he
    cases hs : st.seq <;> simp only [hs] at hmoves hemission
    case eInit => exact hinit hs
    case done =>
      subst hmoves
      exact hinit he
    all_goals simp [he] at hmoves

theorem compressRuns_encoderInit {st st' : State} {b : List Byte} (hh : st.host = []) (hh' : st'.host = [])
    (hfill : st.params.unprimedFill = st'.params.unprimedFill) :
    CompressRuns b (st.latchStart 0#1 b).encoderInit (st'.latchStart 0#1 b).encoderInit := by
  have hrun : ∀ {x : State}, x.host = [] →
      CompressRun b (x.latchStart 0#1 b).encoderInit ∧ (x.latchStart 0#1 b).encoderInit.EncoderInv :=
    fun hx => ⟨(compressRun_latchStart b hx).step (step_of_no_move hx), encoderInit_atCallStart _⟩
  refine ⟨hrun hh, hrun hh', ?_, by simp [State.encoderInit]⟩
  refine sameCompress_of_emitted ?_ (emitted_encoderInit _) (emitted_encoderInit _)
  have hparams : ({ st.params with maxInputLen := 0 } : Config.Params) = { st'.params with maxInputLen := 0 } :=
    congrArg (fun fill => ({ unprimedFill := fill, maxInputLen := 0 } : Config.Params)) hfill
  exact congrArg (fun p => { windowView (State.reset.latchStart 0#1 b).encoderInit with params := p }) hparams

/-! ## What the decoder looks at -/

/-- st with everything blanked that the decoder does not look at. -/
def decoderView (st : State) : State :=
  { State.reset with
    params := { st.params with maxInputLen := 0 }
    status := st.status
    input := st.input
    ip := st.ip
    out := st.out
    seq := st.seq
    r := st.r
    flags := st.flags
    ring := st.ring }

/-- A next state's view. -/
def nextView (x : Host.Outcome State Fault Refusal) : Host.Outcome State Fault Refusal :=
  andThen x fun st => .next (decoderView st)

theorem copyMatch_decoderView (pos : Pos) (n k : Nat) (st : State) :
    copyMatch pos n k (decoderView st) = decoderView (copyMatch pos n k st) := by
  induction n generalizing k st with
  | zero => rfl
  | succ n ih => exact ih (k + 1) (st.emitDecoded (st.windowByte (matchSource pos k)))

theorem runElement_decoderView (k : Kind) (st : State) :
    runElement k (decoderView st) = nextView (runElement k st) := by
  have hunread : (decoderView st).unread = st.unread := rfl
  simp only [runElement, hunread]
  rcases decode_cases k st.unread with ⟨e, hd, -⟩ | ⟨c, rest, -, -, hd⟩ | ⟨d, rest, -, -, hd⟩ | ⟨i, j, rest, -, -, hd⟩ <;>
    simp only [hd]
  · rfl
  · simp only [exec, execCtrl, apply_ite nextView]
    rfl
  · simp only [exec, execLit, apply_ite nextView]
    rfl
  · have hcopy : copyMatch (matchPosOf i j) (matchLenOf j) 0 (((decoderView st).advance 1).advance 1) =
        decoderView (copyMatch (matchPosOf i j) (matchLenOf j) 0 ((st.advance 1).advance 1)) :=
      copyMatch_decoderView _ _ _ ((st.advance 1).advance 1)
    simp only [exec, execMatch, apply_ite nextView, hcopy]
    rfl

theorem afterRefill_decoderView (st : State) : afterRefill (decoderView st) = nextView (afterRefill st) := by
  have htoken : runToken (decoderView st) = nextView (runToken st) := runElement_decoderView st.tokenKind st
  simp only [afterRefill, htoken, apply_ite nextView]
  rfl

/-- A token cycle looks at nothing but the view (R101). -/
theorem decoderCycle_decoderView (st : State) : decoderCycle (decoderView st) = nextView (decoderCycle st) := by
  have hshift : (decoderView st).shiftFlags = decoderView st.shiftFlags := rfl
  cases hn : st.shiftFlags.needsRefill with
  | false =>
    rw [decoderCycle_of_no_refill hn, decoderCycle_of_no_refill (st := decoderView st) hn]
    exact runElement_decoderView _ st.shiftFlags
  | true =>
    have hn' : (decoderView st.shiftFlags).needsRefill = true := hn
    simp only [decoderCycle, hshift, if_pos hn, if_pos hn', runElement_decoderView]
    cases runElement .control st.shiftFlags with
    | next s => exact afterRefill_decoderView s
    | fault f => rfl
    | refused f => rfl

/-! ## Two calls of DECOMPRESS -/

/-- Two runs of DECOMPRESS on input b, both initialised, that look the same. -/
structure DecompressRuns (b : List Byte) (st st' : State) : Prop where
  left : DecompressRun b st
  right : DecompressRun b st'
  view : decoderView st = decoderView st'
  initialised : st.seq ≠ .dInit

theorem DecompressRuns.step {b : List Byte} {st st' t t' : State} (h : DecompressRuns b st st')
    (ht : step st = .next t) (ht' : step st' = .next t') : DecompressRuns b t t' := by
  obtain ⟨hrun, hrun', hview, hinit⟩ := h
  have hnext := hrun.of_step ht
  have hnext' := hrun'.of_step ht'
  have hseq : st'.seq = st.seq := (congrArg State.seq hview).symm
  rcases hrun.phase with hs | hs | hs
  · exact absurd hs hinit
  · have hcycle := (step_of_dCycle hrun.host hs).symm.trans ht
    have hcycle' := (step_of_dCycle hrun'.host (hseq.trans hs)).symm.trans ht'
    have hboth : nextView (.next t) = nextView (.next t') := by
      rw [← hcycle, ← hcycle', ← decoderCycle_decoderView, ← decoderCycle_decoderView, hview]
    refine ⟨hnext, hnext', Host.Outcome.next.inj hboth, fun he => ?_⟩
    have hmoves := (blockStep_transition ((step_of_no_move hrun.host).symm.trans ht)).moves
    unfold SeqMoves at hmoves
    simp [hs, he] at hmoves
  · have hdone := stepMany_of_done hrun.host hs 1
    have hdone' := stepMany_of_done hrun'.host (hseq.trans hs) 1
    rw [stepMany_succ, ht] at hdone
    rw [stepMany_succ, ht'] at hdone'
    cases hdone
    cases hdone'
    exact ⟨hrun, hrun', hview, hinit⟩

theorem decompressRuns_decoderInit {st st' : State} {b : List Byte} (hh : st.host = []) (hh' : st'.host = [])
    (hfill : st.params.unprimedFill = st'.params.unprimedFill) :
    DecompressRuns b (st.latchStart 1#1 b).decoderInit (st'.latchStart 1#1 b).decoderInit := by
  refine ⟨decompressRun_decoderInit (decompressRun_latchStart b hh),
    decompressRun_decoderInit (decompressRun_latchStart b hh'), ?_, by simp [State.decoderInit]⟩
  have hparams : ({ st.params with maxInputLen := 0 } : Config.Params) = { st'.params with maxInputLen := 0 } :=
    congrArg (fun fill => ({ unprimedFill := fill, maxInputLen := 0 } : Config.Params)) hfill
  exact congrArg (fun p => { decoderView (State.reset.latchStart 1#1 b).decoderInit with params := p }) hparams

/-! ## Calls -/

/-- A call's run, after the first transition, which the initialisation is. -/
theorem CallEnds.run {st t : State} {op : BitVec 1} {b : List Byte} (h : CallEnds st op b t) :
    ∃ n s, step (st.latchStart op b) = .next s ∧ stepMany n s = .next t := by
  obtain ⟨s, n, hstart, hrun, hdone⟩ := h
  rw [exec_decodeCommand] at hstart
  rw [startCall_eq_next hstart] at hrun
  cases n with
  | zero =>
    cases hrun
    cases hdone
  | succ n =>
    obtain ⟨u, hu, hsteps⟩ := andThen_eq_next hrun
    exact ⟨n, u, hu, hsteps⟩

theorem CallEnds.compress_run {st t : State} {b : List Byte} (h : CallEnds st 0#1 b t) (hh : st.host = []) :
    ∃ n, stepMany n (st.latchStart 0#1 b).encoderInit = .next t := by
  obtain ⟨n, s, hs, hrun⟩ := h.run
  cases (step_of_no_move (st := st.latchStart 0#1 b) hh).symm.trans hs
  exact ⟨n, hrun⟩

theorem CallEnds.decompress_run {st t : State} {b : List Byte} (h : CallEnds st 1#1 b t) (hh : st.host = []) :
    ∃ n, stepMany n (st.latchStart 1#1 b).decoderInit = .next t := by
  obtain ⟨n, s, hs, hrun⟩ := h.run
  cases (step_of_no_move (st := st.latchStart 1#1 b) hh).symm.trans hs
  exact ⟨n, hrun⟩

/-- A call ends with SEQ at DONE and no host move waiting. -/
theorem CallEnds.ended {st t : State} {op : BitVec 1} {b : List Byte} (h : CallEnds st op b t) (hh : st.host = []) :
    t.host = [] ∧ t.seq = .done := by
  obtain ⟨s, n, hstart, hrun, hdone⟩ := h
  rw [exec_decodeCommand] at hstart
  rw [startCall_eq_next hstart] at hrun
  have hlatch : (st.latchStart op b).host = [] ∧ (st.latchStart op b).statusMatchesSeq = true ∧
      (st.latchStart op b).opMatchesSeq = true := by
    rcases BitVec.eq_zero_or_eq_one op with rfl | rfl <;> exact ⟨hh, rfl, rfl⟩
  obtain ⟨hhost, hstatus, -⟩ := stepMany_induct
    (fun u => u.host = [] ∧ u.statusMatchesSeq = true ∧ u.opMatchesSeq = true)
    (fun u v ⟨hhost, hstatus, hop⟩ hv => by
      have htr := blockStep_transition ((step_of_no_move hhost).symm.trans hv)
      exact ⟨htr.host.trans hhost, htr.matches hstatus hop⟩)
    hlatch hrun
  exact ⟨hhost, seq_of_status_done hstatus hdone⟩

/-- Settles O34: the runs of the two calls keep `CompressRuns` or `DecompressRuns` in lockstep. -/
theorem outputDependsOnInputAlone : Obligations.OutputDependsOnInputAlone := by
  rintro st st' t t' op b ⟨hh, -⟩ ⟨hh', -⟩ hfill h h'
  have hd := h.ended hh
  have hd' := h'.ended hh'
  rcases BitVec.eq_zero_or_eq_one op with rfl | rfl
  · obtain ⟨n, hrun⟩ := h.compress_run hh
    obtain ⟨n', hrun'⟩ := h'.compress_run hh'
    exact (lockstep_to_done (CompressRuns b) (fun _ _ _ _ => CompressRuns.step)
      (compressRuns_encoderInit hh hh' hfill) hrun hrun' hd hd').same.out
  · obtain ⟨n, hrun⟩ := h.decompress_run hh
    obtain ⟨n', hrun'⟩ := h'.decompress_run hh'
    exact (congrArg State.out (lockstep_to_done (DecompressRuns b) (fun _ _ _ _ => DecompressRuns.step)
      (decompressRuns_decoderInit hh hh' hfill) hrun hrun' hd hd').view :)

end Sys2Proof.Machine

/-! # Editing the search tree at one place (spec/42_match_tree.md R180, R191)

Both procedures of the match finder change one subtree of one tree: a leaf becomes a node, a node takes another's place,
a node leaves.  A tree is a context around that subtree; the link to the subtree is the context's slot; and an edit that
writes nothing but the slot outside the subtree keeps the search tree. -/

namespace Sys2Proof.Machine

/-! ## The nodes of a tree -/

theorem TreeShape.mem_node {l r : TreeShape} {p q : Pos} :
    q ∈ (TreeShape.node l p r).nodes ↔ q = p ∨ q ∈ l.nodes ∨ q ∈ r.nodes := by
  simp only [TreeShape.nodes, List.mem_append, List.mem_cons]
  tauto

theorem TreeShape.nodup_node {l r : TreeShape} {p : Pos} :
    (TreeShape.node l p r).nodes.Nodup ↔
      l.nodes.Nodup ∧ r.nodes.Nodup ∧ p ∉ l.nodes ∧ p ∉ r.nodes ∧ ∀ q ∈ l.nodes, q ∉ r.nodes := by
  rw [TreeShape.nodes, List.nodup_middle, List.nodup_cons, List.nodup_append, List.mem_append, not_or]
  exact ⟨fun ⟨⟨hl, hr⟩, hnl, hnr, hd⟩ => ⟨hnl, hnr, hl, hr, fun q hq hq' => hd q hq q hq' rfl⟩,
    fun ⟨hnl, hnr, hl, hr, hd⟩ => ⟨⟨hl, hr⟩, hnl, hnr, fun q hq q' hq' heq => hd q hq (heq ▸ hq')⟩⟩

/-! ## Slots: the cells that hold a link to a child -/

/-- A child cell of a tree index: the right one or the left one. -/
abbrev Slot := Bool × TreeIdx

/-- The link in a slot: RSON or LSON of its index. -/
def State.child (st : State) (s : Slot) : TreeIdx := if s.1 then st.rsonAt s.2 else st.lsonAt s.2

/-- Write a slot. -/
def State.setChild (st : State) (s : Slot) (v : TreeIdx) : State :=
  if s.1 then st.setRson s.2 v else st.setLson s.2 v

theorem State.child_setRson (st : State) (j v : TreeIdx) (s : Slot) :
    (st.setRson j v).child s = if s = (true, j) then v else st.child s := by
  obtain ⟨_ | _, k⟩ := s <;> simp [State.child, State.rsonAt_setRson]

theorem State.child_setLson (st : State) (j v : TreeIdx) (s : Slot) :
    (st.setLson j v).child s = if s = (false, j) then v else st.child s := by
  obtain ⟨_ | _, k⟩ := s <;> simp [State.child, State.lsonAt_setLson]

theorem State.child_setChild (st : State) (s s' : Slot) (v : TreeIdx) :
    (st.setChild s v).child s' = if s' = s then v else st.child s' := by
  obtain ⟨_ | _, j⟩ := s
  · exact st.child_setLson j v s'
  · exact st.child_setRson j v s'

@[simp] theorem State.child_setDad (st : State) (j v : TreeIdx) (s : Slot) : (st.setDad j v).child s = st.child s := rfl

@[simp] theorem State.dadAt_setChild (st : State) (s : Slot) (v j : TreeIdx) :
    (st.setChild s v).dadAt j = st.dadAt j := by
  unfold State.setChild
  split <;> rfl

/-- Under the slot s stand these nodes, DAD in agreement (R180, R191). -/
def State.HoldsAt (st : State) (s : Slot) (t : TreeShape) : Prop := st.Holds s.2 (st.child s) t

theorem State.holdsAt_leaf {st : State} {s : Slot} : st.HoldsAt s .leaf ↔ st.child s = nilIdx := Iff.rfl

theorem State.holdsAt_node {st : State} {s : Slot} {l r : TreeShape} {p : Pos} :
    st.HoldsAt s (.node l p r) ↔ st.child s = nodeIdx p ∧ st.dadAt (nodeIdx p) = s.2 ∧
      st.HoldsAt (false, nodeIdx p) l ∧ st.HoldsAt (true, nodeIdx p) r := Iff.rfl

/-- A link to a node leads into the tree. -/
theorem State.HoldsAt.mem_of_link {st : State} {s : Slot} {t : TreeShape} {p : Pos} (h : st.HoldsAt s t)
    (hp : st.child s = nodeIdx p) : p ∈ t.nodes := by
  cases t with
  | leaf => exact absurd (hp.symm.trans h) (nodeIdx_ne_nil p)
  | node l q r =>
    obtain ⟨hq, -⟩ := State.holdsAt_node.mp h
    rw [nodeIdx_inj.mp (hp.symm.trans hq)]
    simp [TreeShape.nodes]

/-- A link to a child is NIL or leads to a node of the child's tree. -/
theorem State.HoldsAt.link_ne {st : State} {s : Slot} {t : TreeShape} {p : Pos} (h : st.HoldsAt s t) (hp : p ∉ t.nodes) :
    nodeIdx p ≠ st.child s := fun heq => hp (h.mem_of_link heq.symm)

/-- A link is NIL only above no node. -/
theorem State.HoldsAt.eq_leaf {st : State} {s : Slot} {t : TreeShape} (h : st.HoldsAt s t) (hnil : st.child s = nilIdx) :
    t = .leaf := by
  cases t with
  | leaf => rfl
  | node l p r =>
    obtain ⟨hp, -⟩ := State.holdsAt_node.mp h
    exact absurd (hp.symm.trans hnil) (nodeIdx_ne_nil p)

/-- Every node's DAD is a root or a node. -/
theorem State.HoldsAt.dad_ne_nil {st : State} {s : Slot} {t : TreeShape} (h : st.HoldsAt s t) (hs : s.2 ≠ nilIdx)
    {p : Pos} (hp : p ∈ t.nodes) : st.dadAt (nodeIdx p) ≠ nilIdx := by
  induction t generalizing s with
  | leaf => simp [TreeShape.nodes] at hp
  | node l q r ihl ihr =>
    obtain ⟨-, hdad, hl, hr⟩ := State.holdsAt_node.mp h
    simp only [TreeShape.nodes, List.mem_append, List.mem_cons] at hp
    rcases hp with hp | rfl | hp
    · exact ihl hl (nodeIdx_ne_nil q) hp
    · rw [hdad]; exact hs
    · exact ihr hr (nodeIdx_ne_nil q) hp

/-- What stands under a slot depends on the slot and its nodes' cells only. -/
theorem State.HoldsAt.congr {st st' : State} {s : Slot} {t : TreeShape} (h : st.HoldsAt s t)
    (hs : st'.child s = st.child s) (hdad : ∀ q ∈ t.nodes, st'.dadAt (nodeIdx q) = st.dadAt (nodeIdx q))
    (hchild : ∀ q ∈ t.nodes, ∀ side, st'.child (side, nodeIdx q) = st.child (side, nodeIdx q)) : st'.HoldsAt s t := by
  induction t generalizing s with
  | leaf => exact hs.trans h
  | node l p r ihl ihr =>
    obtain ⟨hp, hdadp, hl, hr⟩ := State.holdsAt_node.mp h
    simp only [TreeShape.nodes, List.forall_mem_append, List.forall_mem_cons] at hdad hchild
    obtain ⟨hdl, hdp, hdr⟩ := hdad
    obtain ⟨hcl, hcp, hcr⟩ := hchild
    exact State.holdsAt_node.mpr
      ⟨hs.trans hp, hdp.trans hdadp, ihl hl (hcp false) hdl hcl, ihr hr (hcp true) hdr hcr⟩

/-- A tree moves to another slot: the link is copied, and DAD of its topmost node is the new parent. -/
theorem State.HoldsAt.move {st st' : State} {s s' : Slot} {t : TreeShape} (h : st.HoldsAt s t) (hn : t.nodes.Nodup)
    (hs : st'.child s' = st.child s) (htop : t ≠ .leaf → st'.dadAt (st.child s) = s'.2)
    (hdad : ∀ q ∈ t.nodes, nodeIdx q ≠ st.child s → st'.dadAt (nodeIdx q) = st.dadAt (nodeIdx q))
    (hchild : ∀ q ∈ t.nodes, ∀ side, st'.child (side, nodeIdx q) = st.child (side, nodeIdx q)) : st'.HoldsAt s' t := by
  cases t with
  | leaf => exact hs.trans h
  | node l p r =>
    obtain ⟨hp, -, hl, hr⟩ := State.holdsAt_node.mp h
    simp only [TreeShape.nodes, List.forall_mem_append, List.forall_mem_cons] at hdad hchild
    obtain ⟨hdl, -, hdr⟩ := hdad
    obtain ⟨hcl, hcp, hcr⟩ := hchild
    have hne : ∀ q, q ∈ l.nodes ∨ q ∈ r.nodes → nodeIdx q ≠ st.child s := by
      intro q hq heq
      rw [hp, nodeIdx_inj] at heq
      subst heq
      simp only [TreeShape.nodes, List.nodup_middle, List.nodup_cons, List.mem_append] at hn
      exact hn.1 hq
    refine State.holdsAt_node.mpr ⟨hs.trans hp, ?_, ?_, ?_⟩
    · rw [← hp]
      exact htop nofun
    · exact hl.congr (hcp false) (fun q hq => hdl q hq (hne q (.inl hq))) hcl
    · exact hr.congr (hcp true) (fun q hq => hdr q hq (hne q (.inr hq))) hcr

/-! ## Contexts -/

/-- The node p with the subtree t on the given side and its sibling on the other. -/
def TreeShape.join (side : Bool) (t : TreeShape) (p : Pos) (sibling : TreeShape) : TreeShape :=
  if side then .node sibling p t else .node t p sibling

theorem State.holdsAt_join {st : State} {s : Slot} {side : Bool} {t sibling : TreeShape} {p : Pos} :
    st.HoldsAt s (t.join side p sibling) ↔ st.child s = nodeIdx p ∧ st.dadAt (nodeIdx p) = s.2 ∧
      st.HoldsAt (side, nodeIdx p) t ∧ st.HoldsAt (!side, nodeIdx p) sibling := by
  cases side
  · exact State.holdsAt_node
  · exact State.holdsAt_node.trans (and_congr_right fun _ => and_congr_right fun _ => and_comm)

/-- A tree with one subtree left out. -/
inductive TreeContext where
  /-- the whole tree is left out -/
  | hole
  /-- the left-out place is in the subtree of p on the given side -/
  | step (side : Bool) (c : TreeContext) (p : Pos) (sibling : TreeShape)

namespace TreeContext

/-- The tree with u in the left-out place. -/
def plug : TreeContext → TreeShape → TreeShape
  | hole, u => u
  | step side c p sibling, u => (c.plug u).join side p sibling

/-- The nodes to the left of the left-out place. -/
def before : TreeContext → List Pos
  | hole => []
  | step side c p sibling => if side then sibling.nodes ++ p :: c.before else c.before

/-- The nodes to the right of the left-out place. -/
def after : TreeContext → List Pos
  | hole => []
  | step side c p sibling => if side then c.after else c.after ++ p :: sibling.nodes

/-- The nodes outside the left-out place. -/
def nodes (c : TreeContext) : List Pos := c.before ++ c.after

/-- The slot of the left-out place, in a tree that stands under the slot s. -/
def slot : TreeContext → Slot → Slot
  | hole, s => s
  | step side c p _, _ => c.slot (side, nodeIdx p)

theorem nodes_plug (c : TreeContext) (u : TreeShape) : (c.plug u).nodes = c.before ++ u.nodes ++ c.after := by
  induction c with
  | hole => simp [plug, before, after]
  | step side c p sibling ih => cases side <;> simp [plug, before, after, TreeShape.join, TreeShape.nodes, ih]

theorem nodes_plug_perm (c : TreeContext) (u : TreeShape) : (c.plug u).nodes.Perm (c.nodes ++ u.nodes) := by
  rw [nodes_plug, nodes, List.append_assoc, List.append_assoc]
  exact List.perm_append_comm.append_left _

theorem mem_plug {c : TreeContext} {u : TreeShape} {p : Pos} :
    p ∈ (c.plug u).nodes ↔ p ∈ c.nodes ∨ p ∈ u.nodes := by
  rw [(c.nodes_plug_perm u).mem_iff, List.mem_append]

theorem nodup_plug {c : TreeContext} {u : TreeShape} (h : (c.plug u).nodes.Nodup) :
    c.nodes.Nodup ∧ u.nodes.Nodup ∧ ∀ q ∈ c.nodes, q ∉ u.nodes := by
  rw [(c.nodes_plug_perm u).nodup_iff, List.nodup_append] at h
  obtain ⟨hc, hu, hdisj⟩ := h
  exact ⟨hc, hu, fun q hq hqu => hdisj q hq q hqu rfl⟩

theorem nodes_step_perm (side : Bool) (c : TreeContext) (p : Pos) (sibling : TreeShape) :
    (step side c p sibling).nodes.Perm (p :: (sibling.nodes ++ c.nodes)) := by
  cases side
  · simp only [nodes, before, after, Bool.false_eq_true, if_false]
    rw [← List.append_assoc c.before]
    exact List.perm_middle.trans (List.perm_append_comm.cons p)
  · simp only [nodes, before, after, if_true]
    rw [List.append_assoc]
    exact List.perm_middle

theorem mem_nodes_step {side : Bool} {c : TreeContext} {p q : Pos} {sibling : TreeShape} :
    q ∈ (step side c p sibling).nodes ↔ q = p ∨ q ∈ sibling.nodes ∨ q ∈ c.nodes := by
  rw [(nodes_step_perm side c p sibling).mem_iff, List.mem_cons, List.mem_append]

/-- The slot is the tree's own or belongs to a node of the context. -/
theorem slot_cases (c : TreeContext) (s : Slot) : (c = hole ∧ c.slot s = s) ∨ ∃ q ∈ c.nodes, (c.slot s).2 = nodeIdx q := by
  induction c generalizing s with
  | hole => exact .inl ⟨rfl, rfl⟩
  | step side c p sibling ih =>
    right
    rcases ih (side, nodeIdx p) with ⟨-, h⟩ | ⟨q, hq, h⟩
    · exact ⟨p, mem_nodes_step.mpr (.inl rfl), congrArg Prod.snd h⟩
    · exact ⟨q, mem_nodes_step.mpr (.inr (.inr hq)), h⟩

end TreeContext

/-- A node stands at the top of some subtree. -/
theorem TreeShape.exists_context {t : TreeShape} {p : Pos} (h : p ∈ t.nodes) :
    ∃ (c : TreeContext) (l r : TreeShape), t = c.plug (.node l p r) := by
  induction t with
  | leaf => simp [TreeShape.nodes] at h
  | node l q r ihl ihr =>
    simp only [TreeShape.nodes, List.mem_append, List.mem_cons] at h
    rcases h with h | rfl | h
    · obtain ⟨c, l', r', rfl⟩ := ihl h
      exact ⟨.step false c q r, l', r', rfl⟩
    · exact ⟨.hole, l, r, rfl⟩
    · obtain ⟨c, l', r', rfl⟩ := ihr h
      exact ⟨.step true c q l, l', r', rfl⟩

/-- The left-out subtree stands under the context's slot. -/
theorem State.HoldsAt.hole {st : State} {s : Slot} {c : TreeContext} {u : TreeShape} (h : st.HoldsAt s (c.plug u)) :
    st.HoldsAt (c.slot s) u := by
  induction c generalizing s with
  | hole => exact h
  | step side c p sibling ih =>
    obtain ⟨-, -, ht, -⟩ := State.holdsAt_join.mp h
    exact ih ht

/-- The link to a node stands in one of its parent's slots only. -/
theorem State.HoldsAt.other_side {st : State} {s : Slot} {c : TreeContext} {u : TreeShape} {p : Pos}
    (h : st.HoldsAt s (c.plug u)) (hp : p ∉ c.nodes) (hs : s.1 = false → st.child (true, s.2) ≠ nodeIdx p)
    (hside : (c.slot s).1 = false) : st.child (true, (c.slot s).2) ≠ nodeIdx p := by
  induction c generalizing s with
  | hole => exact hs hside
  | step side c q sibling ih =>
    obtain ⟨-, -, ht, hsibling⟩ := State.holdsAt_join.mp h
    rw [TreeContext.mem_nodes_step, not_or, not_or] at hp
    obtain ⟨-, hps, hpc⟩ := hp
    refine ih ht hpc (fun hfalse hlink => hps ?_) hside
    subst hfalse
    exact hsibling.mem_of_link hlink

/-- A subtree is edited: outside it only the context's slot changes. -/
theorem State.HoldsAt.edit {st st' : State} {s : Slot} {c : TreeContext} {u u' : TreeShape}
    (h : st.HoldsAt s (c.plug u)) (hn : c.nodes.Nodup) (hs : ∀ q ∈ c.nodes, nodeIdx q ≠ s.2)
    (hdad : ∀ q ∈ c.nodes, st'.dadAt (nodeIdx q) = st.dadAt (nodeIdx q))
    (hself : s ≠ c.slot s → st'.child s = st.child s)
    (hchild : ∀ q ∈ c.nodes, ∀ side, (side, nodeIdx q) ≠ c.slot s →
      st'.child (side, nodeIdx q) = st.child (side, nodeIdx q))
    (hu : st'.HoldsAt (c.slot s) u') : st'.HoldsAt s (c.plug u') := by
  induction c generalizing s with
  | hole => exact hu
  | step side c p sibling ih =>
    obtain ⟨hp, hdadp, ht, hsibling⟩ := State.holdsAt_join.mp h
    rw [(TreeContext.nodes_step_perm side c p sibling).nodup_iff, List.nodup_cons, List.mem_append, not_or,
      List.nodup_append] at hn
    obtain ⟨⟨hpsib, hpc⟩, -, hnc, hdisj⟩ := hn
    have hmem : ∀ q, q = p ∨ q ∈ sibling.nodes ∨ q ∈ c.nodes → q ∈ (TreeContext.step side c p sibling).nodes :=
      fun q => TreeContext.mem_nodes_step.mpr
    have hslot : (c = .hole ∧ c.slot (side, nodeIdx p) = (side, nodeIdx p)) ∨
        ∃ q ∈ c.nodes, (c.slot (side, nodeIdx p)).2 = nodeIdx q := c.slot_cases _
    have hslot_sibling : ∀ q ∈ sibling.nodes, ∀ side', (side', nodeIdx q) ≠ c.slot (side, nodeIdx p) := by
      rintro q hq side' heq
      rcases hslot with ⟨-, hslot⟩ | ⟨x, hx, hslot⟩ <;> rw [← heq] at hslot
      · exact hpsib (nodeIdx_inj.mp (congrArg Prod.snd hslot) ▸ hq)
      · exact hdisj q hq x hx (nodeIdx_inj.mp hslot)
    have hslot_p : (!side, nodeIdx p) ≠ c.slot (side, nodeIdx p) := by
      intro heq
      rcases hslot with ⟨-, hslot⟩ | ⟨x, hx, hslot⟩ <;> rw [← heq] at hslot
      · simp at hslot
      · exact hpc (nodeIdx_inj.mp hslot ▸ hx)
    have hslot_s : s ≠ (TreeContext.step side c p sibling).slot s := by
      intro heq
      rcases (TreeContext.step side c p sibling).slot_cases s with ⟨hc, -⟩ | ⟨x, hx, hslot⟩
      · cases hc
      · exact hs x hx (hslot.symm.trans (congrArg Prod.snd heq).symm)
    refine State.holdsAt_join.mpr ⟨(hself hslot_s).trans hp, (hdad p (hmem p (.inl rfl))).trans hdadp, ?_, ?_⟩
    · exact ih ht hnc (fun q hq heq => hpc (nodeIdx_inj.mp heq ▸ hq)) (fun q hq => hdad q (hmem q (.inr (.inr hq))))
        (hchild p (hmem p (.inl rfl)) side) (fun q hq => hchild q (hmem q (.inr (.inr hq)))) hu
    · exact hsibling.congr (hchild p (hmem p (.inl rfl)) _ hslot_p) (fun q hq => hdad q (hmem q (.inr (.inl hq))))
        fun q hq side' => hchild q (hmem q (.inr (.inl hq))) side' (hslot_sibling q hq side')

end Sys2Proof.Machine

/-! # InsertNode on a search tree (spec/42_match_tree.md R182 to R186, R191)

The descent ends at the place of r's key in the order of the tree, at a missing child or at a node with an equal key, and
the search tree is edited there. -/

namespace Sys2Proof.Machine

/-! ## Keys -/

theorem State.key_lt_of_byte_lt {st : State} {p q : Pos} {i : Nat} (hi : i < 18)
    (heq : ∀ k, k < i → st.keyByte p k = st.keyByte q k) (hlt : st.keyByte p i < st.keyByte q i) :
    st.key p < st.key q := by
  have hsplit : ∀ j < 18, List.range 18 = List.range j ++ j :: List.range' (j + 1) (17 - j) := by decide
  have hfront : (List.range i).map (st.keyByte p) = (List.range i).map (st.keyByte q) :=
    List.map_congr_left fun k hk => heq k (List.mem_range.mp hk)
  rw [State.key, State.key, hsplit i hi, List.map_append, List.map_append, hfront]
  exact List.append_left_lt (List.Lex.rel hlt)

theorem State.key_eq_of_bytes {st : State} {p q : Pos} (h : ∀ k, k < 18 → st.keyByte p k = st.keyByte q k) :
    st.key p = st.key q :=
  List.map_congr_left fun k hk => h k (List.mem_range.mp hk)

/-- The comparison of r's key with that of a node that starts with the same byte (R183): how many leading bytes are
equal, and on which side of the node r belongs. -/
theorem compareKeys_cases (st : State) {r q : Pos} (h0 : st.keyByte q 0 = st.keyByte r 0) :
    (∀ k, k < (compareKeys st r q 17 1).1 → st.keyByte q k = st.keyByte r k) ∧
      (((compareKeys st r q 17 1).1 = 18 ∧ st.key q = st.key r) ∨
        ((compareKeys st r q 17 1).1 < 18 ∧ 0 ≤ (compareKeys st r q 17 1).2 ∧ st.key q < st.key r) ∨
        ((compareKeys st r q 17 1).1 < 18 ∧ ¬ 0 ≤ (compareKeys st r q 17 1).2 ∧ st.key r < st.key q)) := by
  obtain ⟨-, hle, hbytes, hdiff, -⟩ := compareKeys_spec st r q 17 1
  generalize compareKeys st r q 17 1 = found at *
  have hequal : ∀ k, k < found.1 → st.keyByte q k = st.keyByte r k := by
    intro k hk
    cases k with
    | zero => exact h0
    | succ k => exact hbytes (k + 1) (by omega) hk
  refine ⟨hequal, ?_⟩
  by_cases h18 : found.1 = 18
  · exact .inl ⟨h18, st.key_eq_of_bytes fun k hk => hequal k (h18 ▸ hk)⟩
  · have hlt : found.1 < 18 := by omega
    obtain ⟨hcmp, hne⟩ := hdiff hlt
    right
    by_cases hpos : 0 ≤ found.2
    · exact .inl ⟨hlt, hpos, State.key_lt_of_byte_lt hlt hequal (BitVec.lt_def.mpr (by omega))⟩
    · exact .inr ⟨hlt, hpos, State.key_lt_of_byte_lt hlt (fun k hk => (hequal k hk).symm) (BitVec.lt_def.mpr (by omega))⟩

/-! ## The search trees of a state -/

/-- Under each root stands the tree of this shape (R191): `State.TreeInv`, with the shapes named. -/
structure State.SearchTrees (st : State) (shape : Byte → TreeShape) : Prop where
  holds : ∀ c, st.HoldsAt (true, rootIdx c) (shape c)
  sorted : ∀ c, (shape c).nodes.Pairwise fun p q => st.key p < st.key q
  first : ∀ c, ∀ p ∈ (shape c).nodes, st.keyByte p 0 = c
  members : ∀ p, st.inTree p ↔ ∃ c, p ∈ (shape c).nodes

theorem State.treeInv_iff {st : State} : st.TreeInv ↔ ∃ shape, st.SearchTrees shape :=
  ⟨fun ⟨shape, holds, sorted, first, members⟩ => ⟨shape, holds, sorted, first, members⟩,
    fun ⟨shape, h⟩ => ⟨shape, h.holds, h.sorted, h.first, h.members⟩⟩

/-- Rising keys belong to different nodes. -/
theorem nodup_of_sorted {st : State} {l : List Pos} (h : l.Pairwise fun p q => st.key p < st.key q) : l.Nodup :=
  h.imp fun hlt => by
    rintro rfl
    exact List.lt_irrefl _ hlt

theorem length_le_of_nodup {l : List Pos} (h : l.Nodup) : l.length ≤ 4096 := by
  have hcard := (h.map (f := BitVec.toFin) fun _ _ => BitVec.eq_of_toFin_eq).length_le_card
  rw [List.length_map, Fintype.card_fin] at hcard
  exact hcard

theorem State.SearchTrees.nodup {st : State} {shape : Byte → TreeShape} (h : st.SearchTrees shape) (c : Byte) :
    (shape c).nodes.Nodup := nodup_of_sorted (h.sorted c)

theorem State.SearchTrees.inTree_of_mem {st : State} {shape : Byte → TreeShape} (h : st.SearchTrees shape) {c : Byte}
    {p : Pos} (hp : p ∈ (shape c).nodes) : st.inTree p := (h.members p).mpr ⟨c, hp⟩

/-- A node is in one tree only. -/
theorem State.SearchTrees.eq_of_mem {st : State} {shape : Byte → TreeShape} (h : st.SearchTrees shape) {c d : Byte}
    {p : Pos} (hc : p ∈ (shape c).nodes) (hd : p ∈ (shape d).nodes) : c = d :=
  (h.first c p hc).symm.trans (h.first d p hd)

/-- What an edit of the subtree u, at the slot s, leaves alone: keys, every other slot, and DAD of every other node. -/
structure EditFrame (st t : State) (s : Slot) (old new : List Pos) : Prop where
  bytes : ∀ p i, t.keyByte p i = st.keyByte p i
  child : ∀ s', s' ≠ s → (∀ p, p ∈ old ∨ p ∈ new → s'.2 ≠ nodeIdx p) → t.child s' = st.child s'
  dad : ∀ p, p ∉ old → p ∉ new → t.dadAt (nodeIdx p) = st.dadAt (nodeIdx p)
  gone : ∀ p ∈ old, p ∉ new → t.dadAt (nodeIdx p) = nilIdx

theorem EditFrame.key {st t : State} {s : Slot} {old new : List Pos} (h : EditFrame st t s old new) (p : Pos) :
    t.key p = st.key p := List.map_congr_left fun i _ => h.bytes p i

/-- An edit of the search trees of st: in the tree d, the subtree u' takes the place of u. -/
structure TreeEdit (st t : State) (shape : Byte → TreeShape) (d : Byte) (c : TreeContext) (u u' : TreeShape) : Prop where
  trees : st.SearchTrees shape
  place : shape d = c.plug u
  frame : EditFrame st t (c.slot (true, rootIdx d)) u.nodes u'.nodes
  hold : t.HoldsAt (c.slot (true, rootIdx d)) u'
  sorted : (c.plug u').nodes.Pairwise fun p q => st.key p < st.key q
  first : ∀ p ∈ u'.nodes, st.keyByte p 0 = d

/-- The slot of a context is in no node outside it. -/
theorem TreeContext.slot_ne {c : TreeContext} {d : Byte} {x : Pos} (hx : x ∉ c.nodes) :
    (c.slot (true, rootIdx d)).2 ≠ nodeIdx x := by
  rcases c.slot_cases (true, rootIdx d) with ⟨-, h⟩ | ⟨q, hq, h⟩
  · rw [h]
    exact (nodeIdx_ne_rootIdx x d).symm
  · rw [h]
    rintro heq
    exact hx (nodeIdx_inj.mp heq ▸ hq)

section
variable {st t : State} {shape : Byte → TreeShape} {d : Byte} {c : TreeContext} {u u' : TreeShape}

theorem mem_of_place (hd : shape d = c.plug u) {p : Pos} (hp : p ∈ u.nodes) : p ∈ (shape d).nodes := by
  rw [hd, TreeContext.mem_plug]
  exact .inr hp

theorem TreeEdit.mem_old (h : TreeEdit st t shape d c u u') {p : Pos} :
    p ∈ (shape d).nodes ↔ p ∈ c.nodes ∨ p ∈ u.nodes := by
  rw [h.place, TreeContext.mem_plug]

/-- The context's nodes are outside the edit. -/
theorem TreeEdit.outside_context (h : TreeEdit st t shape d c u u') {q : Pos} (hq : q ∈ c.nodes) :
    q ∉ u.nodes ∧ q ∉ u'.nodes :=
  ⟨(TreeContext.nodup_plug (h.place ▸ h.trees.nodup d)).2.2 q hq,
    (TreeContext.nodup_plug (nodup_of_sorted h.sorted)).2.2 q hq⟩

/-- The other trees' nodes are outside the edit. -/
theorem TreeEdit.outside_other (h : TreeEdit st t shape d c u u') {e : Byte} {q : Pos} (he : e ≠ d)
    (hq : q ∈ (shape e).nodes) : q ∉ c.nodes ∧ q ∉ u.nodes ∧ q ∉ u'.nodes := by
  have hne : q ∉ (shape d).nodes := fun hqd => he (h.trees.eq_of_mem hq hqd)
  rw [h.mem_old, not_or] at hne
  exact ⟨hne.1, hne.2, fun hqu => he ((h.trees.first e q hq).symm.trans (h.first q hqu))⟩

/-- A node outside the edit keeps its slots, but for the edited one. -/
theorem TreeEdit.child_eq (h : TreeEdit st t shape d c u u') {q : Pos} {side : Bool} (hq : q ∉ u.nodes ∧ q ∉ u'.nodes)
    (hs : (side, nodeIdx q) ≠ c.slot (true, rootIdx d)) : t.child (side, nodeIdx q) = st.child (side, nodeIdx q) := by
  refine h.frame.child _ hs fun p hp heq => ?_
  cases nodeIdx_inj.mp heq
  exact hp.elim hq.1 hq.2

/-- A root keeps its link, unless it is the edited slot. -/
theorem TreeEdit.root_eq (h : TreeEdit st t shape d c u u') {e : Byte}
    (hs : (true, rootIdx e) ≠ c.slot (true, rootIdx d)) : t.child (true, rootIdx e) = st.child (true, rootIdx e) :=
  h.frame.child _ hs fun p _ heq => nodeIdx_ne_rootIdx p e heq.symm

theorem TreeEdit.holds_self (h : TreeEdit st t shape d c u u') : t.HoldsAt (true, rootIdx d) (c.plug u') := by
  have hold : st.HoldsAt (true, rootIdx d) (c.plug u) := h.place ▸ h.trees.holds d
  have hn := (TreeContext.nodup_plug (h.place ▸ h.trees.nodup d)).1
  exact hold.edit hn (fun q _ => nodeIdx_ne_rootIdx q d)
    (fun q hq => h.frame.dad q (h.outside_context hq).1 (h.outside_context hq).2) h.root_eq
    (fun q hq _ => h.child_eq (h.outside_context hq)) h.hold

theorem TreeEdit.holds_other (h : TreeEdit st t shape d c u u') {e : Byte} (he : e ≠ d) :
    t.HoldsAt (true, rootIdx e) (shape e) := by
  refine (h.trees.holds e).congr (h.root_eq fun heq => ?_)
    (fun q hq => h.frame.dad q (h.outside_other he hq).2.1 (h.outside_other he hq).2.2)
    fun q hq side => h.child_eq (h.outside_other he hq).2 fun heq => ?_
  · rcases c.slot_cases (true, rootIdx d) with ⟨-, hslot⟩ | ⟨x, -, hslot⟩ <;> rw [← heq] at hslot
    · exact he (rootIdx_inj.mp (congrArg Prod.snd hslot))
    · exact nodeIdx_ne_rootIdx x e hslot.symm
  · exact c.slot_ne (h.outside_other he hq).1 (congrArg Prod.snd heq).symm

/-- The nodes after an edit: u' for u. -/
theorem TreeEdit.inTree_iff (h : TreeEdit st t shape d c u u') (p : Pos) :
    t.inTree p ↔ (st.inTree p ∧ p ∉ u.nodes) ∨ p ∈ u'.nodes := by
  by_cases hp' : p ∈ u'.nodes
  · have hne : t.inTree p :=
      h.holds_self.dad_ne_nil (rootIdx_ne_nil d) (TreeContext.mem_plug.mpr (.inr hp'))
    exact ⟨fun _ => .inr hp', fun _ => hne⟩
  · by_cases hp : p ∈ u.nodes
    · simp [State.inTree, h.frame.gone p hp hp', hp, hp']
    · simp [State.inTree, h.frame.dad p hp hp', hp, hp']

theorem TreeEdit.members (h : TreeEdit st t shape d c u u') (p : Pos) :
    t.inTree p ↔ ∃ e, p ∈ (Function.update shape d (c.plug u') e).nodes := by
  rw [h.inTree_iff, h.trees.members]
  constructor
  · rintro (⟨⟨e, he⟩, hnot⟩ | hp)
    · by_cases hed : e = d
      · subst hed
        exact ⟨e, by rw [Function.update_self, TreeContext.mem_plug]; exact .inl ((h.mem_old.mp he).resolve_right hnot)⟩
      · exact ⟨e, by rwa [Function.update_of_ne hed]⟩
    · exact ⟨d, by rw [Function.update_self, TreeContext.mem_plug]; exact .inr hp⟩
  · rintro ⟨e, he⟩
    by_cases hed : e = d
    · subst hed
      rw [Function.update_self, TreeContext.mem_plug] at he
      exact he.imp (fun hp => ⟨⟨e, h.mem_old.mpr (.inl hp)⟩, (h.outside_context hp).1⟩) id
    · rw [Function.update_of_ne hed] at he
      exact .inl ⟨⟨e, he⟩, (h.outside_other hed he).2.1⟩

/-- An edit of one subtree keeps the search trees: the tree d, with u' in the place of u. -/
theorem TreeEdit.searchTrees (h : TreeEdit st t shape d c u u') :
    t.SearchTrees (Function.update shape d (c.plug u')) := by
  refine ⟨fun e => ?_, fun e => ?_, fun e p hp => ?_, h.members⟩
  · by_cases he : e = d
    · rw [he, Function.update_self]
      exact h.holds_self
    · rw [Function.update_of_ne he]
      exact h.holds_other he
  · simp only [h.frame.key]
    by_cases he : e = d
    · rw [he, Function.update_self]
      exact h.sorted
    · rw [Function.update_of_ne he]
      exact h.trees.sorted e
  · rw [h.frame.bytes]
    by_cases he : e = d
    · subst he
      rw [Function.update_self, TreeContext.mem_plug] at hp
      exact hp.elim (fun hp => h.trees.first e p (h.mem_old.mpr (.inl hp))) (h.first p)
    · rw [Function.update_of_ne he] at hp
      exact h.trees.first e p hp

end

/-! ## The descent -/

/-- st with another search result. -/
def withMatch (pos : Pos) (len : BitVec 5) (st : State) : State := { st with matchPos := pos, matchLen := len }

@[simp] theorem keyByte_withMatch (pos : Pos) (len : BitVec 5) (st : State) (p : Pos) (i : Nat) :
    (withMatch pos len st).keyByte p i = st.keyByte p i := rfl
@[simp] theorem dadAt_withMatch (pos : Pos) (len : BitVec 5) (st : State) (j : TreeIdx) :
    (withMatch pos len st).dadAt j = st.dadAt j := rfl
@[simp] theorem child_withMatch (pos : Pos) (len : BitVec 5) (st : State) (s : Slot) :
    (withMatch pos len st).child s = st.child s := rfl

theorem State.HoldsAt.withMatch {st : State} {s : Slot} {t : TreeShape} (h : st.HoldsAt s t) (pos : Pos)
    (len : BitVec 5) : (withMatch pos len st).HoldsAt s t :=
  h.congr rfl (fun _ _ => rfl) fun _ _ _ => rfl

/-- The search result names a node of st whose first bytes are r's, as many as it says (R182, R183). -/
def MatchFound (st : State) (r pos : Pos) (len : BitVec 5) : Prop :=
  len.toNat ≤ 18 ∧ (0 < len.toNat → st.inTree pos ∧ ∀ k, k < len.toNat → st.keyByte pos k = st.keyByte r k)

/-- A visit to the node q records it when it is the better match (R184). -/
theorem recordMatch_found {st : State} {r q : Pos} {i : Nat} (h : MatchFound st r st.matchPos st.matchLen)
    (hq : st.inTree q) (hi : i ≤ 18) (hbytes : ∀ k, k < i → st.keyByte q k = st.keyByte r k) :
    ∃ pos len, recordMatch st q i = withMatch pos len st ∧ MatchFound st r pos len ∧
      (st.matchLen.toNat < 18 → i < 18 → len.toNat < 18) ∧
      (st.matchLen.toNat < i → pos = q ∧ len = BitVec.ofNat 5 i) := by
  have hlen : (BitVec.ofNat 5 i).toNat = i := by
    rw [BitVec.toNat_ofNat]
    omega
  unfold recordMatch
  by_cases hlt : st.matchLen.toNat < i
  · rw [if_pos hlt]
    refine ⟨q, BitVec.ofNat 5 i, rfl, ⟨by omega, fun _ => ⟨hq, ?_⟩⟩, by omega, fun _ => ⟨rfl, rfl⟩⟩
    rw [hlen]
    exact hbytes
  · rw [if_neg hlt]
    exact ⟨st.matchPos, st.matchLen, rfl, h, by omega, fun hc => absurd hc hlt⟩

/-- Attaching r under a slot (R186). -/
def attachAt (s : Slot) (r : Pos) (st : State) : State := (st.setChild s (nodeIdx r)).setDad (nodeIdx r) s.2

theorem attachNode_eq (st : State) (r : Pos) (p : TreeIdx) (cmp : Int) :
    attachNode st r p cmp = attachAt (decide (0 ≤ cmp), p) r st := by
  unfold attachNode attachAt State.setChild
  by_cases h : 0 ≤ cmp <;> simp [h]

/-- The descent goes to the child in the slot that the comparison selects (R182). -/
theorem selectedChild_eq (st : State) (p : TreeIdx) (cmp : Int) :
    (if 0 ≤ cmp then st.rsonAt p else st.lsonAt p) = st.child (decide (0 ≤ cmp), p) := by
  by_cases h : 0 ≤ cmp <;> simp [State.child, h]

/-- Where the descent of InsertNode ends in the tree t (R182): at the place of r's key, a missing child or a node with
an equal key, with the search result of the nodes it passed. -/
inductive DescentEnd (st : State) (r : Pos) (s : Slot) (t : TreeShape) : State → Prop where
  | attach (c : TreeContext) (pos : Pos) (len : BitVec 5) (ht : t = c.plug .leaf) (hfound : MatchFound st r pos len)
      (hbefore : ∀ x ∈ c.before, st.key x < st.key r) (hafter : ∀ x ∈ c.after, st.key r < st.key x) :
      DescentEnd st r s t (attachAt (c.slot s) r (withMatch pos len st))
  | replace (c : TreeContext) (l : TreeShape) (q : Pos) (r' : TreeShape) (ht : t = c.plug (.node l q r'))
      (hfound : MatchFound st r q 18#5) (hkey : st.key q = st.key r) :
      DescentEnd st r s t (replaceNode (withMatch q 18#5 st) r q)

/-- The descent through a node's subtree is a descent through the node. -/
theorem DescentEnd.step {st : State} {r q : Pos} {s : Slot} {side : Bool} {t sibling : TreeShape} {pos : Pos}
    {len : BitVec 5} {v : State} (h : DescentEnd (withMatch pos len st) r (side, nodeIdx q) t v)
    (hq : if side then st.key q < st.key r else st.key r < st.key q)
    (hsibling : ∀ x ∈ sibling.nodes, if side then st.key x < st.key q else st.key q < st.key x) :
    DescentEnd st r s (t.join side q sibling) v := by
  cases h with
  | attach c pos' len' ht hfound hbefore hafter =>
    subst ht
    refine .attach (.step side c q sibling) pos' len' rfl hfound ?_ ?_
    · cases side
      · exact hbefore
      · simp only [TreeContext.before, if_true, List.forall_mem_append, List.forall_mem_cons]
        exact ⟨fun x hx => List.lt_trans (hsibling x hx) hq, hq, hbefore⟩
    · cases side
      · simp only [TreeContext.after, Bool.false_eq_true, if_false, List.forall_mem_append, List.forall_mem_cons]
        exact ⟨hafter, hq, fun x hx => List.lt_trans hq (hsibling x hx)⟩
      · exact hafter
  | replace c l q' r' ht hfound hkey =>
    subst ht
    exact .replace (.step side c q sibling) l q' r' rfl hfound hkey

/-- The descent ends in the tree under the slot it starts at, when its bound covers the tree's nodes (R182, R191). -/
theorem descend_ends {st : State} {r : Pos} {fuel : Nat} {p : TreeIdx} {cmp : Int} {t : TreeShape}
    (hold : st.HoldsAt (decide (0 ≤ cmp), p) t) (hfuel : t.nodes.length ≤ fuel)
    (hsorted : t.nodes.Pairwise fun p q => st.key p < st.key q)
    (hfirst : ∀ q ∈ t.nodes, st.keyByte q 0 = st.keyByte r 0) (hin : ∀ q ∈ t.nodes, st.inTree q)
    (hm : MatchFound st r st.matchPos st.matchLen) (hlt : st.matchLen.toNat < 18) :
    ∃ v, descend r (fuel + 1) st p cmp = .ok v ∧ DescentEnd st r (decide (0 ≤ cmp), p) t v := by
  induction t generalizing st fuel p cmp with
  | leaf =>
    simp only [descend, selectedChild_eq, State.holdsAt_leaf.mp hold, if_true, attachNode_eq]
    exact ⟨_, rfl, .attach .hole st.matchPos st.matchLen rfl hm nofun nofun⟩
  | node l q r' ihl ihr =>
    obtain ⟨hlink, -, hl, hr⟩ := State.holdsAt_node.mp hold
    simp only [TreeShape.nodes, List.length_append, List.length_cons] at hfuel
    simp only [TreeShape.nodes, List.forall_mem_append, List.forall_mem_cons] at hfirst hin
    obtain ⟨hfl, hfq, hfr⟩ := hfirst
    obtain ⟨hil, hiq, hir⟩ := hin
    simp only [TreeShape.nodes, List.pairwise_append, List.pairwise_cons, List.mem_cons] at hsorted
    obtain ⟨hsl, ⟨hqr, hsr⟩, hlr⟩ := hsorted
    obtain ⟨hbytes, hcase⟩ := compareKeys_cases st hfq
    simp only [descend, selectedChild_eq, hlink, if_neg (nodeIdx_ne_nil q), nodeOf?_nodeIdx]
    generalize compareKeys st r q 17 1 = found at hbytes hcase
    obtain ⟨pos, len, hrec, hfound, hlen, hbest⟩ := recordMatch_found hm hiq (by omega) hbytes
    rw [hrec]
    obtain ⟨n, rfl⟩ : ∃ n, fuel = n + 1 := ⟨fuel - 1, by omega⟩
    rcases hcase with ⟨h18, hkey⟩ | ⟨hlt18, hpos, hkey⟩ | ⟨hlt18, hneg, hkey⟩
    · obtain ⟨rfl, rfl⟩ := hbest (by omega)
      rw [if_pos ⟨h18.ge, by omega⟩, h18]
      rw [h18] at hfound
      exact ⟨_, rfl, .replace .hole l pos r' rfl hfound hkey⟩
    · rw [if_neg (by simp only [Config.maxMatch]; omega)]
      have hside : decide (0 ≤ found.2) = true := by simpa using hpos
      obtain ⟨v, hv, hend⟩ := ihr (st := withMatch pos len st) (p := nodeIdx q) (cmp := found.2) (fuel := n)
        (by rw [hside]; exact hr.withMatch pos len) (by omega) hsr hfr hir hfound (hlen hlt hlt18)
      rw [hside] at hend
      exact ⟨v, hv, hend.step (side := true) hkey fun x hx => hlr x hx q (.inl rfl)⟩
    · rw [if_neg (by simp only [Config.maxMatch]; omega)]
      have hside : decide (0 ≤ found.2) = false := by simpa using hneg
      obtain ⟨v, hv, hend⟩ := ihl (st := withMatch pos len st) (p := nodeIdx q) (cmp := found.2) (fuel := n)
        (by rw [hside]; exact hl.withMatch pos len) (by omega) hsl hfl hil hfound (hlen hlt hlt18)
      rw [hside] at hend
      exact ⟨v, hv, hend.step (side := false) hkey hqr⟩

/-! ## The writes at the end of the descent -/

@[simp] theorem State.keyByte_setLson (st : State) (j v : TreeIdx) (p : Pos) (i : Nat) :
    (st.setLson j v).keyByte p i = st.keyByte p i := rfl
@[simp] theorem State.keyByte_setRson (st : State) (j v : TreeIdx) (p : Pos) (i : Nat) :
    (st.setRson j v).keyByte p i = st.keyByte p i := rfl
@[simp] theorem State.keyByte_setDad (st : State) (j v : TreeIdx) (p : Pos) (i : Nat) :
    (st.setDad j v).keyByte p i = st.keyByte p i := rfl

@[simp] theorem State.keyByte_setChild (st : State) (s : Slot) (v : TreeIdx) (p : Pos) (i : Nat) :
    (st.setChild s v).keyByte p i = st.keyByte p i := by
  unfold State.setChild
  split <;> rfl

/-- Re-parenting writes the slot that holds the link (R182, R187). -/
theorem relinkParent_eq {st : State} {s : Slot} {p q : TreeIdx} (hdad : st.dadAt p = s.2) (hlink : st.child s = p)
    (hother : s.1 = false → st.child (true, s.2) ≠ p) : relinkParent st p q = st.setChild s q := by
  obtain ⟨side, j⟩ := s
  unfold relinkParent
  rw [hdad]
  cases side
  · exact if_neg (hother rfl)
  · exact if_pos hlink

/-- The node q stands under the slot s, which is outside its subtree: what the edits of a node need to know. -/
structure NodeSite (st : State) (s : Slot) (l : TreeShape) (q : Pos) (r : TreeShape) : Prop where
  hold : st.HoldsAt s (.node l q r)
  nodup : (TreeShape.node l q r).nodes.Nodup
  other : s.1 = false → st.child (true, s.2) ≠ nodeIdx q
  outside : ∀ x ∈ (TreeShape.node l q r).nodes, s.2 ≠ nodeIdx x

theorem nodeSite_of_plug {st : State} {d : Byte} {c : TreeContext} {l r : TreeShape} {q : Pos}
    (h : st.HoldsAt (true, rootIdx d) (c.plug (.node l q r))) (hn : (c.plug (.node l q r)).nodes.Nodup) :
    NodeSite st (c.slot (true, rootIdx d)) l q r := by
  obtain ⟨-, hnu, hdisj⟩ := TreeContext.nodup_plug hn
  exact ⟨h.hole, hnu, h.other_side (fun hq => hdisj q hq (TreeShape.mem_node.mpr (.inl rfl))) nofun,
    fun x hx => c.slot_ne fun hxc => hdisj x hxc hx⟩

/-- Attaching r edits the missing child under the slot. -/
theorem attachAt_edit {st : State} {s : Slot} {r : Pos} (hs : s.2 ≠ nodeIdx r)
    (hnil : ∀ side, st.child (side, nodeIdx r) = nilIdx) :
    EditFrame st (attachAt s r st) s [] [r] ∧ (attachAt s r st).HoldsAt s (.node .leaf r .leaf) := by
  have hchild : ∀ s', (attachAt s r st).child s' = if s' = s then nodeIdx r else st.child s' := fun s' => by
    rw [attachAt, State.child_setDad, State.child_setChild]
  have hdad : ∀ j, (attachAt s r st).dadAt j = if j = nodeIdx r then s.2 else st.dadAt j := fun j => by
    rw [attachAt, State.dadAt_setDad, State.dadAt_setChild]
  have hleaf : ∀ side, (attachAt s r st).child (side, nodeIdx r) = nilIdx := fun side => by
    rw [hchild, if_neg fun heq => hs (congrArg Prod.snd heq).symm, hnil]
  refine ⟨⟨fun p i => st.keyByte_setChild s (nodeIdx r) p i, fun s' hs' _ => by rw [hchild, if_neg hs'],
    fun p _ hp => ?_, nofun⟩, State.holdsAt_node.mpr ⟨?_, ?_, hleaf false, hleaf true⟩⟩
  · rw [hdad, if_neg fun heq => hp (by rw [nodeIdx_inj.mp heq]; exact List.mem_singleton.mpr rfl)]
  · rw [hchild, if_pos rfl]
  · rw [hdad, if_pos rfl]

/-- The first part of `replaceNode`: r takes q's links, and q's children take r as their parent (R182, R185). -/
def inheritLinks (st : State) (r q : Pos) : State :=
  let st1 := st.setDad (nodeIdx r) (st.dadAt (nodeIdx q))
  let st2 := st1.setLson (nodeIdx r) (st1.lsonAt (nodeIdx q))
  let st3 := st2.setRson (nodeIdx r) (st2.rsonAt (nodeIdx q))
  let st4 := st3.setDad (st3.lsonAt (nodeIdx q)) (nodeIdx r)
  st4.setDad (st4.rsonAt (nodeIdx q)) (nodeIdx r)

theorem replaceNode_eq (st : State) (r q : Pos) :
    replaceNode st r q =
      (relinkParent (inheritLinks st r q) (nodeIdx q) (nodeIdx r)).setDad (nodeIdx q) nilIdx := by
  unfold replaceNode
  extract_lets rn pn st1 st2 st3 st4 st5 st6
  have hinherit : st5 = inheritLinks st r q := rfl
  rw [← hinherit]

theorem inheritLinks_eq {st : State} {r q : Pos} (hne : nodeIdx q ≠ nodeIdx r) :
    inheritLinks st r q =
      ((((st.setDad (nodeIdx r) (st.dadAt (nodeIdx q))).setLson (nodeIdx r) (st.child (false, nodeIdx q))).setRson
        (nodeIdx r) (st.child (true, nodeIdx q))).setDad (st.child (false, nodeIdx q)) (nodeIdx r)).setDad
        (st.child (true, nodeIdx q)) (nodeIdx r) := by
  unfold inheritLinks
  extract_lets st1 st2 st3 st4
  have h2 : st1.lsonAt (nodeIdx q) = st.child (false, nodeIdx q) := rfl
  have h3 : st2.rsonAt (nodeIdx q) = st.child (true, nodeIdx q) := rfl
  have h4 : st3.lsonAt (nodeIdx q) = st.child (false, nodeIdx q) := by
    rw [State.lsonAt_setRson, State.lsonAt_setLson, if_neg hne, h2]
  have h5 : st4.rsonAt (nodeIdx q) = st.child (true, nodeIdx q) := by
    rw [State.rsonAt_setDad, State.rsonAt_setRson, if_neg hne, h3]
  rw [h5]
  show State.setDad (st3.setDad (st3.lsonAt (nodeIdx q)) (nodeIdx r)) _ _ = _
  rw [h4]
  show State.setDad (State.setDad (State.setRson st2 (nodeIdx r) (st2.rsonAt (nodeIdx q))) _ _) _ _ = _
  rw [h3]
  show State.setDad (State.setDad (State.setRson (State.setLson st1 _ (st1.lsonAt (nodeIdx q))) _ _) _ _) _ _ = _
  rw [h2]

theorem child_inheritLinks {st : State} {r q : Pos} (hne : nodeIdx q ≠ nodeIdx r) (s : Slot) :
    (inheritLinks st r q).child s = if s.2 = nodeIdx r then st.child (s.1, nodeIdx q) else st.child s := by
  rw [inheritLinks_eq hne, State.child_setDad, State.child_setDad, State.child_setRson, State.child_setLson,
    State.child_setDad]
  obtain ⟨side, j⟩ := s
  by_cases hj : j = nodeIdx r
  · subst hj
    cases side <;> simp
  · simp [hj]

theorem dadAt_inheritLinks {st : State} {r q : Pos} (hne : nodeIdx q ≠ nodeIdx r) (j : TreeIdx) :
    (inheritLinks st r q).dadAt j =
      if j = st.child (true, nodeIdx q) ∨ j = st.child (false, nodeIdx q) then nodeIdx r
      else if j = nodeIdx r then st.dadAt (nodeIdx q) else st.dadAt j := by
  rw [inheritLinks_eq hne, State.dadAt_setDad, State.dadAt_setDad, State.dadAt_setRson, State.dadAt_setLson,
    State.dadAt_setDad]
  by_cases h1 : j = st.child (true, nodeIdx q)
  · rw [if_pos h1, if_pos (.inl h1)]
  · simp only [h1, if_false, false_or]

/-- Every cell after `replaceNode`: r has q's links and the slot, q's children have r as their parent (R185). -/
structure Replaced (st t : State) (s : Slot) (r q : Pos) : Prop where
  bytes : ∀ p i, t.keyByte p i = st.keyByte p i
  slot : t.child s = nodeIdx r
  links : ∀ side, t.child (side, nodeIdx r) = st.child (side, nodeIdx q)
  child : ∀ s', s' ≠ s → s'.2 ≠ nodeIdx r → t.child s' = st.child s'
  parent : t.dadAt (nodeIdx r) = s.2
  children : ∀ side, t.dadAt (st.child (side, nodeIdx q)) = nodeIdx r
  gone : t.dadAt (nodeIdx q) = nilIdx
  dad : ∀ j, j ≠ nodeIdx q → j ≠ nodeIdx r → (∀ side, j ≠ st.child (side, nodeIdx q)) → t.dadAt j = st.dadAt j

theorem replaceNode_replaced {st : State} {s : Slot} {r q : Pos} (hdad : st.dadAt (nodeIdx q) = s.2)
    (hlink : st.child s = nodeIdx q) (hother : s.1 = false → st.child (true, s.2) ≠ nodeIdx q)
    (hs : s.2 ≠ nodeIdx r) (hne : nodeIdx q ≠ nodeIdx r) (hq : ∀ side, nodeIdx q ≠ st.child (side, nodeIdx q))
    (hr : ∀ side, nodeIdx r ≠ st.child (side, nodeIdx q)) : Replaced st (replaceNode st r q) s r q := by
  have heq : replaceNode st r q = ((inheritLinks st r q).setChild s (nodeIdx r)).setDad (nodeIdx q) nilIdx := by
    rw [replaceNode_eq, relinkParent_eq (s := s)]
    · rw [dadAt_inheritLinks hne, if_neg (not_or.mpr ⟨hq true, hq false⟩), if_neg hne, hdad]
    · rw [child_inheritLinks hne, if_neg hs, hlink]
    · rw [child_inheritLinks hne, if_neg hs]
      exact hother
  have hchild : ∀ s', (replaceNode st r q).child s' = if s' = s then nodeIdx r else (inheritLinks st r q).child s' :=
    fun s' => by rw [heq, State.child_setDad, State.child_setChild]
  have hdad' : ∀ j, (replaceNode st r q).dadAt j = if j = nodeIdx q then nilIdx else (inheritLinks st r q).dadAt j :=
    fun j => by rw [heq, State.dadAt_setDad, State.dadAt_setChild]
  refine ⟨fun p i => ?_, ?_, fun side => ?_, fun s' hs' hr' => ?_, ?_, fun side => ?_, ?_, fun j hjq hjr hj => ?_⟩
  · rw [heq, inheritLinks_eq hne]
    simp only [State.keyByte_setDad, State.keyByte_setChild, State.keyByte_setRson, State.keyByte_setLson]
  · rw [hchild, if_pos rfl]
  · rw [hchild, if_neg fun h => hs (congrArg Prod.snd h).symm, child_inheritLinks hne, if_pos rfl]
  · rw [hchild, if_neg hs', child_inheritLinks hne, if_neg hr']
  · rw [hdad', if_neg hne.symm, dadAt_inheritLinks hne, if_neg (not_or.mpr ⟨hr true, hr false⟩), if_pos rfl, hdad]
  · rw [hdad', if_neg (hq side).symm, dadAt_inheritLinks hne, if_pos (by cases side <;> simp)]
  · rw [hdad', if_pos rfl]
  · rw [hdad', if_neg hjq, dadAt_inheritLinks hne, if_neg (not_or.mpr ⟨hj true, hj false⟩), if_neg hjr]

/-! ## The edit that the insertion is -/

/-- A subtree of q moves to r, which has q's links (R185). -/
theorem Replaced.moved {st t : State} {s : Slot} {r q : Pos} {l r' u : TreeShape} (h : Replaced st t s r q)
    (hsite : NodeSite st s l q r') (hr : r ∉ (TreeShape.node l q r').nodes) {side : Bool}
    (hu : st.HoldsAt (side, nodeIdx q) u) (hnu : u.nodes.Nodup)
    (hin : ∀ x ∈ u.nodes, x ∈ (TreeShape.node l q r').nodes ∧ x ≠ q ∧ nodeIdx x ≠ st.child (!side, nodeIdx q)) :
    t.HoldsAt (side, nodeIdx r) u := by
  have hxr : ∀ x ∈ u.nodes, nodeIdx x ≠ nodeIdx r := fun x hx heq => hr (nodeIdx_inj.mp heq ▸ (hin x hx).1)
  refine hu.move hnu (h.links side) (fun _ => h.children side) (fun x hx hne => ?_) fun x hx side' => ?_
  · obtain ⟨-, hxq, hother⟩ := hin x hx
    refine h.dad _ (fun heq => hxq (nodeIdx_inj.mp heq)) (hxr x hx) (Bool.forall_bool' side |>.mpr ⟨hne, hother⟩)
  · exact h.child _ (fun heq => hsite.outside x (hin x hx).1 (congrArg Prod.snd heq).symm) (hxr x hx)

/-- Replacing q by r edits the subtree of q (R185). -/
theorem NodeSite.replace {st : State} {s : Slot} {r q : Pos} {l r' : TreeShape} (h : NodeSite st s l q r')
    (hr : r ∉ (TreeShape.node l q r').nodes) (hs : s.2 ≠ nodeIdx r) :
    EditFrame st (replaceNode st r q) s (TreeShape.node l q r').nodes (TreeShape.node l r r').nodes ∧
      (replaceNode st r q).HoldsAt s (.node l r r') := by
  obtain ⟨hlink, hdad, hl, hr'⟩ := State.holdsAt_node.mp h.hold
  obtain ⟨hnl, hnr, hql, hqr, hdisj⟩ := TreeShape.nodup_node.mp h.nodup
  have hlinks : ∀ x, x ∉ l.nodes → x ∉ r'.nodes → ∀ side, nodeIdx x ≠ st.child (side, nodeIdx q) := by
    intro x hxl hxr side
    cases side
    · exact hl.link_ne hxl
    · exact hr'.link_ne hxr
  obtain ⟨hrq, hrl, hrr⟩ : r ≠ q ∧ r ∉ l.nodes ∧ r ∉ r'.nodes := by
    simpa only [TreeShape.mem_node, not_or] using hr
  have hreplaced := replaceNode_replaced hdad hlink h.other hs (fun heq => hrq (nodeIdx_inj.mp heq).symm)
    (hlinks q hql hqr) (hlinks r hrl hrr)
  refine ⟨⟨hreplaced.bytes, fun s' hs' hnot => ?_, fun p hp hp' => ?_, fun p hp hp' => ?_⟩,
    State.holdsAt_node.mpr ⟨hreplaced.slot, hreplaced.parent, ?_, ?_⟩⟩
  · exact hreplaced.child s' hs' (hnot r (.inr (TreeShape.mem_node.mpr (.inl rfl))))
  · simp only [TreeShape.mem_node, not_or] at hp hp'
    obtain ⟨hpq, hpl, hpr⟩ := hp
    exact hreplaced.dad _ (fun heq => hpq (nodeIdx_inj.mp heq)) (fun heq => hp'.1 (nodeIdx_inj.mp heq))
      (hlinks p hpl hpr)
  · simp only [TreeShape.mem_node, not_or] at hp hp'
    obtain ⟨-, hpl, hpr⟩ := hp'
    rw [hp.resolve_right fun h => h.elim hpl hpr]
    exact hreplaced.gone
  · exact hreplaced.moved h hr hl hnl fun x hx =>
      ⟨TreeShape.mem_node.mpr (.inr (.inl hx)), fun heq => hql (heq ▸ hx), hr'.link_ne (hdisj x hx)⟩
  · exact hreplaced.moved h hr hr' hnr fun x hx =>
      ⟨TreeShape.mem_node.mpr (.inr (.inr hx)), fun heq => hqr (heq ▸ hx), hl.link_ne fun hxl => hdisj x hxl hx⟩

/-- The state in which the search of InsertNode starts (R182): r has no children, and nothing is found yet. -/
def startInsert (r : Pos) (st : State) : State :=
  withMatch st.matchPos 0#5 ((st.setRson (nodeIdx r) nilIdx).setLson (nodeIdx r) nilIdx)

theorem insertNode_eq_descend (r : Pos) (st : State) :
    insertNode r st = descend r Config.walkBound (startInsert r st) (rootIdx (st.keyByte r 0)) 1 := by
  unfold insertNode startInsert withMatch
  rfl

@[simp] theorem keyByte_startInsert (r : Pos) (st : State) (p : Pos) (i : Nat) :
    (startInsert r st).keyByte p i = st.keyByte p i := by
  rw [startInsert, keyByte_withMatch, State.keyByte_setLson, State.keyByte_setRson]

@[simp] theorem key_startInsert (r : Pos) (st : State) (p : Pos) : (startInsert r st).key p = st.key p :=
  List.map_congr_left fun i _ => keyByte_startInsert r st p i

@[simp] theorem dadAt_startInsert (r : Pos) (st : State) (j : TreeIdx) : (startInsert r st).dadAt j = st.dadAt j := by
  rw [startInsert, dadAt_withMatch, State.dadAt_setLson, State.dadAt_setRson]

theorem child_startInsert (r : Pos) (st : State) (s : Slot) :
    (startInsert r st).child s = if s.2 = nodeIdx r then nilIdx else st.child s := by
  rw [startInsert, child_withMatch, State.child_setLson, State.child_setRson]
  obtain ⟨_ | _, j⟩ := s <;> simp

theorem matchFound_startInsert (st : State) (r : Pos) :
    MatchFound (startInsert r st) r (startInsert r st).matchPos (startInsert r st).matchLen :=
  ⟨show (0#5).toNat ≤ 18 by decide, fun h => absurd h (show ¬ 0 < (0#5).toNat by decide)⟩

/-- A tree without r stands in it as before. -/
theorem State.HoldsAt.startInsert {st : State} {s : Slot} {t : TreeShape} {r : Pos} (h : st.HoldsAt s t)
    (hs : s.2 ≠ nodeIdx r) (hr : r ∉ t.nodes) : (startInsert r st).HoldsAt s t :=
  h.congr (by rw [child_startInsert, if_neg hs]) (fun q _ => dadAt_startInsert r st _) fun q hq side => by
    have hne : nodeIdx q ≠ nodeIdx r := fun heq => hr (nodeIdx_inj.mp heq ▸ hq)
    rw [child_startInsert, if_neg hne]

theorem EditFrame.of_startInsert {st t : State} {r : Pos} {pos : Pos} {len : BitVec 5} {s : Slot} {old new : List Pos}
    (h : EditFrame (withMatch pos len (startInsert r st)) t s old new) (hr : r ∈ new) : EditFrame st t s old new where
  bytes p i := by rw [h.bytes, keyByte_withMatch, keyByte_startInsert]
  child s' hs' hnot := by
    rw [h.child s' hs' hnot, child_withMatch, child_startInsert, if_neg (hnot r (.inr hr))]
  dad p hp hp' := by rw [h.dad p hp hp', dadAt_withMatch, dadAt_startInsert]
  gone := h.gone

theorem matchFound_of_startInsert {st : State} {r pos : Pos} {len : BitVec 5}
    (h : MatchFound (startInsert r st) r pos len) : MatchFound st r pos len := by
  simpa only [MatchFound, State.inTree, dadAt_startInsert, keyByte_startInsert] using h

theorem sorted_insert {st : State} {r : Pos} {before after : List Pos}
    (h : (before ++ after).Pairwise fun p q => st.key p < st.key q) (hbefore : ∀ x ∈ before, st.key x < st.key r)
    (hafter : ∀ x ∈ after, st.key r < st.key x) :
    (before ++ [r] ++ after).Pairwise fun p q => st.key p < st.key q := by
  rw [List.pairwise_append] at h
  obtain ⟨hb, ha, hba⟩ := h
  rw [List.append_assoc, List.singleton_append, List.pairwise_append, List.pairwise_cons]
  exact ⟨hb, ⟨hafter, ha⟩, fun x hx => List.forall_mem_cons.mpr ⟨hbefore x hx, hba x hx⟩⟩

/-- Nodes with equal keys sort equally. -/
theorem sorted_of_map_key_eq {st : State} {l l' : List Pos} (h : l.Pairwise fun p q => st.key p < st.key q)
    (heq : l'.map st.key = l.map st.key) : l'.Pairwise fun p q => st.key p < st.key q := by
  have hmap : (l'.map st.key).Pairwise (· < ·) := by
    rw [heq]
    exact List.pairwise_map.mpr h
  exact List.pairwise_map.mp hmap

/-- What InsertNode of r leaves in t: a search tree with r in it, and a search result from the nodes that were there
(R182 to R186, R191). -/
structure Inserted (st t : State) (r : Pos) : Prop where
  tree : t.TreeInv
  self : t.inTree r
  old : ∀ p, t.inTree p → p = r ∨ st.inTree p
  kept : ∀ p, st.inTree p → t.inTree p ∨ (p = t.matchPos ∧ t.matchLen = 18#5 ∧ st.key p = st.key r)
  found : MatchFound st r t.matchPos t.matchLen

/-- An edit that puts r in, and takes out at most a node with r's key. -/
theorem TreeEdit.inserted {st t : State} {shape : Byte → TreeShape} {d : Byte} {c : TreeContext} {u u' : TreeShape}
    {r : Pos} (h : TreeEdit st t shape d c u u') (hself : r ∈ u'.nodes) (hold : ∀ p ∈ u'.nodes, p = r ∨ p ∈ u.nodes)
    (hkept : ∀ p ∈ u.nodes, p ∈ u'.nodes ∨ (p = t.matchPos ∧ t.matchLen = 18#5 ∧ st.key p = st.key r))
    (hfound : MatchFound st r t.matchPos t.matchLen) : Inserted st t r := by
  have hmembers := h.inTree_iff
  refine ⟨State.treeInv_iff.mpr ⟨_, h.searchTrees⟩, (hmembers r).mpr (.inr hself), fun p hp => ?_, fun p hp => ?_, hfound⟩
  · rcases (hmembers p).mp hp with ⟨hst, -⟩ | hpu
    · exact .inr hst
    · exact (hold p hpu).imp id fun hpu => h.trees.inTree_of_mem (mem_of_place h.place hpu)
  · by_cases hpu : p ∈ u.nodes
    · exact (hkept p hpu).imp (fun hp' => (hmembers p).mpr (.inr hp')) id
    · exact .inl ((hmembers p).mpr (.inl ⟨hp, hpu⟩))

theorem match_of_withoutTree {st t : State} (h : withoutTree t = withoutTree st) :
    t.matchPos = st.matchPos ∧ t.matchLen = st.matchLen := by
  rw [eq_of_withoutTree h]
  exact ⟨rfl, rfl⟩

theorem withoutTree_attachAt (s : Slot) (r : Pos) (st : State) : withoutTree (attachAt s r st) = withoutTree st := by
  unfold attachAt State.setChild
  split <;> rfl

section
variable {st : State} {shape : Byte → TreeShape} {r : Pos} {d : Byte} {c : TreeContext}

/-- InsertNode's search ends in the tree of r's first byte (R182). -/
theorem insertNode_ends (h : st.SearchTrees shape) (hr : ¬ st.inTree r) (hd : st.keyByte r 0 = d) :
    ∃ t, insertNode r st = .ok t ∧ DescentEnd (startInsert r st) r (true, rootIdx d) (shape d) t := by
  have hrd : r ∉ (shape d).nodes := fun hmem => hr (h.inTree_of_mem hmem)
  have hstart := (h.holds d).startInsert (nodeIdx_ne_rootIdx r d).symm hrd
  have hfuel : (shape d).nodes.length ≤ 4352 := (length_le_of_nodup (h.nodup d)).trans (by omega)
  have hbound : Config.walkBound = 4352 + 1 := by unfold Config.walkBound; rfl
  rw [insertNode_eq_descend, hbound, hd]
  refine descend_ends (cmp := 1) hstart hfuel ?_ (fun q hq => ?_) (fun q hq => h.inTree_of_mem hq)
    (matchFound_startInsert st r) (show (0#5).toNat < 18 by decide)
  · simpa only [key_startInsert] using h.sorted d
  · rw [keyByte_startInsert, keyByte_startInsert, h.first d q hq, hd]

theorem State.SearchTrees.inserted_of_attach {pos : Pos} {len : BitVec 5} (h : st.SearchTrees shape)
    (hr : ¬ st.inTree r) (hd : st.keyByte r 0 = d) (ht : shape d = c.plug .leaf) (hfound : MatchFound st r pos len)
    (hbefore : ∀ x ∈ c.before, st.key x < st.key r) (hafter : ∀ x ∈ c.after, st.key r < st.key x) :
    Inserted st (attachAt (c.slot (true, rootIdx d)) r (withMatch pos len (startInsert r st))) r := by
  have hrc : r ∉ c.nodes := fun hmem => hr (h.inTree_of_mem (c := d) (by
    rw [ht, TreeContext.mem_plug]
    exact .inl hmem))
  have hsorted := h.sorted d
  rw [ht, c.nodes_plug] at hsorted
  obtain ⟨hframe, hu⟩ := attachAt_edit (st := withMatch pos len (startInsert r st)) (c.slot_ne (d := d) hrc)
    fun side => (child_startInsert r st (side, nodeIdx r)).trans (if_pos rfl)
  obtain ⟨hpos, hlen⟩ := match_of_withoutTree
    (withoutTree_attachAt (c.slot (true, rootIdx d)) r (withMatch pos len (startInsert r st)))
  refine TreeEdit.inserted (shape := shape) (d := d) (c := c) (u := .leaf) (u' := .node .leaf r .leaf)
    ⟨h, ht, hframe.of_startInsert (List.mem_singleton_self r), hu, ?_, fun p hp => ?_⟩ (List.mem_singleton_self r)
    (fun p hp => .inl (List.mem_singleton.mp hp)) nofun ?_
  · rw [c.nodes_plug]
    exact sorted_insert (by simpa [TreeShape.nodes] using hsorted) hbefore hafter
  · rw [List.mem_singleton.mp hp, hd]
  · rw [hpos, hlen]
    exact hfound

theorem State.SearchTrees.inserted_of_replace {l r' : TreeShape} {q : Pos} (h : st.SearchTrees shape)
    (hr : ¬ st.inTree r) (hd : st.keyByte r 0 = d) (ht : shape d = c.plug (.node l q r'))
    (hfound : MatchFound st r q 18#5) (hkey : st.key q = st.key r) :
    Inserted st (replaceNode (withMatch q 18#5 (startInsert r st)) r q) r := by
  have hrd : r ∉ (shape d).nodes := fun hmem => hr (h.inTree_of_mem hmem)
  have hstart := ((h.holds d).startInsert (nodeIdx_ne_rootIdx r d).symm hrd).withMatch q 18#5
  have hn := h.nodup d
  have hsorted := h.sorted d
  rw [ht] at hrd hstart hn hsorted
  rw [TreeContext.mem_plug, not_or] at hrd
  obtain ⟨hrc, hru⟩ := hrd
  obtain ⟨hframe, hu⟩ := (nodeSite_of_plug hstart hn).replace hru (c.slot_ne hrc)
  obtain ⟨hpos, hlen⟩ := match_of_withoutTree (withoutTree_replaceNode (withMatch q 18#5 (startInsert r st)) r q)
  have hold : ∀ p ∈ (TreeShape.node l r r').nodes, p = r ∨ p ∈ (TreeShape.node l q r').nodes := fun p hp =>
    (TreeShape.mem_node.mp hp).imp id fun hp => TreeShape.mem_node.mpr (.inr hp)
  refine TreeEdit.inserted (shape := shape) (d := d) (c := c)
    ⟨h, ht, hframe.of_startInsert (TreeShape.mem_node.mpr (.inl rfl)), hu, ?_, fun p hp => ?_⟩
    (TreeShape.mem_node.mpr (.inl rfl)) hold (fun p hp => ?_) ?_
  · refine sorted_of_map_key_eq hsorted ?_
    simp only [c.nodes_plug, TreeShape.nodes, List.map_append, List.map_cons, hkey]
  · rcases hold p hp with rfl | hp
    · exact hd
    · exact h.first d p (mem_of_place ht hp)
  · rcases TreeShape.mem_node.mp hp with rfl | hp
    · exact .inr ⟨hpos.symm, hlen, hkey⟩
    · exact .inl (TreeShape.mem_node.mpr (.inr hp))
  · rw [hpos, hlen]
    exact hfound

end

/-- InsertNode of a position that is in no tree succeeds and keeps the search tree (R182, R191). -/
theorem insertNode_inserted {st : State} {r : Pos} (h : st.TreeInv) (hr : ¬ st.inTree r) :
    ∃ t, insertNode r st = .ok t ∧ Inserted st t r := by
  obtain ⟨shape, h⟩ := State.treeInv_iff.mp h
  obtain ⟨t, ht, hend⟩ := insertNode_ends h hr rfl
  refine ⟨t, ht, ?_⟩
  cases hend with
  | attach c pos len hshape hfound hbefore hafter =>
    simp only [key_startInsert] at hbefore hafter
    exact h.inserted_of_attach hr rfl hshape (matchFound_of_startInsert hfound) hbefore hafter
  | replace c l q r' hshape hfound hkey =>
    simp only [key_startInsert] at hkey
    exact h.inserted_of_replace hr rfl hshape (matchFound_of_startInsert hfound) hkey

end Sys2Proof.Machine

/-! # DeleteNode on a search tree (spec/42_match_tree.md R187, R189, R191)

The node p leaves with its one subtree in its place, or with its in-order predecessor q over what is left of p's
subtrees: the in-order walk loses p and nothing else. -/

namespace Sys2Proof.Machine

/-! ## Putting a node in p's place -/

/-- The last lines of DeleteNode, as writes: q gets p's slot and parent, p leaves. -/
theorem promoteChild_eq {st : State} {s : Slot} {p q : TreeIdx} (hdad : st.dadAt p = s.2) (hlink : st.child s = p)
    (hother : s.1 = false → st.child (true, s.2) ≠ p) (hq : p ≠ q) :
    promoteChild st p q = ((st.setDad q s.2).setChild s q).setDad p nilIdx := by
  have hparent : (st.setDad q (st.dadAt p)).dadAt p = s.2 := by
    rw [State.dadAt_setDad, if_neg hq, hdad]
  unfold promoteChild
  simp only []
  rw [relinkParent_eq hparent hlink hother, hdad]

theorem child_promoteChild {st : State} {s : Slot} {p q : TreeIdx} (hdad : st.dadAt p = s.2) (hlink : st.child s = p)
    (hother : s.1 = false → st.child (true, s.2) ≠ p) (hq : p ≠ q) (s' : Slot) :
    (promoteChild st p q).child s' = if s' = s then q else st.child s' := by
  rw [promoteChild_eq hdad hlink hother hq, State.child_setDad, State.child_setChild, State.child_setDad]

theorem dadAt_promoteChild {st : State} {s : Slot} {p q : TreeIdx} (hdad : st.dadAt p = s.2) (hlink : st.child s = p)
    (hother : s.1 = false → st.child (true, s.2) ≠ p) (hq : p ≠ q) (j : TreeIdx) :
    (promoteChild st p q).dadAt j = if j = p then nilIdx else if j = q then s.2 else st.dadAt j := by
  rw [promoteChild_eq hdad hlink hother hq, State.dadAt_setDad, State.dadAt_setChild, State.dadAt_setDad]

theorem keyByte_of_withoutTree {st t : State} (h : withoutTree t = withoutTree st) (p : Pos) (i : Nat) :
    t.keyByte p i = st.keyByte p i := by
  rw [eq_of_withoutTree h]
  rfl

/-- The subtree u of p takes p's place, where p's other subtree is empty (R187). -/
theorem NodeSite.promote {st : State} {s : Slot} {l r : TreeShape} {p : Pos} (h : NodeSite st s l p r)
    {side : Bool} {u : TreeShape} (hu : st.HoldsAt (side, nodeIdx p) u) (hnodes : u.nodes = l.nodes ++ r.nodes) :
    EditFrame st (promoteChild st (nodeIdx p) (st.child (side, nodeIdx p))) s (TreeShape.node l p r).nodes u.nodes ∧
      (promoteChild st (nodeIdx p) (st.child (side, nodeIdx p))).HoldsAt s u := by
  obtain ⟨hlink, hdad, -, -⟩ := State.holdsAt_node.mp h.hold
  obtain ⟨hnl, hnr, hpl, hpr, hdisj⟩ := TreeShape.nodup_node.mp h.nodup
  have hmem : ∀ x, x ∈ (TreeShape.node l p r).nodes ↔ x = p ∨ x ∈ u.nodes := fun x => by
    rw [TreeShape.mem_node, hnodes, List.mem_append]
  have hpu : p ∉ u.nodes := by
    rw [hnodes, List.mem_append, not_or]
    exact ⟨hpl, hpr⟩
  have hnu : u.nodes.Nodup := by
    rw [hnodes, List.nodup_append]
    exact ⟨hnl, hnr, fun a ha b hb heq => hdisj a ha (heq ▸ hb)⟩
  have hq : nodeIdx p ≠ st.child (side, nodeIdx p) := hu.link_ne hpu
  have hchild := child_promoteChild hdad hlink h.other hq
  have hdads := dadAt_promoteChild hdad hlink h.other hq
  have hne : ∀ x ∈ u.nodes, nodeIdx x ≠ nodeIdx p := fun x hx heq => hpu (nodeIdx_inj.mp heq ▸ hx)
  refine ⟨⟨keyByte_of_withoutTree (withoutTree_promoteChild _ _ _), fun s' hs' _ => ?_, fun x hx hx' => ?_,
    fun x hx hx' => ?_⟩, hu.move hnu ?_ (fun hleaf => ?_) (fun x hx hxq => ?_) fun x hx side' => ?_⟩
  · rw [hchild, if_neg hs']
  · have hxp : nodeIdx x ≠ nodeIdx p := fun heq => hx ((hmem x).mpr (.inl (nodeIdx_inj.mp heq)))
    rw [hdads, if_neg hxp, if_neg (hu.link_ne hx')]
  · rw [((hmem x).mp hx).resolve_right hx', hdads, if_pos rfl]
  · rw [hchild, if_pos rfl]
  · rw [hdads, if_neg (Ne.symm hq), if_pos rfl]
  · rw [hdads, if_neg (hne x hx), if_neg hxq]
  · have hxs : (side', nodeIdx x) ≠ s := fun heq => h.outside x ((hmem x).mpr (.inr hx)) (congrArg Prod.snd heq).symm
    rw [hchild, if_neg hxs]

/-! ## The in-order predecessor -/

/-- The walk to the right ends at the tree's last node (R187). -/
theorem rightmost_ends {st : State} {s : Slot} {t : TreeShape} {fuel : Nat} (h : st.HoldsAt s t) (ht : t ≠ .leaf)
    (hfuel : t.nodes.length ≤ fuel) :
    ∃ (c : TreeContext) (l : TreeShape) (q : Pos), rightmost st fuel (st.child s) = .ok (nodeIdx q) ∧
      t = c.plug (.node l q .leaf) ∧ c.after = [] ∧ (s.1 = true → (c.slot s).1 = true) := by
  induction t generalizing s fuel with
  | leaf => exact absurd rfl ht
  | node l q r ihl ihr =>
    obtain ⟨hlink, -, -, hr⟩ := State.holdsAt_node.mp h
    simp only [TreeShape.nodes, List.length_append, List.length_cons] at hfuel
    obtain ⟨n, rfl⟩ : ∃ n, fuel = n + 1 := ⟨fuel - 1, by omega⟩
    have hright : st.rsonAt (nodeIdx q) = st.child (true, nodeIdx q) := rfl
    simp only [rightmost, hlink, hright]
    by_cases hnil : st.child (true, nodeIdx q) = nilIdx
    · rw [if_pos hnil, hr.eq_leaf hnil]
      exact ⟨.hole, l, q, rfl, rfl, rfl, id⟩
    · rw [if_neg hnil]
      obtain ⟨c, l', q', hwalk, rfl, hafter, hslot⟩ := ihr (fuel := n) hr (fun hleaf => hnil (by subst hleaf; exact hr)) (by omega)
      exact ⟨.step true c q l, l', q', hwalk, rfl, hafter, fun _ => hslot rfl⟩

/-- The last node q of p's left subtree l is on top of the rest l' of it, and not yet in p's place (R187, R189). -/
structure PredecessorReady (st t : State) (l : TreeShape) (q : Pos) (l' : TreeShape) : Prop where
  bytes : ∀ x i, t.keyByte x i = st.keyByte x i
  child : ∀ s, (∀ x ∈ l.nodes, s.2 ≠ nodeIdx x) → t.child s = st.child s
  dad : ∀ x, x ∉ l.nodes → t.dadAt (nodeIdx x) = st.dadAt (nodeIdx x)
  hold : t.HoldsAt (false, nodeIdx q) l'
  nodes : l.nodes = l'.nodes ++ [q]

/-- p's left child without a right child is the predecessor itself. -/
theorem predecessorReady_of_top {st : State} {s : Slot} {l : TreeShape} {q : Pos} (h : st.HoldsAt s (.node l q .leaf)) :
    PredecessorReady st st (.node l q .leaf) q l := by
  obtain ⟨-, -, hl, -⟩ := State.holdsAt_node.mp h
  exact ⟨fun _ _ => rfl, fun _ _ => rfl, fun _ _ => rfl, hl, rfl⟩

/-- The unlinking of q, as writes: q's left subtree takes q's slot, and p's left subtree goes under q (R187). -/
theorem unlinkPredecessor_eq {st : State} {s : Slot} {p q : TreeIdx} (hdad : st.dadAt q = s.2) (hs : s.1 = true)
    (hne : p ≠ q) :
    unlinkPredecessor st p q =
      ((((st.setChild s (st.child (false, q))).setDad (st.child (false, q)) s.2).setChild (false, q)
        (st.child (false, p))).setDad (st.child (false, p)) q) := by
  obtain ⟨side, j⟩ := s
  subst hs
  unfold unlinkPredecessor
  extract_lets st1 st2 st3
  have h3 : st3.lsonAt p = st.child (false, p) := by
    rw [State.lsonAt_setLson, if_neg hne]
    rfl
  rw [h3]
  show (State.setLson (State.setDad (State.setRson st (st.dadAt q) (st.lsonAt q)) (st.lsonAt q) (st.dadAt q)) q
    (st.lsonAt p)).setDad _ q = _
  rw [hdad]
  rfl

section
variable {st : State} {s : Slot} {p q : TreeIdx}

theorem child_unlinkPredecessor (hdad : st.dadAt q = s.2) (hs : s.1 = true) (hne : p ≠ q) (s' : Slot) :
    (unlinkPredecessor st p q).child s' =
      if s' = (false, q) then st.child (false, p) else if s' = s then st.child (false, q) else st.child s' := by
  rw [unlinkPredecessor_eq hdad hs hne, State.child_setDad, State.child_setChild, State.child_setDad,
    State.child_setChild]

theorem dadAt_unlinkPredecessor (hdad : st.dadAt q = s.2) (hs : s.1 = true) (hne : p ≠ q) (j : TreeIdx) :
    (unlinkPredecessor st p q).dadAt j =
      if j = st.child (false, p) then q else if j = st.child (false, q) then s.2 else st.dadAt j := by
  rw [unlinkPredecessor_eq hdad hs hne, State.dadAt_setDad, State.dadAt_setChild, State.dadAt_setDad,
    State.dadAt_setChild]
end

/-- p's left subtree with its rightmost node q to be unlinked: q is below p0, p's left child. -/
structure UnlinkSite (st : State) (p : Pos) (ll : TreeShape) (p0 : Pos) (c : TreeContext) (ql : TreeShape) (q : Pos) :
    Prop where
  hold : st.HoldsAt (false, nodeIdx p) (.node ll p0 (c.plug (.node ql q .leaf)))
  nodup : (TreeShape.node ll p0 (c.plug (.node ql q .leaf))).nodes.Nodup
  outside : p ∉ (TreeShape.node ll p0 (c.plug (.node ql q .leaf))).nodes
  last : c.after = []
  side : (c.slot (true, nodeIdx p0)).1 = true

section
variable {st : State} {ll ql : TreeShape} {p p0 q : Pos} {c : TreeContext}

theorem mem_unlinkNodes {x : Pos} :
    x ∈ (TreeShape.node ll p0 (c.plug (.node ql q .leaf))).nodes ↔
      x = p0 ∨ x ∈ ll.nodes ∨ x ∈ c.nodes ∨ x = q ∨ x ∈ ql.nodes := by
  rw [TreeShape.mem_node, TreeContext.mem_plug, TreeShape.mem_node]
  simp [TreeShape.nodes]

/-- The five parts of the left subtree have no node in common. -/
structure UnlinkDisjoint (ll : TreeShape) (p0 : Pos) (c : TreeContext) (ql : TreeShape) (q : Pos) : Prop where
  top : p0 ∉ ll.nodes ∧ p0 ∉ c.nodes ∧ p0 ≠ q ∧ p0 ∉ ql.nodes
  left : ∀ x ∈ ll.nodes, x ∉ c.nodes ∧ x ≠ q ∧ x ∉ ql.nodes
  context : c.nodes.Nodup ∧ ∀ x ∈ c.nodes, x ≠ q ∧ x ∉ ql.nodes
  under : ql.nodes.Nodup ∧ q ∉ ql.nodes

theorem UnlinkSite.disjoint (h : UnlinkSite st p ll p0 c ql q) : UnlinkDisjoint ll p0 c ql q := by
  obtain ⟨-, hnright, hp0l, hp0r, hdisj⟩ := TreeShape.nodup_node.mp h.nodup
  obtain ⟨hnc, hnq, hdisjq⟩ := TreeContext.nodup_plug hnright
  obtain ⟨hnql, -, hqql, -, -⟩ := TreeShape.nodup_node.mp hnq
  have hmem : ∀ x, x ∈ (TreeShape.node ql q .leaf).nodes ↔ x = q ∨ x ∈ ql.nodes := fun x => by
    rw [TreeShape.mem_node]
    simp [TreeShape.nodes]
  simp only [TreeContext.mem_plug, hmem, not_or] at hp0r hdisj hdisjq
  exact ⟨⟨hp0l, hp0r⟩, hdisj, ⟨hnc, hdisjq⟩, hnql, hqql⟩

/-- The slot of q belongs to p0 or to a node of c. -/
theorem unlinkSlot_ne {x : Pos} (hx : x ≠ p0) (hxc : x ∉ c.nodes) (side : Bool) :
    (side, nodeIdx x) ≠ c.slot (true, nodeIdx p0) := by
  intro heq
  rcases c.slot_cases (true, nodeIdx p0) with ⟨-, hs⟩ | ⟨y, hy, hs⟩ <;> rw [← heq] at hs
  · exact hx (nodeIdx_inj.mp (congrArg Prod.snd hs))
  · exact hxc (nodeIdx_inj.mp hs ▸ hy)

theorem UnlinkSite.child (h : UnlinkSite st p ll p0 c ql q) (s : Slot) :
    (unlinkPredecessor st (nodeIdx p) (nodeIdx q)).child s =
      if s = (false, nodeIdx q) then nodeIdx p0
      else if s = c.slot (true, nodeIdx p0) then st.child (false, nodeIdx q) else st.child s := by
  obtain ⟨hlink, -, -, hright⟩ := State.holdsAt_node.mp h.hold
  obtain ⟨-, hdadq, -, -⟩ := State.holdsAt_node.mp hright.hole
  have hne : nodeIdx p ≠ nodeIdx q := fun heq =>
    h.outside (mem_unlinkNodes.mpr (.inr (.inr (.inr (.inl (nodeIdx_inj.mp heq))))))
  rw [child_unlinkPredecessor hdadq h.side hne, hlink]

theorem UnlinkSite.dadAt (h : UnlinkSite st p ll p0 c ql q) (j : TreeIdx) :
    (unlinkPredecessor st (nodeIdx p) (nodeIdx q)).dadAt j =
      if j = nodeIdx p0 then nodeIdx q
      else if j = st.child (false, nodeIdx q) then (c.slot (true, nodeIdx p0)).2 else st.dadAt j := by
  obtain ⟨hlink, -, -, hright⟩ := State.holdsAt_node.mp h.hold
  obtain ⟨-, hdadq, -, -⟩ := State.holdsAt_node.mp hright.hole
  have hne : nodeIdx p ≠ nodeIdx q := fun heq =>
    h.outside (mem_unlinkNodes.mpr (.inr (.inr (.inr (.inl (nodeIdx_inj.mp heq))))))
  rw [dadAt_unlinkPredecessor hdadq h.side hne, hlink]

theorem UnlinkSite.child_keep (h : UnlinkSite st p ll p0 c ql q) {s : Slot} (hq : s.2 ≠ nodeIdx q)
    (hs : s ≠ c.slot (true, nodeIdx p0)) :
    (unlinkPredecessor st (nodeIdx p) (nodeIdx q)).child s = st.child s := by
  rw [h.child, if_neg fun heq => hq (congrArg Prod.snd heq), if_neg hs]

theorem UnlinkSite.dad_keep (h : UnlinkSite st p ll p0 c ql q) {x : Pos} (hx : x ≠ p0) (hxq : x ∉ ql.nodes) :
    (unlinkPredecessor st (nodeIdx p) (nodeIdx q)).dadAt (nodeIdx x) = st.dadAt (nodeIdx x) := by
  obtain ⟨-, -, -, hright⟩ := State.holdsAt_node.mp h.hold
  obtain ⟨-, -, hql, -⟩ := State.holdsAt_node.mp hright.hole
  rw [h.dadAt, if_neg fun heq => hx (nodeIdx_inj.mp heq), if_neg (hql.link_ne hxq)]

/-- p0's left subtree stays. -/
theorem UnlinkSite.hold_left (h : UnlinkSite st p ll p0 c ql q) :
    (unlinkPredecessor st (nodeIdx p) (nodeIdx q)).HoldsAt (false, nodeIdx p0) ll := by
  obtain ⟨-, -, hll, -⟩ := State.holdsAt_node.mp h.hold
  obtain ⟨htop, hleft, -, -⟩ := h.disjoint
  have hslot : (false, nodeIdx p0) ≠ c.slot (true, nodeIdx p0) := fun heq => by
    have hside := h.side
    rw [← heq] at hside
    cases hside
  refine hll.congr (h.child_keep (fun heq => htop.2.2.1 (nodeIdx_inj.mp heq)) hslot) (fun x hx => ?_) fun x hx side => ?_
  · exact h.dad_keep (fun heq => htop.1 (heq ▸ hx)) (hleft x hx).2.2
  · exact h.child_keep (fun heq => (hleft x hx).2.1 (nodeIdx_inj.mp heq))
      (unlinkSlot_ne (fun heq : x = p0 => htop.1 (heq ▸ hx)) (hleft x hx).1 side)

/-- q's left subtree is in q's place, in p0's right subtree. -/
theorem UnlinkSite.hold_right (h : UnlinkSite st p ll p0 c ql q) :
    (unlinkPredecessor st (nodeIdx p) (nodeIdx q)).HoldsAt (true, nodeIdx p0) (c.plug ql) := by
  obtain ⟨-, -, -, hright⟩ := State.holdsAt_node.mp h.hold
  obtain ⟨-, -, hql, -⟩ := State.holdsAt_node.mp hright.hole
  obtain ⟨⟨-, hp0c, hp0q, hp0ql⟩, -, ⟨hnc, hcontext⟩, hnql, hqql⟩ := h.disjoint
  have hqne : ∀ {x : Pos}, x ≠ q → nodeIdx x ≠ nodeIdx q := fun hx heq => hx (nodeIdx_inj.mp heq)
  have hmoved : (unlinkPredecessor st (nodeIdx p) (nodeIdx q)).HoldsAt (c.slot (true, nodeIdx p0)) ql := by
    have hslot : c.slot (true, nodeIdx p0) ≠ (false, nodeIdx q) := fun heq => by
      have hside := h.side
      rw [heq] at hside
      cases hside
    have hne : ∀ x ∈ ql.nodes, x ≠ p0 ∧ x ∉ c.nodes ∧ x ≠ q := fun x hx =>
      ⟨fun heq => hp0ql (heq ▸ hx), fun hxc => (hcontext x hxc).2 hx, fun heq => hqql (heq ▸ hx)⟩
    refine hql.move hnql ?_ (fun _ => ?_) (fun x hx hlinkx => ?_) fun x hx side => ?_
    · rw [h.child, if_neg hslot, if_pos rfl]
    · rw [h.dadAt, if_neg (Ne.symm (hql.link_ne hp0ql)), if_pos rfl]
    · rw [h.dadAt, if_neg fun heq => (hne x hx).1 (nodeIdx_inj.mp heq), if_neg hlinkx]
    · exact h.child_keep (hqne (hne x hx).2.2) (unlinkSlot_ne (hne x hx).1 (hne x hx).2.1 side)
  exact hright.edit hnc (fun x hx heq => hp0c (nodeIdx_inj.mp heq ▸ hx))
    (fun x hx => h.dad_keep (fun heq => hp0c (heq ▸ hx)) (hcontext x hx).2) (h.child_keep (hqne hp0q))
    (fun x hx side => h.child_keep (hqne (hcontext x hx).1)) hmoved

/-- p's left child with a right child: its rightmost descendant is unlinked and put over the rest (R187, R189). -/
theorem UnlinkSite.predecessorReady (h : UnlinkSite st p ll p0 c ql q) :
    PredecessorReady st (unlinkPredecessor st (nodeIdx p) (nodeIdx q)) (.node ll p0 (c.plug (.node ql q .leaf))) q
      (.node ll p0 (c.plug ql)) := by
  refine ⟨keyByte_of_withoutTree (withoutTree_unlinkPredecessor _ _ _), fun s hs => ?_, fun x hx => ?_,
    State.holdsAt_node.mpr ⟨?_, ?_, h.hold_left, h.hold_right⟩, ?_⟩
  · simp only [mem_unlinkNodes] at hs
    refine h.child_keep (hs q (.inr (.inr (.inr (.inl rfl))))) fun heq => ?_
    rcases c.slot_cases (true, nodeIdx p0) with ⟨-, hslot⟩ | ⟨y, hy, hslot⟩ <;> rw [← heq] at hslot
    · exact hs p0 (.inl rfl) (congrArg Prod.snd hslot)
    · exact hs y (.inr (.inr (.inl hy))) hslot
  · simp only [mem_unlinkNodes, not_or] at hx
    obtain ⟨hxp0, -, -, -, hxql⟩ := hx
    exact h.dad_keep hxp0 hxql
  · rw [h.child, if_pos rfl]
  · rw [h.dadAt, if_pos rfl]
  · simp [TreeShape.nodes, c.nodes_plug, h.last]

end

/-! ## The deletion of a node with two children -/

/-- The predecessor takes p's right subtree, as writes (R187). -/
theorem takeRightSubtree_eq {st : State} {p q : TreeIdx} (hne : p ≠ q) :
    takeRightSubtree st p q = (st.setChild (true, q) (st.child (true, p))).setDad (st.child (true, p)) q := by
  unfold takeRightSubtree
  extract_lets st1
  have h1 : st1.rsonAt p = st.child (true, p) := by
    rw [State.rsonAt_setRson, if_neg hne]
    rfl
  rw [h1]
  rfl

/-- The predecessor q takes p's right subtree and p's place (R187, R189). -/
def crown (st : State) (p q : Pos) : State :=
  promoteChild (takeRightSubtree st (nodeIdx p) (nodeIdx q)) (nodeIdx p) (nodeIdx q)

section
variable {st t : State} {s : Slot} {l l' r : TreeShape} {p q : Pos}

/-- The predecessor q stands in the left subtree; p, the slot and the right subtree are outside it. -/
theorem PredecessorReady.outside (ht : PredecessorReady st t l q l') (h : NodeSite st s l p r) :
    q ∈ l.nodes ∧ q ∉ l'.nodes ∧ q ∉ r.nodes ∧ nodeIdx p ≠ nodeIdx q ∧ s.2 ≠ nodeIdx q := by
  obtain ⟨hnl, -, hpl, -, hdisj⟩ := TreeShape.nodup_node.mp h.nodup
  have hql : q ∈ l.nodes := by
    rw [ht.nodes]
    exact List.mem_append_right _ (List.mem_singleton_self q)
  refine ⟨hql, fun hq => ?_, hdisj q hql, fun heq => hpl (nodeIdx_inj.mp heq ▸ hql),
    h.outside q (TreeShape.mem_node.mpr (.inr (.inl hql)))⟩
  rw [ht.nodes, List.nodup_append] at hnl
  exact hnl.2.2 q hq q (List.mem_singleton_self q) rfl

/-- The cells of p, and of the slot, are as before the predecessor was unlinked. -/
theorem PredecessorReady.site (ht : PredecessorReady st t l q l') (h : NodeSite st s l p r) :
    t.child s = nodeIdx p ∧ t.dadAt (nodeIdx p) = s.2 ∧ (s.1 = false → t.child (true, s.2) ≠ nodeIdx p) ∧
      t.child (true, nodeIdx p) = st.child (true, nodeIdx p) := by
  obtain ⟨hlink, hdad, -, -⟩ := State.holdsAt_node.mp h.hold
  obtain ⟨-, -, hpl, -, -⟩ := TreeShape.nodup_node.mp h.nodup
  have hs : ∀ x ∈ l.nodes, s.2 ≠ nodeIdx x := fun x hx => h.outside x (TreeShape.mem_node.mpr (.inr (.inl hx)))
  refine ⟨by rw [ht.child s hs, hlink], by rw [ht.dad p hpl, hdad], ?_, ht.child _ fun x hx heq => ?_⟩
  · rw [ht.child (true, s.2) hs]
    exact h.other
  · exact hpl (nodeIdx_inj.mp heq ▸ hx)

theorem PredecessorReady.takeRightSubtree (ht : PredecessorReady st t l q l') (h : NodeSite st s l p r) :
    (takeRightSubtree t (nodeIdx p) (nodeIdx q)).child s = nodeIdx p ∧
      (takeRightSubtree t (nodeIdx p) (nodeIdx q)).dadAt (nodeIdx p) = s.2 ∧
      (s.1 = false → (takeRightSubtree t (nodeIdx p) (nodeIdx q)).child (true, s.2) ≠ nodeIdx p) := by
  obtain ⟨-, -, -, hright⟩ := State.holdsAt_node.mp h.hold
  obtain ⟨-, -, -, hpr, -⟩ := TreeShape.nodup_node.mp h.nodup
  obtain ⟨-, -, -, hne, hsq⟩ := ht.outside h
  obtain ⟨hlink, hdad, hother, htop⟩ := ht.site h
  have hs : ∀ side, (side, s.2) ≠ (true, nodeIdx q) := fun side heq => hsq (congrArg Prod.snd heq)
  refine ⟨?_, ?_, ?_⟩
  · rw [takeRightSubtree_eq hne, State.child_setDad, State.child_setChild, if_neg (hs s.1), hlink]
  · rw [takeRightSubtree_eq hne, State.dadAt_setDad, State.dadAt_setChild, htop, if_neg (hright.link_ne hpr), hdad]
  · rw [takeRightSubtree_eq hne, State.child_setDad, State.child_setChild, if_neg (hs true)]
    exact hother

theorem PredecessorReady.child_crown (ht : PredecessorReady st t l q l') (h : NodeSite st s l p r) (s' : Slot) :
    (crown t p q).child s' =
      if s' = s then nodeIdx q else if s' = (true, nodeIdx q) then st.child (true, nodeIdx p) else t.child s' := by
  obtain ⟨-, -, -, hne, -⟩ := ht.outside h
  obtain ⟨-, -, -, htop⟩ := ht.site h
  obtain ⟨hlink, hdad, hother⟩ := ht.takeRightSubtree h
  rw [crown, child_promoteChild hdad hlink hother hne, takeRightSubtree_eq hne, State.child_setDad,
    State.child_setChild, htop]

theorem PredecessorReady.dadAt_crown (ht : PredecessorReady st t l q l') (h : NodeSite st s l p r) (j : TreeIdx) :
    (crown t p q).dadAt j =
      if j = nodeIdx p then nilIdx else if j = nodeIdx q then s.2
        else if j = st.child (true, nodeIdx p) then nodeIdx q else t.dadAt j := by
  obtain ⟨-, -, -, hne, -⟩ := ht.outside h
  obtain ⟨-, -, -, htop⟩ := ht.site h
  obtain ⟨hlink, hdad, hother⟩ := ht.takeRightSubtree h
  rw [crown, dadAt_promoteChild hdad hlink hother hne, takeRightSubtree_eq hne, State.dadAt_setDad,
    State.dadAt_setChild, htop]

theorem PredecessorReady.child_keep (ht : PredecessorReady st t l q l') (h : NodeSite st s l p r) {s' : Slot}
    (hs : s' ≠ s) (hq : s'.2 ≠ nodeIdx q) : (crown t p q).child s' = t.child s' := by
  rw [ht.child_crown h, if_neg hs, if_neg fun heq => hq (congrArg Prod.snd heq)]

theorem PredecessorReady.dad_keep (ht : PredecessorReady st t l q l') (h : NodeSite st s l p r) {x : Pos} (hp : x ≠ p)
    (hq : x ≠ q) (hx : nodeIdx x ≠ st.child (true, nodeIdx p)) :
    (crown t p q).dadAt (nodeIdx x) = t.dadAt (nodeIdx x) := by
  rw [ht.dadAt_crown h, if_neg fun heq => hp (nodeIdx_inj.mp heq), if_neg fun heq => hq (nodeIdx_inj.mp heq), if_neg hx]

/-- q's left subtree is the rest of p's. -/
theorem PredecessorReady.hold_left (ht : PredecessorReady st t l q l') (h : NodeSite st s l p r) :
    (crown t p q).HoldsAt (false, nodeIdx q) l' := by
  obtain ⟨-, -, -, hright⟩ := State.holdsAt_node.mp h.hold
  obtain ⟨-, -, hpl, -, hdisj⟩ := TreeShape.nodup_node.mp h.nodup
  obtain ⟨-, hql', -, -, hsq⟩ := ht.outside h
  have hcell : ∀ x ∈ l'.nodes, x ∈ l.nodes ∧ x ≠ q := fun x hx =>
    ⟨by rw [ht.nodes]; exact List.mem_append_left _ hx, fun heq => hql' (heq ▸ hx)⟩
  refine ht.hold.congr ?_ (fun x hx => ?_) fun x hx side => ?_
  · rw [ht.child_crown h, if_neg fun heq => hsq (congrArg Prod.snd heq).symm, if_neg (by simp)]
  · obtain ⟨hxl, hxq⟩ := hcell x hx
    exact ht.dad_keep h (fun heq => hpl (heq ▸ hxl)) hxq (hright.link_ne (hdisj x hxl))
  · obtain ⟨hxl, hxq⟩ := hcell x hx
    exact ht.child_keep h (fun heq => h.outside x (TreeShape.mem_node.mpr (.inr (.inl hxl))) (congrArg Prod.snd heq).symm)
      fun heq => hxq (nodeIdx_inj.mp heq)

/-- q's right subtree is p's. -/
theorem PredecessorReady.hold_right (ht : PredecessorReady st t l q l') (h : NodeSite st s l p r) :
    (crown t p q).HoldsAt (true, nodeIdx q) r := by
  obtain ⟨-, -, -, hright⟩ := State.holdsAt_node.mp h.hold
  obtain ⟨-, hnr, -, hpr, hdisj⟩ := TreeShape.nodup_node.mp h.nodup
  obtain ⟨-, -, hqr, -, hsq⟩ := ht.outside h
  have hcell : ∀ x ∈ r.nodes, x ≠ p ∧ x ∉ l.nodes ∧ x ≠ q := fun x hx =>
    ⟨fun heq => hpr (heq ▸ hx), fun hxl => hdisj x hxl hx, fun heq => hqr (heq ▸ hx)⟩
  refine hright.move hnr ?_ (fun _ => ?_) (fun x hx hxr => ?_) fun x hx side => ?_
  · rw [ht.child_crown h, if_neg fun heq => hsq (congrArg Prod.snd heq).symm, if_pos rfl]
  · rw [ht.dadAt_crown h, if_neg (Ne.symm (hright.link_ne hpr)), if_neg (Ne.symm (hright.link_ne hqr)), if_pos rfl]
  · obtain ⟨hxp, hxl, hxq⟩ := hcell x hx
    rw [ht.dad_keep h hxp hxq hxr, ht.dad x hxl]
  · obtain ⟨-, hxl, hxq⟩ := hcell x hx
    rw [ht.child_keep h
      (fun heq => h.outside x (TreeShape.mem_node.mpr (.inr (.inr hx))) (congrArg Prod.snd heq).symm)
      fun heq => hxq (nodeIdx_inj.mp heq)]
    exact ht.child _ fun y hy heq => hxl (nodeIdx_inj.mp heq ▸ hy)

/-- With the predecessor ready, taking the right subtree and p's place ends the edit (R187, R189). -/
theorem PredecessorReady.edits (ht : PredecessorReady st t l q l') (h : NodeSite st s l p r) :
    EditFrame st (crown t p q) s (TreeShape.node l p r).nodes (TreeShape.node l' q r).nodes ∧
      (crown t p q).HoldsAt s (.node l' q r) := by
  obtain ⟨-, -, -, hright⟩ := State.holdsAt_node.mp h.hold
  obtain ⟨hql, -, -, hne, -⟩ := ht.outside h
  have hmem : ∀ x, x ∈ l.nodes ↔ x ∈ l'.nodes ∨ x = q := fun x => by
    rw [ht.nodes, List.mem_append, List.mem_singleton]
  refine ⟨⟨fun x i => ?_, fun s' hs' hnot => ?_, fun x hx hx' => ?_, fun x hx hx' => ?_⟩,
    State.holdsAt_node.mpr ⟨?_, ?_, ht.hold_left h, ht.hold_right h⟩⟩
  · rw [crown, keyByte_of_withoutTree (withoutTree_promoteChild _ _ _),
      keyByte_of_withoutTree (withoutTree_takeRightSubtree _ _ _), ht.bytes]
  · simp only [TreeShape.mem_node] at hnot
    rw [ht.child_keep h hs' (hnot q (.inr (.inl rfl))), ht.child s' fun x hx => hnot x (.inl (.inr (.inl hx)))]
  · simp only [TreeShape.mem_node, not_or] at hx
    obtain ⟨hxp, hxl, hxr⟩ := hx
    rw [ht.dad_keep h hxp (fun heq => hxl (heq ▸ hql)) (hright.link_ne hxr), ht.dad x hxl]
  · simp only [TreeShape.mem_node, hmem, not_or] at hx hx'
    have hxp : x = p := by tauto
    rw [hxp, ht.dadAt_crown h, if_pos rfl]
  · rw [ht.child_crown h, if_pos rfl]
  · rw [ht.dadAt_crown h, if_neg (Ne.symm hne), if_pos rfl]

end

/-- A node with two children is deleted (R187, R189). -/
theorem deleteTwoChildren_edits {st : State} {s : Slot} {l r : TreeShape} {p : Pos} (h : NodeSite st s l p r)
    (hl : st.child (false, nodeIdx p) ≠ nilIdx) :
    ∃ t u, deleteTwoChildren st (nodeIdx p) = .ok t ∧ u.nodes = l.nodes ++ r.nodes ∧
      EditFrame st t s (TreeShape.node l p r).nodes u.nodes ∧ t.HoldsAt s u := by
  obtain ⟨-, -, hleft, hright⟩ := State.holdsAt_node.mp h.hold
  obtain ⟨hnl, -, hpl, -, -⟩ := TreeShape.nodup_node.mp h.nodup
  cases l with
  | leaf => exact absurd hleft hl
  | node ll p0 r0 =>
    obtain ⟨hlink, -, -, hr0⟩ := State.holdsAt_node.mp hleft
    have hlson : st.lsonAt (nodeIdx p) = nodeIdx p0 := hlink
    unfold deleteTwoChildren
    rw [hlson]
    by_cases hnil : st.rsonAt (nodeIdx p0) = nilIdx
    · rw [if_pos hnil]
      obtain rfl := hr0.eq_leaf hnil
      obtain ⟨hframe, hold⟩ := (predecessorReady_of_top hleft).edits h
      exact ⟨_, .node ll p0 r, rfl, by simp [TreeShape.nodes], hframe, hold⟩
    · rw [if_neg hnil]
      have hr0leaf : r0 ≠ .leaf := fun hleaf => hnil (by subst hleaf; exact hr0)
      obtain ⟨-, hnr0, -, -, -⟩ := TreeShape.nodup_node.mp hnl
      have hfuel : r0.nodes.length ≤ Config.walkBound :=
        (length_le_of_nodup hnr0).trans (by unfold Config.walkBound; omega)
      obtain ⟨c, ql, q, hwalk, rfl, hafter, hside⟩ := rightmost_ends hr0 hr0leaf hfuel
      have hready := UnlinkSite.predecessorReady ⟨hleft, hnl, hpl, hafter, hside rfl⟩
      obtain ⟨hframe, hold⟩ := hready.edits h
      have hwalk' : rightmost st Config.walkBound (st.rsonAt (nodeIdx p0)) = .ok (nodeIdx q) := hwalk
      rw [hwalk']
      refine ⟨_, .node (.node ll p0 (c.plug ql)) q r, rfl, ?_, hframe, hold⟩
      rw [TreeShape.nodes, hready.nodes, List.append_assoc]
      rfl

/-! ## DeleteNode -/

/-- DeleteNode of a node edits its subtree (R187). -/
theorem deleteNode_edits {st : State} {s : Slot} {l r : TreeShape} {p : Pos} (h : NodeSite st s l p r)
    (hp : st.inTree p) :
    ∃ t u, deleteNode p st = .ok t ∧ u.nodes = l.nodes ++ r.nodes ∧
      EditFrame st t s (TreeShape.node l p r).nodes u.nodes ∧ t.HoldsAt s u := by
  obtain ⟨-, -, hleft, hright⟩ := State.holdsAt_node.mp h.hold
  unfold deleteNode
  simp only []
  rw [if_neg hp]
  by_cases hr : st.rsonAt (nodeIdx p) = nilIdx
  · rw [if_pos hr]
    obtain rfl := hright.eq_leaf hr
    have hnodes : l.nodes = l.nodes ++ TreeShape.leaf.nodes := (List.append_nil _).symm
    obtain ⟨hframe, hold⟩ := h.promote hleft hnodes
    exact ⟨_, l, rfl, hnodes, hframe, hold⟩
  · rw [if_neg hr]
    by_cases hl : st.lsonAt (nodeIdx p) = nilIdx
    · rw [if_pos hl]
      obtain rfl := hleft.eq_leaf hl
      obtain ⟨hframe, hold⟩ := h.promote hright rfl
      exact ⟨_, r, rfl, rfl, hframe, hold⟩
    · rw [if_neg hl]
      exact deleteTwoChildren_edits h hl

/-- The search trees without p (R191). -/
theorem State.SearchTrees.deleted {st t : State} {shape : Byte → TreeShape} {d : Byte} {c : TreeContext}
    {l r u : TreeShape} {p : Pos} (h : st.SearchTrees shape) (hd : shape d = c.plug (.node l p r))
    (hnodes : u.nodes = l.nodes ++ r.nodes)
    (hframe : EditFrame st t (c.slot (true, rootIdx d)) (TreeShape.node l p r).nodes u.nodes)
    (hold : t.HoldsAt (c.slot (true, rootIdx d)) u) : t.TreeInv ∧ ∀ x, t.inTree x ↔ st.inTree x ∧ x ≠ p := by
  have hn := h.nodup d
  have hsorted := h.sorted d
  rw [hd] at hn hsorted
  obtain ⟨-, -, hpl, hpr, -⟩ := TreeShape.nodup_node.mp (TreeContext.nodup_plug hn).2.1
  have hmem : ∀ x, x ∈ (TreeShape.node l p r).nodes ↔ x = p ∨ x ∈ u.nodes := fun x => by
    rw [TreeShape.mem_node, hnodes, List.mem_append]
  have hpu : p ∉ u.nodes := by
    rw [hnodes, List.mem_append, not_or]
    exact ⟨hpl, hpr⟩
  have hsub : (c.plug u).nodes.Sublist (c.plug (.node l p r)).nodes := by
    rw [c.nodes_plug, c.nodes_plug, hnodes, TreeShape.nodes]
    exact (((List.sublist_cons_self p r.nodes).append_left _).append_left _).append_right _
  have hin : ∀ x ∈ u.nodes, x ∈ (shape d).nodes := fun x hx => mem_of_place hd ((hmem x).mpr (.inr hx))
  have hedit : TreeEdit st t shape d c (.node l p r) u :=
    ⟨h, hd, hframe, hold, hsorted.sublist hsub, fun x hx => h.first d x (hin x hx)⟩
  refine ⟨State.treeInv_iff.mpr ⟨_, hedit.searchTrees⟩, fun x => ?_⟩
  rw [hedit.inTree_iff, hmem, not_or]
  constructor
  · rintro (⟨hx, hne, -⟩ | hx)
    · exact ⟨hx, hne⟩
    · exact ⟨h.inTree_of_mem (hin x hx), fun heq => hpu (heq ▸ hx)⟩
  · rintro ⟨hx, hne⟩
    by_cases hxu : x ∈ u.nodes
    · exact .inr hxu
    · exact .inl ⟨hx, hne, hxu⟩

/-- DeleteNode succeeds on a search tree, keeps it, and takes out p alone (R187, R188, R191). -/
theorem deleteNode_deleted {st : State} (p : Pos) (h : st.TreeInv) :
    ∃ t, deleteNode p st = .ok t ∧ t.TreeInv ∧ ∀ x, t.inTree x ↔ st.inTree x ∧ x ≠ p := by
  by_cases hp : st.inTree p
  · obtain ⟨shape, htrees⟩ := State.treeInv_iff.mp h
    obtain ⟨d, hpd⟩ := (htrees.members p).mp hp
    obtain ⟨c, l, r, hd⟩ := TreeShape.exists_context hpd
    obtain ⟨t, u, ht, hnodes, hframe, hold⟩ :=
      deleteNode_edits (nodeSite_of_plug (hd ▸ htrees.holds d) (hd ▸ htrees.nodup d)) hp
    exact ⟨t, ht, htrees.deleted hd hnodes hframe hold⟩
  · have hdad : st.dadAt (nodeIdx p) = nilIdx := not_not.mp hp
    refine ⟨st, ?_, h, fun x => ⟨fun hx => ⟨hx, fun heq => hp (heq ▸ hx)⟩, And.left⟩⟩
    unfold deleteNode
    exact if_pos hdad

end Sys2Proof.Machine

/-! # The search tree along a COMPRESS call (spec/42_match_tree.md R191, R192, spec/41_compress.md R144, R150, R151)

Seeding builds the tree from nothing.  A turn of the slide deletes S, 4078 positions behind R, before it writes there, so
no key of a node left in the tree changes; then the new R is in no tree and may be inserted.  So no turn faults. -/

namespace Sys2Proof.Machine

/-! ## States with the same tree -/

/-- Search trees depend on the links and on the keys of their nodes. -/
theorem State.TreeInv.congr {st t : State} (h : st.TreeInv) (hchild : ∀ s, t.child s = st.child s)
    (hdad : ∀ j, t.dadAt j = st.dadAt j)
    (hkey : ∀ p, st.inTree p → ∀ i, i < 18 → t.keyByte p i = st.keyByte p i) : t.TreeInv := by
  obtain ⟨shape, htrees⟩ := State.treeInv_iff.mp h
  have hbytes : ∀ c, ∀ p ∈ (shape c).nodes, t.key p = st.key p := fun c p hp =>
    List.map_congr_left fun i hi => hkey p (htrees.inTree_of_mem hp) i (List.mem_range.mp hi)
  refine State.treeInv_iff.mpr ⟨shape, fun c => ?_, fun c => ?_, fun c p hp => ?_, fun p => ?_⟩
  · exact (htrees.holds c).congr (hchild _) (fun q _ => hdad _) fun q _ side => hchild _
  · refine (htrees.sorted c).imp_of_mem fun hp hq hlt => ?_
    rw [hbytes c _ hp, hbytes c _ hq]
    exact hlt
  · rw [hkey p (htrees.inTree_of_mem hp) 0 (by omega)]
    exact htrees.first c p hp
  · rw [State.inTree, hdad]
    exact htrees.members p

/-- No link anywhere: every tree is empty (R181). -/
theorem treeInv_of_empty {st : State} (hr : st.rson = []) (hd : st.dad = []) : st.TreeInv := by
  refine State.treeInv_iff.mpr ⟨fun _ => .leaf, fun c => ?_, fun _ => List.Pairwise.nil, nofun, fun p => ?_⟩
  · show st.rsonAt (rootIdx c) = nilIdx
    rw [State.rsonAt, hr]
    rfl
  · have hnil : st.dadAt (nodeIdx p) = nilIdx := by
      rw [State.dadAt, hd]
      rfl
    simp [State.inTree, hnil, TreeShape.nodes]

theorem not_inTree_of_empty {st : State} (hd : st.dad = []) (p : Pos) : ¬ st.inTree p := by
  rw [State.inTree, State.dadAt, hd]
  exact not_not.mpr rfl

/-! ## The search at the cursor -/

/-- A search tree over the window, and a valid search result (R191, R192): `State.SearchInv` where a token is chosen. -/
structure State.Searched (st : State) : Prop where
  tree : st.TreeInv
  nodes : st.NodesInWindow
  result : st.ResultValid

/-- InsertNode at R, over nodes behind R, finds a valid result (R191, R192). -/
theorem insertNode_searched {st : State} (h : st.TreeInv)
    (hbehind : ∀ q, st.inTree q → 1 ≤ (st.r - q).toNat ∧ (st.r - q).toNat ≤ 4078) :
    ∃ t, insertNode st.r st = .ok t ∧ t.Searched := by
  have hself : (st.r - st.r).toNat = 0 := by simp
  have hr : ¬ st.inTree st.r := fun hin => by
    have := (hbehind _ hin).1
    omega
  obtain ⟨t, ht, hinserted⟩ := insertNode_inserted h hr
  have e := eq_of_withoutSearch (insertNode_frame ht).1
  have hcursor : t.r = st.r := insertNode_r ht
  have hbytes : ∀ p i, t.keyByte p i = st.keyByte p i := fun p i => by rw [e]; rfl
  refine ⟨t, ht, hinserted.tree, fun q hq => ?_, fun hpos => ?_⟩
  · rw [hcursor]
    rcases hinserted.old q hq with rfl | hold
    · omega
    · exact (hbehind q hold).2
  · obtain ⟨-, hfound⟩ := hinserted.found
    obtain ⟨hin, heq⟩ := hfound hpos
    obtain ⟨h1, h2⟩ := hbehind _ hin
    rw [hcursor]
    exact ⟨h1, h2, fun k hk => by rw [hbytes, hbytes, heq k hk]⟩

/-! ## Seeding -/

/-- Insertions of new, different positions into a search tree (R144). -/
theorem insertAll_inserts {positions : List Pos} {st : State} (h : st.TreeInv) (hn : positions.Nodup)
    (hnew : ∀ p ∈ positions, ¬ st.inTree p) :
    ∃ t, insertAll positions st = .ok t ∧ t.TreeInv ∧ ∀ p, t.inTree p → p ∈ positions ∨ st.inTree p := by
  induction positions generalizing st with
  | nil => exact ⟨st, rfl, h, fun p hp => .inr hp⟩
  | cons r positions ih =>
    obtain ⟨hr, hn⟩ := List.nodup_cons.mp hn
    obtain ⟨hrnew, hnew⟩ := List.forall_mem_cons.mp hnew
    obtain ⟨s, hs, hinserted⟩ := insertNode_inserted h hrnew
    obtain ⟨t, ht, htree, hold⟩ := ih hinserted.tree hn fun p hp hin =>
      (hinserted.old p hin).elim (fun heq => hr (heq ▸ hp)) (hnew p hp)
    refine ⟨t, by rw [insertAll_cons, hs]; exact ht, htree, fun p hp => ?_⟩
    rcases hold p hp with hp | hp
    · exact .inl (List.mem_cons_of_mem r hp)
    · exact (hinserted.old p hp).imp (fun heq => List.mem_cons.mpr (.inl heq)) id

theorem mem_seedPositions {r p : Pos} : p ∈ seedPositions r 1 18 ↔ ∃ j, 1 ≤ j ∧ j ≤ 18 ∧ p = r - BitVec.ofNat 12 j := by
  simp only [seedPositions, List.mem_map, List.mem_range'_1]
  constructor
  · rintro ⟨j, hj, rfl⟩
    exact ⟨j, by omega, by omega, rfl⟩
  · rintro ⟨j, h1, h18, rfl⟩
    exact ⟨j, by omega, rfl⟩

theorem sub_sub_ofNat (r : Pos) {j : Nat} (hj : j < 4096) : (r - (r - BitVec.ofNat 12 j)).toNat = j := by
  rw [sub_sub_cancel, BitVec.toNat_ofNat]
  omega

theorem nodup_seedPositions (r : Pos) : (seedPositions r 1 18).Nodup := by
  refine (List.nodup_range' (s := 1) (n := 18)).map_on fun a ha b hb heq => ?_
  rw [List.mem_range'_1] at ha hb
  have := congrArg (fun p => (r - p).toNat) heq
  simp only [sub_sub_ofNat r (show a < 4096 by omega), sub_sub_ofNat r (show b < 4096 by omega)] at this
  exact this

/-- Seeding from empty trees never faults and leaves a search tree over the window (R144, R181). -/
theorem encoderSeed_searched {st : State} (hr : st.rson = []) (hd : st.dad = []) :
    ∃ t, st.encoderSeed = .ok t ∧ t.Searched := by
  obtain ⟨s, hs, htree, hold⟩ := insertAll_inserts (treeInv_of_empty hr hd) (nodup_seedPositions st.r)
    fun p _ => not_inTree_of_empty hd p
  obtain ⟨t, ht, hsearched⟩ := insertNode_searched htree fun q hq => by
    obtain ⟨j, h1, h18, rfl⟩ := mem_seedPositions.mp ((hold q hq).resolve_right (not_inTree_of_empty hd q))
    rw [insertAll_r hs, sub_sub_ofNat _ (by omega)]
    omega
  rw [insertAll_r hs] at ht
  refine ⟨{ t with seq := .eIter }, ?_, hsearched.tree.congr (fun _ => rfl) (fun _ => rfl) (fun _ _ _ _ => rfl),
    hsearched.nodes, hsearched.result⟩
  rw [encoderSeed_eq_insertAll, insertAll_append, hs]
  show (insertAll [st.r] s).map _ = _
  rw [insertAll_cons, ht]
  rfl

/-! ## A turn of the slide -/

/-- The nodes that the deletion of S leaves lie up to 4077 positions behind R (R192). -/
theorem behind_of_ne_s {r q : Pos} (hwindow : (r - q).toNat ≤ 4078) (hq : q ≠ r + BitVec.ofNat 12 18) :
    (r - q).toNat ≤ 4077 := by
  have hne : (r - q).toNat ≠ 4078 := fun heq => hq (by bv_omega)
  omega

theorem advanced_behind {r q : Pos} (h : (r - q).toNat ≤ 4077) :
    1 ≤ (r + 1#12 - q).toNat ∧ (r + 1#12 - q).toNat ≤ 4078 := by
  bv_omega

/-- The write at S touches no key byte of a node left in the tree (R150, R405). -/
theorem keyByte_ne_s {r q : Pos} {i : Nat} (h : (r - q).toNat ≤ 4077) (hi : i < 18) :
    q.toNat + i ≠ (r + BitVec.ofNat 12 18).toNat ∧ q.toNat + i ≠ (r + BitVec.ofNat 12 18).toNat + 4096 := by
  bv_omega

/-- A turn, once its deletion is done: the new cursor is inserted over the nodes that are left, whose keys the turn's
write has not changed (R150, R151, R405 to R407). -/
theorem insertNode_after_delete {s y : State} (htree : s.TreeInv) (hnodes : ∀ q, s.inTree q → (s.r - q).toNat ≤ 4077)
    (hchild : ∀ c, y.child c = s.child c) (hdad : ∀ j, y.dadAt j = s.dadAt j) (hr : y.r = s.r + 1#12)
    (hring : ∀ a, a ≠ (s.r + BitVec.ofNat 12 18).toNat → a ≠ (s.r + BitVec.ofNat 12 18).toNat + 4096 →
      y.ringRead a = s.ringRead a) : ∃ t, insertNode y.r y = .ok t ∧ t.Searched := by
  refine insertNode_searched (htree.congr hchild hdad fun q hq i hi => ?_) fun q hq => ?_
  · obtain ⟨hne, hmirror⟩ := keyByte_ne_s (hnodes q hq) hi
    exact hring _ hne hmirror
  · have hin : s.inTree q := by
      rw [State.inTree, ← hdad]
      exact hq
    rw [hr]
    exact advanced_behind (hnodes q hin)

/-- The deletion of a turn: S leaves, and what is left lies up to 4077 positions behind R. -/
theorem deleteNode_s {st : State} (hcursor : st.s = st.r + BitVec.ofNat 12 18) (htree : st.TreeInv)
    (hnodes : st.NodesInWindow) :
    ∃ s, deleteNode st.s st = .ok s ∧ withoutTree s = withoutTree st ∧ s.TreeInv ∧
      ∀ q, s.inTree q → (st.r - q).toNat ≤ 4077 := by
  obtain ⟨s, hs, hkeep, hmem⟩ := deleteNode_deleted st.s htree
  refine ⟨s, hs, (deleteNode_frame hs).1, hkeep, fun q hq => ?_⟩
  obtain ⟨hin, hne⟩ := (hmem q).mp hq
  exact behind_of_ne_s (hnodes q hin) (hcursor ▸ hne)

theorem slideByte_searched (c : Byte) {st : State} (hcursor : st.s = st.r + BitVec.ofNat 12 18) (htree : st.TreeInv)
    (hnodes : st.NodesInWindow) : ∃ t, slideByte c st = .ok t ∧ t.Searched := by
  obtain ⟨s, hs, hframe, hkeep, hbehind⟩ := deleteNode_s hcursor htree hnodes
  have e := eq_of_withoutTree hframe
  have hsr : s.r = st.r := by rw [e]
  have hss : s.s = st.s := by rw [e]
  obtain ⟨t, ht, hsearched⟩ := insertNode_after_delete (y := (s.mirrorWrite c).advanceWindow) hkeep
    (by rw [hsr]; exact hbehind) (fun _ => rfl) (fun _ => rfl) rfl fun a hne hmirror => by
      show (s.mirrorWrite c).ringRead a = s.ringRead a
      rw [State.ringRead_mirrorWrite, hss, hcursor, ← hsr, if_neg]
      rintro (heq | ⟨-, heq⟩)
      · exact hne heq
      · exact hmirror heq
  refine ⟨{ t with i := t.i + 1#5 }, ?_, hsearched.tree.congr (fun _ => rfl) (fun _ => rfl) (fun _ _ _ _ => rfl),
    hsearched.nodes, hsearched.result⟩
  simp only [slideByte, hs, ht]

theorem tailByte_searched {st : State} (hcursor : st.s = st.r + BitVec.ofNat 12 18) (htree : st.TreeInv)
    (hnodes : st.NodesInWindow) : ∃ t, tailByte st = .ok t ∧ (t.len ≠ 0#5 → t.Searched) := by
  have hcount : State.TreeInv { st with i := st.i + 1#5 } :=
    htree.congr (fun _ => rfl) (fun _ => rfl) fun _ _ _ _ => rfl
  obtain ⟨s, hs, hframe, hkeep, hbehind⟩ := deleteNode_s (st := { st with i := st.i + 1#5 }) hcursor hcount hnodes
  have e := eq_of_withoutTree hframe
  have hsr : s.r = st.r := by rw [e]
  by_cases h0 : s.len - 1#5 = 0#5
  · refine ⟨{ s.advanceWindow with len := s.len - 1#5 }, ?_, fun hne => absurd h0 hne⟩
    simp only [tailByte, hs]
    exact if_pos h0
  · obtain ⟨t, ht, hsearched⟩ := insertNode_after_delete (y := { s.advanceWindow with len := s.len - 1#5 }) hkeep
      (by rw [hsr]; exact hbehind) (fun _ => rfl) (fun _ => rfl) rfl fun _ _ _ => rfl
    refine ⟨t, ?_, fun _ => hsearched⟩
    simp only [tailByte, hs]
    exact (if_neg h0).trans ht

/-- A turn of the slide never faults, and leaves a search over the window it has moved, until the lookahead is empty
(R150, R151). -/
theorem slideTurn_searched {st : State} (hcursor : st.s = st.r + BitVec.ofNat 12 18) (htree : st.TreeInv)
    (hnodes : st.NodesInWindow) : ∃ t, slideTurn st = .ok t ∧ (t.len ≠ 0#5 → t.Searched) := by
  cases hin : st.input[st.ip]? with
  | some c =>
    have htree' : (st.advance 1).TreeInv := htree.congr (fun _ => rfl) (fun _ => rfl) fun _ _ _ _ => rfl
    obtain ⟨t, ht, hsearched⟩ := slideByte_searched c (st := st.advance 1) hcursor htree' hnodes
    exact ⟨t, by rw [slideTurn_of_input hin]; exact ht, fun _ => hsearched⟩
  | none =>
    obtain ⟨t, ht, hsearched⟩ := tailByte_searched hcursor htree hnodes
    exact ⟨t, by rw [slideTurn_of_end hin]; exact ht, hsearched⟩

/-- Turns within the lookahead never fault (R150, R151). -/
theorem slideTurns_searched {n : Nat} {st : State} (hw : st.WindowInv) (htree : st.TreeInv) (hnodes : st.NodesInWindow)
    (hpos : 0 < n) (hn : n ≤ st.len.toNat) :
    ∃ t, slideTurns n st = .ok t ∧ (t.len ≠ 0#5 → t.Searched) := by
  induction n with
  | zero => omega
  | succ n ih =>
    have hstart : ∃ s, slideTurns n st = .ok s ∧ s.TreeInv ∧ s.NodesInWindow := by
      by_cases h0 : n = 0
      · subst h0
        exact ⟨st, rfl, htree, hnodes⟩
      · obtain ⟨s, hs, hsearched⟩ := ih (by omega) (by omega)
        obtain ⟨-, hmin, hip, -⟩ := hw.lookahead
        have hslid := slideTurns_slid (by omega) (by omega) (by omega) hs
        obtain ⟨htree', hnodes', -⟩ := hsearched (hslid.len_ne_zero (by omega))
        exact ⟨s, hs, htree', hnodes'⟩
    obtain ⟨s, hs, htree', hnodes'⟩ := hstart
    obtain ⟨t, ht, hsearched⟩ := slideTurn_searched (hw.slideTurns (by omega) hs).s_eq htree' hnodes'
    exact ⟨t, by rw [slideTurns_succ, hs]; exact ht, hsearched⟩

/-- An iteration never faults, and leaves a valid search while there is lookahead (R141, R191, R192). -/
theorem encoderIter_searched {st : State} (hw : st.WindowInv) (hg : st.GroupOpen) (hlen : st.len ≠ 0#5)
    (h : st.Searched) : ∃ t, st.encoderIter = .ok t ∧ (t.len ≠ 0#5 → t.Searched) := by
  obtain ⟨tok, htok, hemitted, heq⟩ := encoderIter_token hw hg hlen
  obtain ⟨hpos, -, hle⟩ := State.tokenLen_bounds hw.matchLen hlen
  have e := slideStart_eq htok st.tokenLen
  have htree : (slideStart tok st.tokenLen).TreeInv := by
    rw [e]
    exact h.tree.congr (fun _ => rfl) (fun _ => rfl) fun _ _ _ _ => rfl
  have hnodes : (slideStart tok st.tokenLen).NodesInWindow := by
    rw [e]
    exact h.nodes
  obtain ⟨u, hu, hsearched⟩ := slideTurns_searched (hemitted.windowInv htok hw hlen) htree hnodes hpos (by rw [e]; exact hle)
  refine ⟨u.loopTest, by rw [heq, hu]; rfl, ?_⟩
  rw [loopTest_eq]
  intro hne
  obtain ⟨htree', hnodes', hresult⟩ := hsearched hne
  exact ⟨htree'.congr (fun _ => rfl) (fun _ => rfl) (fun _ _ _ _ => rfl), hnodes', hresult⟩

end Sys2Proof.Machine

/-! # The window and the text (spec/41_compress.md R150, R156, R157, spec/40_decompress.md R103, R104)

The text of a call is the primed cells, then the input: 4078 spaces and b.  Index a of the text belongs at window position
a modulo 4096, in the encoder and in the decoder.  A token reproduces the text at R if a decoder whose window holds the
text behind R emits the next bytes of b for it. -/

namespace Sys2Proof.Machine

/-! ## The text -/

/-- What the window holds over time: the primed cells and then the input (R66, R142). -/
def text (b : List Byte) : List Byte := List.replicate 4078 0x20#8 ++ b

theorem text_input (b : List Byte) (e : Nat) : (text b)[4078 + e]? = b[e]? := by
  rw [text, List.getElem?_append_right (by rw [List.length_replicate]; omega), List.length_replicate,
    Nat.add_sub_cancel_left]

theorem text_primed (b : List Byte) {a : Nat} (h : a < 4078) : (text b)[a]? = some 0x20#8 := by
  rw [text, List.getElem?_append_left (by rwa [List.length_replicate]), List.getElem?_replicate, if_pos h]

/-- The window position of an index of the text. -/
def textPos (a : Nat) : Pos := BitVec.ofNat 12 a

theorem textPos_add (a n : Nat) : textPos a + BitVec.ofNat 12 n = textPos (a + n) := (BitVec.ofNat_add a n).symm

theorem eq_textPos_sub {n : Nat} {p : Pos} (h : (textPos n - p).toNat ≤ n) :
    p = textPos (n - (textPos n - p).toNat) := by
  have hadd := textPos_add (n - (textPos n - p).toNat) (textPos n - p).toNat
  rw [Nat.sub_add_cancel h, BitVec.ofNat_toNat, BitVec.setWidth_eq] at hadd
  calc p = textPos n - (textPos n - p) := (sub_sub_cancel _ _).symm
    _ = textPos (n - (textPos n - p).toNat) := by rw [sub_eq_iff_eq_add, hadd]

theorem toNat_textPos (a : Nat) : (textPos a).toNat = a % 4096 := BitVec.toNat_ofNat a 12

theorem textPos_inj {a c : Nat} (h : textPos a = textPos c) (hle : a ≤ c) (hlt : c < a + 4096) : a = c := by
  have := congrArg BitVec.toNat h
  rw [toNat_textPos, toNat_textPos] at this
  omega

/-- The window holds the text from index e up to index n. -/
def State.HoldsText (st : State) (b : List Byte) (e n : Nat) : Prop :=
  ∀ a, e ≤ a → a < n → (text b)[a]? = some (st.windowByte (textPos a))

/-- A window with its cells at the call start holds the primed text (R66, R402). -/
theorem holdsText_of_nil {st : State} (b : List Byte) (h : st.ring = []) : st.HoldsText b 0 4078 := by
  intro a _ ha
  rw [text_primed b ha, State.windowByte, State.ringRead_of_nil h, toNat_textPos, ringDefault, Config.primedCells,
    if_pos (by omega), Config.primeByte]

/-- The window takes the text's next byte at that byte's position: it holds the text up to there, and no longer the byte
4096 indices behind. -/
theorem State.HoldsText.write {st t : State} {b : List Byte} {e n : Nat} {c : Byte} (h : st.HoldsText b e n)
    (hc : (text b)[n]? = some c) (hn : n ≤ e + 4096)
    (hw : ∀ p, t.windowByte p = if p = textPos n then c else st.windowByte p) : t.HoldsText b (e + 1) (n + 1) := by
  intro a he ha
  rw [hw]
  by_cases han : a = n
  · rw [han, if_pos rfl, hc]
  · rw [if_neg fun heq => han (textPos_inj heq (by omega) (by omega))]
    exact h a (by omega) (by omega)

theorem State.HoldsText.mono {st : State} {b : List Byte} {e n e' n' : Nat} (h : st.HoldsText b e n) (he : e ≤ e')
    (hn : n' ≤ n) : st.HoldsText b e' n' := fun a ha ha' => h a (by omega) (by omega)

theorem State.HoldsText.congr {st t : State} {b : List Byte} {e n : Nat} (h : st.HoldsText b e n)
    (hw : ∀ p, t.windowByte p = st.windowByte p) : t.HoldsText b e n := fun a ha ha' => by rw [hw, h a ha ha']

/-! ## Tokens that reproduce the input -/

/-- The token stands for the input from index e on: a literal for the byte there, a match for as many bytes as it is
long, which the text has at an earlier index that is still in the window (R157). -/
def Reproduces (b : List Byte) (e : Nat) : Instr → Prop
  | .lit d => b[e]? = some d
  | .matchTok pos len => ∃ a, pos = textPos a ∧ e ≤ a ∧ a < 4078 + e ∧
      ∀ k, k < len → ∃ c, b[e + k]? = some c ∧ (text b)[a + k]? = some c
  | .ctrl _ | .cmdCompress _ | .cmdDecompress _ => False

/-- The tokens stand for the input from index e on, one after the other. -/
def ReproducesAll (b : List Byte) : Nat → List Instr → Prop
  | _, [] => True
  | e, tok :: tokens => Reproduces b e tok ∧ ReproducesAll b (e + span tok) tokens

theorem spans_cons (tok : Instr) (tokens : List Instr) : spans (tok :: tokens) = span tok + spans tokens := by
  simp [spans]

theorem reproducesAll_append {b : List Byte} {e : Nat} {tokens tokens' : List Instr} :
    ReproducesAll b e (tokens ++ tokens') ↔
      ReproducesAll b e tokens ∧ ReproducesAll b (e + spans tokens) tokens' := by
  induction tokens generalizing e with
  | nil => simp [ReproducesAll, spans]
  | cons tok tokens ih =>
    rw [List.cons_append, ReproducesAll, ReproducesAll, ih, and_assoc, spans_cons, Nat.add_assoc]

/-! ## The encoder's window -/

/-- The encoder's window along a call: R is at the text's next index to encode, and the window holds the text from 4078
indices behind R to the end of the lookahead; mirror cells agree with the cells that the slide has written. -/
structure State.EncoderText (st : State) : Prop where
  cursor : st.r = textPos (4078 + st.encoded)
  holds : st.HoldsText st.input st.encoded (4078 + st.ip)
  mirror : ∀ k, k < 17 → 18 + k < st.ip → st.ringRead (4096 + k) = st.ringRead k

/-- The load leaves the primed text and the first 18 bytes of the input (R142, R402). -/
theorem encoderLoad_encoderText {st : State} (h : st.AtCallStart) : st.encoderLoad.EncoderText := by
  obtain ⟨hip0, -, hr, -, -, -, -, -, -, -, hring, -⟩ := h
  obtain ⟨hip, hload⟩ := encoderLoad_loadedFrom hip0
  have e := encoderLoad_frame st
  have henc : st.encoderLoad.encoded = 0 := by rw [State.encoded, hload.len, Nat.sub_self]
  have hinput : st.encoderLoad.input = st.input := by rw [e]
  have hcursor : st.encoderLoad.r = st.r := by rw [e]
  refine ⟨?_, fun a _ ha => ?_, fun k hk hlt => by omega⟩
  · rw [hcursor, hr, henc]
    rfl
  · have haddr : (textPos a).toNat = a := by
      rw [toNat_textPos]
      omega
    rw [State.windowByte, haddr, hload.ring, hinput, hip0]
    by_cases hprimed : a < 4078
    · rw [if_neg (by omega), State.ringRead_of_nil hring, text_primed _ hprimed, ringDefault, Config.primedCells,
        if_pos hprimed, Config.primeByte]
    · obtain ⟨k, rfl⟩ : ∃ k, a = 4078 + k := ⟨a - 4078, by omega⟩
      rw [if_pos (by omega), text_input, Nat.add_sub_cancel_left, List.getD_eq_getElem?_getD,
        List.getElem?_eq_getElem (by omega)]
      rfl

/-- Only the window, IP, LEN and R are looked at. -/
theorem State.EncoderText.congr {st t : State} (h : st.EncoderText) (hr : t.r = st.r) (hp : t.params = st.params)
    (hring : t.ring = st.ring) (hip : t.ip = st.ip) (hlen : t.len = st.len) (hin : t.input = st.input) :
    t.EncoderText := by
  have henc : t.encoded = st.encoded := by rw [State.encoded, State.encoded, hip, hlen]
  refine ⟨by rw [hr, henc, h.cursor], ?_, fun k hk hlt => ?_⟩
  · rw [hin, henc, hip]
    exact h.holds.congr fun p => State.ringRead_congr hp hring _
  · rw [State.ringRead_congr hp hring, State.ringRead_congr hp hring]
    exact h.mirror k hk (hip ▸ hlt)

/-- A turn of the slide moves the window along the text (R150, R151). -/
theorem SlideTurn.encoderText {st t : State} (h : SlideTurn st t) (hw : st.WindowInv) (hlen : st.len ≠ 0#5)
    (ht : st.EncoderText) : t.EncoderText := by
  have henc := h.encoded hw.lookahead hlen
  have hcursor : t.r = textPos (4078 + t.encoded) := by
    rw [h.r, ht.cursor, henc]
    exact textPos_add _ 1
  rcases h.moves with ⟨c, hc, hip, -, hring⟩ | ⟨-, hip, -, hring⟩
  · obtain ⟨hlt, -⟩ := List.getElem?_eq_some_iff.mp hc
    have hfull := hw.lookahead.len_of_input hlt
    have hle := hw.lookahead.1
    have hends : st.encoded + 18 = st.ip := by
      rw [State.encoded]
      omega
    have hs : st.s = textPos (4078 + st.ip) := by
      rw [hw.s_eq, ht.cursor, textPos_add, ← hends]
      rfl
    refine ⟨hcursor, ?_, fun k hk hkip => ?_⟩
    · rw [h.input, henc, hip]
      exact ht.holds.write (by rw [text_input, hc]) (by omega) fun p => by
        rw [windowByte_of_mirroredRing h.params hring, hs]
    · rw [ringRead_of_mirroredRing h.params hring, ringRead_of_mirroredRing h.params hring]
      have hsnat : st.s.toNat = (4078 + st.ip) % 4096 := by rw [hs, toNat_textPos]
      by_cases hsk : st.s.toNat = k
      · rw [if_pos (by omega), if_pos (by omega)]
      · rw [if_neg (by omega), if_neg (by omega)]
        exact ht.mirror k hk (by omega)
  · have hcell : ∀ a, t.ringRead a = st.ringRead a := fun a => State.ringRead_congr h.params hring a
    refine ⟨hcursor, ?_, fun k hk hkip => ?_⟩
    · rw [h.input, henc, hip]
      exact (ht.holds.congr fun p => hcell _).mono (Nat.le_succ _) (Nat.le_refl _)
    · rw [hcell, hcell]
      exact ht.mirror k hk (hip ▸ hkip)

/-- Turns within the lookahead move the window along the text. -/
theorem slideTurns_encoderText {n : Nat} {st t : State} (hw : st.WindowInv) (ht : st.EncoderText)
    (hn : n ≤ st.len.toNat) (h : slideTurns n st = .ok t) : t.EncoderText := by
  obtain ⟨hle, hmin, hip, -⟩ := hw.lookahead
  have hkeep : Slid n st t ∧ t.WindowInv ∧ t.EncoderText := by
    refine slideTurns_induct (fun j s => Slid j st s ∧ s.WindowInv ∧ s.EncoderText) ⟨.refl (by omega), hw, ht⟩ ?_ h
    rintro j s u hj ⟨hs, hws, hts⟩ hu
    have hturn := slideTurn_of_ok hu
    have hne := hs.len_ne_zero (show j < st.len.toNat by omega)
    exact ⟨hs.turn hturn (by omega) (by omega) (by omega), hturn.windowInv hws hne, hturn.encoderText hws hne hts⟩
  exact hkeep.2.2

/-! ## The token of an iteration -/

/-- The cells of a key byte and of its window position hold the same byte, where the text reaches (R63, R161). -/
theorem State.EncoderText.keyByte_eq {st : State} (h : st.EncoderText) {a k : Nat} (hk : k < 18)
    (hreach : a + k < 4078 + st.ip) : st.keyByte (textPos a) k = st.windowByte (textPos (a + k)) := by
  rw [State.keyByte, State.windowByte, toNat_textPos, toNat_textPos]
  by_cases hwrap : a % 4096 + k < 4096
  · congr 1
    omega
  · have hcell : a % 4096 + k = 4096 + (a + k) % 4096 := by omega
    rw [hcell]
    exact h.mirror _ (by omega) (by omega)

/-- The token that an iteration chooses stands for the input at R (R145 to R148, R157). -/
theorem token_reproduces {st : State} (hw : st.WindowInv) (hlen : st.len ≠ 0#5) (ht : st.EncoderText)
    (hresult : st.ResultValid) : Reproduces st.input st.encoded st.clampMatch.token := by
  obtain ⟨hle, -, -, -⟩ := hw.lookahead
  have hpos : st.len.toNat ≠ 0 := fun h0 => hlen (BitVec.eq_of_toNat_eq h0)
  have hends : st.encoded + st.len.toNat = st.ip := by
    rw [State.encoded]
    omega
  have hm : st.clampMatch.matchLen.toNat = min st.matchLen.toNat st.len.toNat := by
    rw [clampMatch_eq]
    exact toNat_clampedLen st
  have h18 := hw.matchLen
  unfold State.token
  by_cases hle2 : st.clampMatch.matchLen.toNat ≤ 2
  · rw [if_pos hle2]
    show st.input[st.encoded]? = some (st.clampMatch.windowByte st.clampMatch.r)
    rw [clampMatch_eq]
    show st.input[st.encoded]? = some (st.windowByte st.r)
    rw [ht.cursor, ← text_input]
    exact ht.holds _ (by omega) (by omega)
  · rw [if_neg hle2, hm]
    have hposs : st.clampMatch.matchPos = st.matchPos := by rw [clampMatch_eq]
    rw [hposs]
    obtain ⟨hnear, hfar, hbytes⟩ := hresult (by omega)
    rw [ht.cursor] at hnear hfar
    have hmatch := eq_textPos_sub (n := 4078 + st.encoded) (p := st.matchPos) (by omega)
    generalize (textPos (4078 + st.encoded) - st.matchPos).toNat = dist at hmatch hnear hfar
    refine ⟨_, hmatch, by omega, by omega, fun k hk => ⟨st.windowByte (textPos (4078 + st.encoded + k)), ?_, ?_⟩⟩
    · rw [← text_input, ← Nat.add_assoc]
      exact ht.holds _ (by omega) (by omega)
    · rw [ht.holds _ (by omega) (by omega), ← ht.keyByte_eq (by omega) (by omega), ← hmatch, hbytes k (by omega),
        ht.cursor, ht.keyByte_eq (by omega) (by omega)]

end Sys2Proof.Machine

/-! # COMPRESS reaches DONE with tokens that stand for its input (spec/41_compress.md R141, R153, R156)

Along the iterations the encoder keeps its window on the text, a valid search and the tokens it has emitted; each
iteration takes it further, so the call ends, with tokens for the whole input. -/

namespace Sys2Proof.Machine

/-- The encoder between two iterations, on input b: what stands in the window, in the trees and in the tokens emitted. -/
structure Coding (b : List Byte) (st : State) : Prop where
  host : st.host = []
  input : st.input = b
  window : st.WindowInv
  group : st.GroupOpen
  text : st.EncoderText
  search : st.len ≠ 0#5 → st.Searched
  tokens : ∃ tokens, EmittedTokens st tokens ∧ ReproducesAll b 0 tokens ∧ spans tokens = st.encoded

/-- At DONE: OUT encodes tokens that stand for b (R156). -/
def Coded (b : List Byte) (out : List Byte) : Prop :=
  ∃ tokens, EncodesTokens out tokens ∧ ReproducesAll b 0 tokens ∧ spans tokens = b.length

theorem Iteration.encoderText {st tok u : State} (h : Iteration st tok u) (hw : st.WindowInv) (hlen : st.len ≠ 0#5)
    (ht : st.EncoderText) : u.EncoderText := by
  obtain ⟨-, -, hle⟩ := State.tokenLen_bounds hw.matchLen hlen
  have e := slideStart_eq h.token st.tokenLen
  have hstart : (slideStart tok st.tokenLen).EncoderText :=
    ht.congr (by rw [e]) (by rw [e]) (by rw [e]) (by rw [e]) (by rw [e]) (by rw [e])
  exact slideTurns_encoderText (h.emitted.windowInv h.token hw hlen) hstart (by rw [e]; exact hle) h.turns

/-- An iteration succeeds and takes the encoder on by its token (R141, R146, R157). -/
theorem Coding.encoderIter {b : List Byte} {st : State} (h : Coding b st) (hlen : st.len ≠ 0#5) :
    ∃ t, st.encoderIter = .ok t ∧ Coding b t ∧ st.encoded < t.encoded := by
  obtain ⟨hhost, hinput, hw, hg, htext, hsearch, tokens, hemitted, hall, hspans⟩ := h
  obtain ⟨t, ht, hsearched⟩ := encoderIter_searched hw hg hlen (hsearch hlen)
  obtain ⟨tok, u, hiter, heq⟩ := encoderIter_iteration hw hg hlen ht
  have e : t = { u with seq := t.seq } := by
    rw [heq]
    exact loopTest_frame u
  obtain ⟨hform, -, -⟩ := encoderIter_keeps ht
  obtain ⟨-, -, -, hhost', -, -⟩ := encoderIter_frame ht
  have henc := encoderIter_encoded hw hg hlen ht
  have htoken := token_reproduces hw hlen htext (hsearch hlen).result
  obtain ⟨hpos, -⟩ := State.tokenLen_bounds hw.matchLen hlen
  rw [span_token] at henc
  refine ⟨t, ht, ⟨hhost'.trans hhost, hform.input.trans hinput, ?_, ?_, ?_, hsearched,
    tokens ++ [st.clampMatch.token], hemitted.encoderIter hw.matchLen ht, ?_, ?_⟩, by omega⟩
  · have hu := hiter.windowInv hw hlen
    exact hu.congr (by rw [e]) (by rw [e]) (by rw [e]) (by rw [e]) (by rw [e]) (by rw [e]) (by rw [e])
      (by rw [e]; exact hu.matchLen)
  · exact (hiter.groupOpen hw hg hlen).congr (by rw [e]) (by rw [e]) (by rw [e])
  · exact (hiter.encoderText hw hlen htext).congr (by rw [e]) (by rw [e]) (by rw [e]) (by rw [e]) (by rw [e])
      (by rw [e])
  · refine reproducesAll_append.mpr ⟨hall, ?_, trivial⟩
    rw [Nat.zero_add, hspans, ← hinput]
    exact htoken
  · rw [spans_append, spans_singleton, span_token, hspans, henc]

/-- The final flush ends the call (R153). -/
theorem Coding.encoderFlush {b : List Byte} {st : State} (h : Coding b st) (h0 : st.len = 0#5) :
    Coded b st.encoderFlush.out := by
  obtain ⟨-, hinput, hw, -, -, -, tokens, hemitted, hall, hspans⟩ := h
  exact ⟨tokens, hemitted.encoderFlush, hall, by rw [hspans, hw.lookahead.encoded_of_empty h0, hinput]⟩

/-- From any iteration on, the encoder reaches DONE (R152, R153). -/
theorem Coding.reaches_done {b : List Byte} {st : State} (h : Coding b st)
    (hs : (st.len ≠ 0#5 ∧ st.seq = .eIter) ∨ (st.len = 0#5 ∧ st.seq = .eFlush)) :
    ∃ n t, stepMany n st = .next t ∧ t.status = .done ∧ Coded b t.out := by
  induction hleft : b.length - st.encoded using Nat.strong_induction_on generalizing st with
  | _ left ih =>
    rcases hs with ⟨hlen, hseq⟩ | ⟨h0, hseq⟩
    · obtain ⟨s, hs, hcoding, hmore⟩ := h.encoderIter hlen
      have hstep : step st = .next s := by
        rw [step_of_no_move h.host, blockStep_eIter hseq, hs]
        rfl
      have hless : b.length - s.encoded < left := by
        obtain ⟨-, -, hip, -⟩ := h.window.lookahead
        have hpos : st.len.toNat ≠ 0 := fun h0 => hlen (BitVec.eq_of_toNat_eq h0)
        have hbound : st.encoded < b.length := by
          rw [State.encoded, ← h.input]
          have := h.window.lookahead.1
          omega
        omega
      obtain ⟨n, t, hrun, hdone, hcoded⟩ := ih _ hless hcoding (encoderIter_moves hs) rfl
      exact ⟨n + 1, t, by rw [stepMany_succ, hstep]; exact hrun, hdone, hcoded⟩
    · have hstep : step st = .next st.encoderFlush := by
        rw [step_of_no_move h.host]
        simp only [blockStep, hseq]
      refine ⟨1, st.encoderFlush, by rw [stepMany_succ, hstep]; rfl, ?_, h.encoderFlush h0⟩
      rw [(encoderFlush_frame st).1]

/-- The encoder after the seeding (R142 to R144). -/
theorem coding_of_seeded {b : List Byte} {st t : State} (h : st.AtCallStart) (hh : st.host = []) (hin : st.input = b)
    (hseq : st.encoderLoad.seq = .eSeed) (ht : st.encoderLoad.encoderSeed = .ok t) (hsearched : t.Searched) :
    Coding b t ∧ t.len ≠ 0#5 ∧ t.seq = .eIter := by
  have hinv := encoderLoad_encoderInv h
  have htseq : t.seq = .eIter := by rw [eq_of_encoderSeed ht]
  obtain ⟨hw, hg, hlen⟩ := (State.encoderInv_eIter htseq).mp (encoderSeed_encoderInv hseq hinv ht)
  have e := eq_of_encoderSeed ht
  have el := encoderLoad_frame st
  have hload : st.encoderLoad.encoded = 0 := by
    obtain ⟨hip0, -⟩ := h
    rw [State.encoded, (encoderLoad_loadedFrom hip0).2.len, Nat.sub_self]
  have hloaded : EmittedTokens st.encoderLoad [] :=
    (emittedTokens_of_atCallStart h).congr (by rw [el]) (by rw [el]) (by rw [el]) (by rw [el])
  have hemitted : EmittedTokens t [] := hloaded.congr (by rw [e]) (by rw [e]) (by rw [e]) (by rw [e])
  refine ⟨⟨?_, ?_, hw, hg, ?_, fun _ => hsearched, [], hemitted, trivial, ?_⟩, hlen, htseq⟩
  · rw [e, el]
    exact hh
  · rw [e, el]
    exact hin
  · exact (encoderLoad_encoderText h).congr (by rw [e]) (by rw [e]) (by rw [e]) (by rw [e]) (by rw [e]) (by rw [e])
  · rw [e]
    exact hload.symm

/-- From its initialisation on, COMPRESS reaches DONE with tokens for its input (R156, R221). -/
theorem compress_codes {b : List Byte} {st : State} (h : st.AtCallStart) (hh : st.host = []) (hin : st.input = b)
    (hs : st.seq = .eLoad) : ∃ n t, stepMany n st = .next t ∧ t.status = .done ∧ Coded b t.out := by
  have hstep : step st = .next st.encoderLoad := by
    rw [step_of_no_move hh]
    simp only [blockStep, hs]
  have e := encoderLoad_frame st
  have hstart := h
  obtain ⟨hip0, hout, -, -, -, -, -, -, -, -, -, -, hrson, hdad⟩ := hstart
  obtain ⟨hip, hload⟩ := encoderLoad_loadedFrom hip0
  rcases encoderLoad_moves st with ⟨h0, -, hdone⟩ | ⟨hlen, hseq, -⟩
  · refine ⟨1, _, by rw [stepMany_succ, hstep]; rfl, hdone, [], ?_, trivial, ?_⟩
    · rw [e]
      show EncodesTokens st.out []
      rw [hout]
      exact encodesTokens_nil
    · have hlen := hload.len
      rw [h0, hip, hin] at hlen
      show 0 = _
      simp at hlen
      omega
  · obtain ⟨t, ht, hsearched⟩ := encoderSeed_searched (st := st.encoderLoad) (by rw [e]; exact hrson)
      (by rw [e]; exact hdad)
    have hh' : st.encoderLoad.host = [] := by
      rw [e]
      exact hh
    have hseed : step st.encoderLoad = .next t := by
      rw [step_of_no_move hh']
      simp only [blockStep, hseq, ht]
      rfl
    obtain ⟨hcoding, hphase⟩ := coding_of_seeded h hh hin hseq ht hsearched
    obtain ⟨n, u, hrun, hdone, hcoded⟩ := hcoding.reaches_done (.inl hphase)
    refine ⟨n + 2, u, ?_, hdone, hcoded⟩
    rw [stepMany_succ, hstep, andThen_next, stepMany_succ, hseed]
    exact hrun

/-- Every COMPRESS call ends, with tokens that stand for its input (R156, R221). -/
theorem compress_ends {st : State} {b : List Byte} (h : CanStart st b) : ∃ t, CallEnds st 0#1 b t ∧ Coded b t.out := by
  obtain ⟨hh, hbusy, hlen⟩ := h
  have hstart : exec (decodeCommand 0#1 b) st = .next (st.latchStart 0#1 b) := by
    rw [exec_decodeCommand, State.startCall, if_neg hbusy, if_neg (Nat.not_lt.mpr hlen)]
  have hinit : step (st.latchStart 0#1 b) = .next (st.latchStart 0#1 b).encoderInit := step_of_no_move hh
  obtain ⟨n, t, hrun, hdone, hcoded⟩ :=
    compress_codes (b := b) (encoderInit_atCallStart (st.latchStart 0#1 b)) hh rfl rfl
  exact ⟨t, ⟨_, n + 1, hstart, by rw [stepMany_succ, hinit]; exact hrun, hdone⟩, hcoded⟩

end Sys2Proof.Machine

/-! # DECOMPRESS unfolds the tokens (spec/40_decompress.md R101 to R104, R107, R109, R156)

A decoder whose window holds the text behind R emits the next input bytes for a token that stands for them, and its window
then holds the text behind the new R.  The control byte gives each token of a group its kind. -/

namespace Sys2Proof.Machine

/-! ## The decoder's window -/

/-- The decoder in the cycle, where it has unfolded the first e bytes of b and has rest to read. -/
structure Decoding (b : List Byte) (e : Nat) (rest : List Byte) (st : State) : Prop where
  host : st.host = []
  seq : st.seq = .dCycle
  unread : st.unread = rest
  cursor : st.r = textPos (4078 + e)
  holds : st.HoldsText b e (4078 + e)
  out : st.out = b.take e

/-- FLAGS may be another value. -/
theorem Decoding.withFlags {b rest : List Byte} {e : Nat} {st : State} (h : Decoding b e rest st) (v : BitVec 16) :
    Decoding b e rest { st with flags := v } :=
  ⟨h.host, h.seq, h.unread, h.cursor, h.holds, h.out⟩

/-- An element's bytes are taken. -/
theorem Decoding.advance {b taken rest : List Byte} {e : Nat} {st : State} (h : Decoding b e (taken ++ rest) st) :
    Decoding b e rest (st.advance taken.length) := by
  refine ⟨h.host, h.seq, ?_, h.cursor, h.holds, h.out⟩
  show st.input.drop (st.ip + taken.length) = rest
  rw [← List.drop_drop]
  show st.unread.drop taken.length = rest
  rw [h.unread, List.drop_left]

/-- Where bytes are left, IP is that far from the end. -/
theorem Decoding.available {b taken rest : List Byte} {e : Nat} {st : State} (h : Decoding b e (taken ++ rest) st)
    (hne : taken ≠ []) : st.ip + taken.length ≤ st.input.length := by
  have hlen := st.unread_length
  have hpos := List.length_pos_iff.mpr hne
  rw [h.unread, List.length_append] at hlen
  omega

/-- The next byte of the text is emitted (R103, R104). -/
theorem Decoding.emitDecoded {b rest : List Byte} {e : Nat} {st : State} {c : Byte} (h : Decoding b e rest st)
    (hc : b[e]? = some c) : Decoding b (e + 1) rest (st.emitDecoded c) := by
  refine ⟨h.host, h.seq, h.unread, ?_, ?_, ?_⟩
  · rw [State.emitDecoded_r, h.cursor]
    exact textPos_add _ 1
  · refine h.holds.write (by rw [text_input, hc]) (by omega) fun p => ?_
    rw [State.windowByte, State.ringRead_emitDecoded, h.cursor]
    exact if_congr BitVec.toNat_inj rfl rfl
  · show st.out ++ [c] = b.take (e + 1)
    rw [h.out, List.take_add_one, hc]
    rfl

/-- The copy of a match emits the bytes that it stands for, one by one (R104, R404). -/
theorem Decoding.copyMatch {b rest : List Byte} {e a n k : Nat} {st : State} (h : Decoding b (e + k) rest st)
    (he : e ≤ a) (ha : a < 4078 + e)
    (hbytes : ∀ j, j < k + n → ∃ c, b[e + j]? = some c ∧ (text b)[a + j]? = some c) :
    Decoding b (e + k + n) rest (copyMatch (textPos a) n k st) := by
  induction n generalizing k st with
  | zero => exact h
  | succ n ih =>
    obtain ⟨c, hc, hsource⟩ := hbytes k (by omega)
    have hread : st.windowByte (matchSource (textPos a) k) = c := by
      rw [matchSource, textPos_add]
      exact Option.some.inj ((h.holds (a + k) (by omega) (by omega)).symm.trans hsource)
    rw [copyMatch_succ, hread]
    have hrest := ih (k := k + 1) (h.emitDecoded hc) fun j hj => hbytes j (by omega)
    rwa [show e + k + (n + 1) = e + (k + 1) + n by omega]

/-! ## A token -/

/-- The kind of a token is its control bit (R81, R101). -/
theorem IsToken.kind {tok : Instr} (h : IsToken tok) :
    tok.kind? = some (if tok.controlBit then .matched else .literal) := by
  cases tok with
  | lit _ | matchTok _ _ => rfl
  | ctrl _ | cmdCompress _ | cmdDecompress _ => obtain ⟨-, hk | hk⟩ := h <;> cases hk

/-- A token that stands for the next bytes is run: they are emitted (R103, R104). -/
theorem Decoding.runElement {b rest : List Byte} {e : Nat} {st : State} {tok : Instr}
    (h : Decoding b e (encode tok ++ rest) st) (htok : IsToken tok) (hr : Reproduces b e tok) :
    ∃ t, runElement (if tok.controlBit then .matched else .literal) st = .next t ∧
      Decoding b (e + span tok) rest t ∧ t.flags = st.flags := by
  have hdecode := decode_encode rest htok.1 htok.kind
  rw [← h.unread] at hdecode
  rw [runElement_of_ok hdecode]
  have havail := h.available (encode_ne_nil htok)
  have hadvance := h.advance
  cases tok with
  | lit d =>
    exact ⟨_, execLit_of_avail d havail, hadvance.emitDecoded hr, rfl⟩
  | matchTok pos len =>
    obtain ⟨a, rfl, he, ha, hbytes⟩ := hr
    refine ⟨_, execMatch_of_avail (textPos a) len havail, ?_, ?_⟩
    · exact Decoding.copyMatch (n := len) (k := 0) hadvance he ha fun j hj => hbytes j (by omega)
    · rw [copyMatch_frame]
      rfl
  | ctrl _ | cmdCompress _ | cmdDecompress _ => exact hr.elim

/-! ## A group -/

/-- A group's control byte holds the tokens' control bits (R93). -/
theorem getLsbD_groupControl (tokens : List Instr) (n : Nat) {j : Nat} (hj : j < 8) :
    (groupControl tokens n).getLsbD j = (decide (n ≤ j) && tokens[j - n]?.any Instr.controlBit) := by
  induction tokens generalizing n with
  | nil => simp [groupControl]
  | cons tok tokens ih =>
    have hhead : (if tok.controlBit then BitVec.ofNat 8 (2 ^ n) else 0#8).getLsbD j =
        (tok.controlBit && decide (n = j)) := by
      cases tok.controlBit
      · simp
      · rw [if_pos rfl, BitVec.getLsbD_ofNat, Nat.testBit_two_pow]
        simp [hj]
    rw [groupControl, BitVec.getLsbD_or, hhead, ih]
    rcases Nat.lt_trichotomy n j with hlt | rfl | hgt
    · have hsucc : j - n = j - (n + 1) + 1 := by omega
      rw [hsucc, List.getElem?_cons_succ]
      simp [Nat.ne_of_lt hlt, Nat.le_of_lt hlt, Nat.succ_le_of_lt hlt]
    · simp
    · simp [Nat.ne_of_gt hgt, Nat.not_le.mpr hgt, Nat.not_le.mpr (Nat.lt_succ_of_lt hgt)]

/-- The cycles after token k of a group run the group's next tokens, as their control bits say (R101, R109). -/
theorem Decoding.tokens {b rest : List Byte} {c : Byte} {tokens : List Instr} {e k : Nat} {st : State}
    (h : Decoding b e (tokens.flatMap encode ++ rest) st) (hf : st.flags = refillValue c >>> k)
    (hk : k + tokens.length < 8)
    (hbits : ∀ j, k + 1 + j < 8 → c.getLsbD (k + 1 + j) = tokens[j]?.any Instr.controlBit)
    (htokens : ∀ tok ∈ tokens, IsToken tok) (hr : ReproducesAll b e tokens) :
    ∃ n t, stepMany n st = .next t ∧ Decoding b (e + spans tokens) rest t ∧
      t.flags = refillValue c >>> (k + tokens.length) := by
  induction tokens generalizing e k st with
  | nil => exact ⟨0, st, rfl, h, hf⟩
  | cons tok tokens ih =>
    obtain ⟨htok, htokens⟩ := List.forall_mem_cons.mp htokens
    obtain ⟨hrtok, hr⟩ := hr
    rw [List.length_cons] at hk
    rw [List.flatMap_cons, List.append_assoc] at h
    have hbit : c.getLsbD (k + 1) = tok.controlBit := hbits 0 (by omega)
    obtain ⟨s, hs, hnext, hflags⟩ := (h.withFlags (refillValue c >>> (k + 1))).runElement htok hrtok
    have hcycle := InGroup.decoderCycle (c := c) (k := k) ⟨h.host, .inr ⟨h.seq, hf⟩⟩ h.seq (by omega)
    rw [hbit, hs] at hcycle
    obtain ⟨n, t, hrun, hdecoding, hend⟩ := ih hnext hflags (by omega)
      (fun j hj => by
        rw [show k + 1 + 1 + j = k + 1 + (j + 1) by omega] at hj ⊢
        exact hbits (j + 1) hj) htokens hr
    refine ⟨n + 1, t, ?_, ?_, ?_⟩
    · rw [stepMany_succ, step_of_dCycle h.host h.seq, hcycle]
      exact hrun
    · rwa [spans_cons, ← Nat.add_assoc]
    · rw [hend, List.length_cons, Nat.add_right_comm, Nat.add_assoc]

/-- Where the next cycle refills, a group is run token by token; after eight tokens the next cycle refills again (R101,
R102, R109). -/
theorem Decoding.group {b rest : List Byte} {g : List Instr} {e : Nat} {st : State}
    (h : Decoding b e (encodeGroup g ++ rest) st) (hn : st.shiftFlags.needsRefill = true)
    (hlen : 1 ≤ g.length ∧ g.length ≤ 8) (htokens : ∀ tok ∈ g, IsToken tok) (hr : ReproducesAll b e g) :
    ∃ n t, stepMany n st = .next t ∧ Decoding b (e + spans g) rest t ∧
      (g.length = 8 → t.shiftFlags.needsRefill = true) := by
  cases g with
  | nil => simp at hlen
  | cons tok tokens =>
    obtain ⟨htok, htokens⟩ := List.forall_mem_cons.mp htokens
    obtain ⟨hrtok, hr⟩ := hr
    rw [List.length_cons] at hlen
    generalize hc : groupControl (tok :: tokens) 0 = c
    have hbits : ∀ j, j < 8 → c.getLsbD j = (tok :: tokens)[j]?.any Instr.controlBit := fun j hj => by
      rw [← hc, getLsbD_groupControl _ 0 hj]
      simp
    have hbit : c.getLsbD 0 = tok.controlBit := hbits 0 (by omega)
    have hread : st.unread = c :: (encode tok ++ (tokens.flatMap encode ++ rest)) := by
      rw [h.unread, encodeGroup, hc, List.flatMap_cons, List.cons_append, List.append_assoc]
    have hcontrol : st.input[st.ip]? = some c := by
      rw [← Nat.add_zero st.ip, ← List.getElem?_drop]
      show st.unread[0]? = some c
      rw [hread]
      rfl
    have hstart : Decoding b e ([c] ++ (encode tok ++ (tokens.flatMap encode ++ rest))) st :=
      ⟨h.host, h.seq, hread, h.cursor, h.holds, h.out⟩
    obtain ⟨s, hs, hnext, hflags⟩ := (hstart.advance.withFlags (refillValue c)).runElement htok hrtok
    have hcycle := decoderCycle_of_refill h.seq hn hcontrol
    rw [hbit] at hcycle
    obtain ⟨n, t, hrun, hdecoding, hend⟩ := hnext.tokens (c := c) (k := 0) (by rw [hflags]; simp) (by omega)
      (fun j hj => by
        rw [hbits _ hj, show 0 + 1 + j = j + 1 by omega, List.getElem?_cons_succ]) htokens hr
    refine ⟨n + 1, t, ?_, ?_, fun h8 => needsRefill_of_exhausted ?_⟩
    · rw [stepMany_succ, step_of_dCycle h.host h.seq, hcycle]
      exact (congrArg (fun x => andThen x (stepMany n)) hs).trans hrun
    · rwa [spans_cons, ← Nat.add_assoc]
    · rw [List.length_cons] at h8
      rw [State.shiftFlags_flags, hend, ← BitVec.shiftRight_add, show 0 + tokens.length + 1 = 8 by omega,
        refillValue_exhausted]

/-! ## A stream of groups -/

/-- All groups are run, one after the other (R88). -/
theorem Decoding.groups {b : List Byte} {groups : List (List Instr)} {e : Nat} {st : State}
    (h : Decoding b e (groups.flatMap encodeGroup) st) (hn : st.shiftFlags.needsRefill = true)
    (hlen : ∀ g ∈ groups, 1 ≤ g.length ∧ g.length ≤ 8) (hfull : ∀ g ∈ groups.dropLast, g.length = 8)
    (htokens : ∀ tok ∈ groups.flatten, IsToken tok) (hr : ReproducesAll b e groups.flatten) :
    ∃ n t, stepMany n st = .next t ∧ Decoding b (e + spans groups.flatten) [] t := by
  induction groups generalizing e st with
  | nil => exact ⟨0, st, rfl, h⟩
  | cons g groups ih =>
    obtain ⟨hg, hlen⟩ := List.forall_mem_cons.mp hlen
    rw [List.flatten_cons, List.forall_mem_append] at htokens
    obtain ⟨hgtokens, htokens⟩ := htokens
    rw [List.flatten_cons, reproducesAll_append] at hr
    obtain ⟨hgr, hr⟩ := hr
    rw [List.flatMap_cons] at h
    obtain ⟨n, s, hrun, hdecoding, hrefill⟩ := h.group hn hg hgtokens hgr
    rw [List.flatten_cons, spans_append, ← Nat.add_assoc]
    cases groups with
    | nil => exact ⟨n, s, hrun, hdecoding⟩
    | cons g' groups =>
      rw [List.dropLast_cons_cons, List.forall_mem_cons] at hfull
      obtain ⟨m, t, hrun', hend⟩ := ih hdecoding (hrefill hfull.1) hlen hfull.2 htokens hr
      exact ⟨n + m, t, by rw [stepMany_add, hrun]; exact hrun', hend⟩

/-- Where nothing is left to read, the next cycle stops (R105, R107). -/
theorem Decoding.stops {b : List Byte} {e : Nat} {st : State} (h : Decoding b e [] st) (hip : st.ip ≤ st.input.length) :
    ∃ t, step st = .next t ∧ t.status = .done ∧ t.out = b.take e := by
  have hend : st.ip = st.input.length := by
    have hlen := st.unread_length
    rw [h.unread, List.length_nil] at hlen
    omega
  obtain ⟨t, ht, hends⟩ := decoderCycle_tokenEnds h.seq hip
  have hstep : step st = .next t := (step_of_dCycle h.host h.seq).trans ht
  rcases hends with ⟨n, hc⟩ | hcut
  · have hform := (blockStep_transition ((step_of_no_move h.host).symm.trans hstep)).form
    have hle := hform.ip hip
    rw [hform.input] at hle
    have hemits := hc.emits
    have hratio := hc.ratio
    omega
  · exact ⟨t, hstep, by rw [hcut], by rw [hcut]; exact h.out⟩

/-- DECOMPRESS of bytes that encode tokens for b gives back b (R156). -/
theorem decompress_coded {st : State} {b bytes : List Byte} (h : CanStart st bytes) (hcoded : Coded b bytes) :
    ∃ t, CallEnds st 1#1 bytes t ∧ t.out = b := by
  obtain ⟨hh, hbusy, hlen⟩ := h
  obtain ⟨_, ⟨groups, rfl, rfl, hgroups, hfull, htokens⟩, hall, hspans⟩ := hcoded
  have hstart : exec (decodeCommand 1#1 (groups.flatMap encodeGroup)) st =
      .next (st.latchStart 1#1 (groups.flatMap encodeGroup)) := by
    rw [exec_decodeCommand, State.startCall, if_neg hbusy, if_neg (Nat.not_lt.mpr hlen)]
  have hinit : step (st.latchStart 1#1 (groups.flatMap encodeGroup)) =
      .next (st.latchStart 1#1 (groups.flatMap encodeGroup)).decoderInit := step_of_no_move hh
  have hrun0 := decompressRun_decoderInit (decompressRun_latchStart (groups.flatMap encodeGroup) hh)
  have hdecoding : Decoding b 0 (groups.flatMap encodeGroup)
      (st.latchStart 1#1 (groups.flatMap encodeGroup)).decoderInit :=
    ⟨hh, rfl, rfl, rfl, holdsText_of_nil b rfl, rfl⟩
  obtain ⟨n, s, hrun, hend⟩ := hdecoding.groups (needsRefill_decoderInit _) hgroups hfull htokens hall
  have hkept := hrun0.of_steps hrun
  obtain ⟨t, hstop, hdone, hout⟩ := hend.stops (hkept.input ▸ hkept.ip)
  refine ⟨t, ⟨_, n + 2, hstart, ?_, hdone⟩, ?_⟩
  · rw [stepMany_succ, hinit, andThen_next, stepMany_add n 1, hrun, andThen_next, stepMany_succ, hstop]
    rfl
  · rw [hout, Nat.zero_add, hspans, List.take_length]

/-- Settles O48: COMPRESS ends with tokens that stand for b, and DECOMPRESS unfolds them. -/
theorem decompressInvertsCompress : Obligations.DecompressInvertsCompress := by
  intro st st' b h
  obtain ⟨t, hcall, hcoded⟩ := compress_ends h
  exact ⟨t, hcall, fun h' => decompress_coded h' hcoded⟩

end Sys2Proof.Machine

/-! # What InsertNode and DeleteNode do, and the running encoder (spec/42_match_tree.md R182 to R193)

The reported match is the longest (R193) because of the order of the keys: a node that the descent passes by has no more
leading bytes in common with r than the node at which the descent turned away from it. -/

namespace Sys2Proof.Machine

/-! ## A step of the descent -/

/-- A missing child ends the descent (R186). -/
theorem descend_of_nil {st : State} {r : Pos} {fuel : Nat} {p : TreeIdx} {cmp : Int}
    (h : st.child (decide (0 ≤ cmp), p) = nilIdx) :
    descend r (fuel + 1) st p cmp = .ok (attachAt (decide (0 ≤ cmp), p) r st) := by
  simp only [descend, selectedChild_eq, h, if_true, attachNode_eq]

/-- At a node the descent records its match, and then replaces the node or goes on from it (R182). -/
theorem descend_of_node {st : State} {r q : Pos} {fuel : Nat} {p : TreeIdx} {cmp : Int}
    (h : st.child (decide (0 ≤ cmp), p) = nodeIdx q) :
    descend r (fuel + 1) st p cmp =
      if 18 ≤ (compareKeys st r q 17 1).1 ∧ st.matchLen.toNat < (compareKeys st r q 17 1).1 then
        .ok (replaceNode (recordMatch st q (compareKeys st r q 17 1).1) r q)
      else
        descend r fuel (recordMatch st q (compareKeys st r q 17 1).1) (nodeIdx q) (compareKeys st r q 17 1).2 := by
  simp only [descend, selectedChild_eq, h, if_neg (nodeIdx_ne_nil q), nodeOf?_nodeIdx]

theorem recordMatch_eq (st : State) (q : Pos) (i : Nat) :
    recordMatch st q i = if st.matchLen.toNat < i then withMatch q (BitVec.ofNat 5 i) st else st := rfl

/-- A property that every visit to a node keeps, and every write to the tree arrays, holds where the descent ends. -/
theorem descend_induct (P : State → Prop) {r : Pos}
    (hvisit : ∀ s q, P s → P (recordMatch s q (compareKeys s r q 17 1).1))
    (htree : ∀ s u, withoutTree u = withoutTree s → P s → P u)
    {fuel : Nat} {st t : State} {p : TreeIdx} {cmp : Int} (h0 : P st) (h : descend r fuel st p cmp = .ok t) : P t := by
  induction fuel generalizing st p cmp with
  | zero => simp [descend] at h
  | succ fuel ih =>
    simp only [descend, selectedChild_eq] at h
    split at h
    · cases h
      exact htree st _ (withoutTree_attachNode st r p cmp) h0
    · split at h
      · cases h
      · rename_i q _
        split at h
        · cases h
          exact htree _ _ (withoutTree_replaceNode _ r q) (hvisit st q h0)
        · exact ih (hvisit st q h0) h

/-! ## The reported bytes -/

/-- Bytes 1 up to MATCH_LEN - 1 of the reported position's key are r's (R183). -/
def State.Agrees (st : State) (r : Pos) : Prop :=
  ∀ k, 1 ≤ k → k < st.matchLen.toNat → st.keyByte st.matchPos k = st.keyByte r k

theorem State.Agrees.recordMatch {st : State} {r : Pos} (h : st.Agrees r) (q : Pos) :
    (recordMatch st q (compareKeys st r q 17 1).1).Agrees r := by
  obtain ⟨-, hle, hbytes, -⟩ := compareKeys_spec st r q 17 1
  rw [recordMatch_eq]
  split
  · intro k hk hlt
    have hlen : (BitVec.ofNat 5 (compareKeys st r q 17 1).1).toNat = (compareKeys st r q 17 1).1 := by
      rw [BitVec.toNat_ofNat]
      omega
    exact hbytes k hk (hlt.trans_eq hlen)
  · exact h

theorem State.Agrees.of_withoutTree {st t : State} {r : Pos} (h : withoutTree t = withoutTree st) (ha : st.Agrees r) :
    t.Agrees r := by
  obtain ⟨hpos, hlen⟩ := match_of_withoutTree h
  intro k hk hlt
  rw [keyByte_of_withoutTree h, keyByte_of_withoutTree h, hpos]
  exact ha k hk (hlen ▸ hlt)

/-- Nothing is reported where the search starts. -/
theorem agrees_startInsert (r : Pos) (st : State) : (startInsert r st).Agrees r :=
  fun k _ hlt => absurd hlt (Nat.not_lt_zero k)

/-- Settles O50: every visit of the descent keeps `State.Agrees`. -/
theorem reportedMatchBytesAgree : Obligations.ReportedMatchBytesAgree := by
  intro st t r h k hk hlt
  have e := eq_of_withoutSearch (insertNode_frame h).1
  rw [insertNode_eq_descend] at h
  have hagrees : t.Agrees r := descend_induct (fun s => s.Agrees r) (fun _ q hs => hs.recordMatch q)
    (fun _ _ hu hs => hs.of_withoutTree hu) (agrees_startInsert r st) h
  have hbytes := hagrees k hk hlt
  rw [e] at hbytes
  exact hbytes

/-! ## Insertion under an empty root -/

theorem child_attachAt (s : Slot) (r : Pos) (st : State) (s' : Slot) :
    (attachAt s r st).child s' = if s' = s then nodeIdx r else st.child s' := by
  rw [attachAt, State.child_setDad, State.child_setChild]

theorem dadAt_attachAt (s : Slot) (r : Pos) (st : State) (j : TreeIdx) :
    (attachAt s r st).dadAt j = if j = nodeIdx r then s.2 else st.dadAt j := by
  rw [attachAt, State.dadAt_setDad, State.dadAt_setChild]

theorem insertNode_of_empty_root {st : State} {r : Pos} (h : st.rsonAt (rootIdx (st.keyByte r 0)) = nilIdx) :
    insertNode r st = .ok (attachAt (true, rootIdx (st.keyByte r 0)) r (startInsert r st)) := by
  have hbound : Config.walkBound = 4352 + 1 := by unfold Config.walkBound; rfl
  have hnil : (startInsert r st).child (true, rootIdx (st.keyByte r 0)) = nilIdx := by
    rw [child_startInsert, if_neg (nodeIdx_ne_rootIdx r _).symm]
    exact h
  rw [insertNode_eq_descend, hbound]
  exact descend_of_nil (cmp := 1) hnil

/-- Settles O51: the search ends at once, at the root's missing child. -/
theorem insertUnderEmptyRootAttaches : Obligations.InsertUnderEmptyRootAttaches := by
  intro st r h
  refine ⟨_, insertNode_of_empty_root h, ?_⟩
  obtain ⟨hpos, hlen⟩ := match_of_withoutTree
    (withoutTree_attachAt (true, rootIdx (st.keyByte r 0)) r (startInsert r st))
  have hchild : ∀ s, (attachAt (true, rootIdx (st.keyByte r 0)) r (startInsert r st)).child s =
      if s = (true, rootIdx (st.keyByte r 0)) then nodeIdx r else if s.2 = nodeIdx r then nilIdx else st.child s :=
    fun s => by rw [child_attachAt, child_startInsert]
  refine ⟨hlen, hpos, fun j => ?_, fun j => ?_, fun j => ?_⟩
  · exact (hchild (true, j)).trans (if_congr ⟨congrArg Prod.snd, congrArg (Prod.mk true)⟩ rfl rfl)
  · exact (hchild (false, j)).trans (if_neg nofun)
  · rw [dadAt_attachAt, dadAt_startInsert]
    rfl

/-! ## Leading equal bytes -/

theorem State.le_sharedBytes_iff {st : State} {p q : Pos} {n : Nat} :
    n ≤ st.sharedBytes p q ↔ n ≤ 18 ∧ ∀ k, k < n → st.keyByte p k = st.keyByte q k := by
  rw [State.sharedBytes, List.takeWhile_eq_take_findIdx_not, List.length_take, List.length_range, Nat.le_min, and_comm]
  refine and_congr_right fun h18 => ⟨fun hle k hk => ?_, fun hbytes => Nat.le_of_not_lt fun hlt => ?_⟩
  · simpa using List.not_of_lt_findIdx (hk.trans_le hle)
  · have hdiff := List.findIdx_getElem (w := (hlt.trans_le h18).trans_eq List.length_range.symm)
    simp only [List.getElem_range, hbytes _ hlt, beq_self_eq_true] at hdiff
    cases hdiff

theorem State.sharedBytes_le (st : State) (p q : Pos) : st.sharedBytes p q ≤ 18 :=
  (State.le_sharedBytes_iff.mp (Nat.le_refl _)).1

theorem State.keyByte_eq_of_lt_sharedBytes {st : State} {p q : Pos} {k : Nat} (h : k < st.sharedBytes p q) :
    st.keyByte p k = st.keyByte q k :=
  (State.le_sharedBytes_iff.mp (Nat.le_refl _)).2 k h

/-- Positions with different first bytes share none. -/
theorem State.sharedBytes_eq_zero {st : State} {p q : Pos} (h : st.keyByte p 0 ≠ st.keyByte q 0) :
    st.sharedBytes p q = 0 :=
  Nat.eq_zero_of_not_pos fun hpos => h (State.keyByte_eq_of_lt_sharedBytes hpos)

theorem State.sharedBytes_congr {st t : State} (h : ∀ p i, t.keyByte p i = st.keyByte p i) (p q : Pos) :
    t.sharedBytes p q = st.sharedBytes p q := by
  simp only [State.sharedBytes, h]

/-- The comparison counts the leading equal bytes (R183). -/
theorem compareKeys_eq_sharedBytes {st : State} {r q : Pos} (h0 : st.keyByte q 0 = st.keyByte r 0) :
    (compareKeys st r q 17 1).1 = st.sharedBytes r q := by
  obtain ⟨-, hle, -, hdiff, -⟩ := compareKeys_spec st r q 17 1
  obtain ⟨hequal, -⟩ := compareKeys_cases st h0
  refine Nat.le_antisymm (State.le_sharedBytes_iff.mpr ⟨by omega, fun k hk => (hequal k hk).symm⟩)
    (Nat.le_of_not_lt fun hlt => ?_)
  have h18 := st.sharedBytes_le r q
  obtain ⟨hcmp, hne⟩ := hdiff (by omega)
  rw [State.keyByte_eq_of_lt_sharedBytes hlt, sub_self] at hcmp
  exact hne hcmp

/-- In the order of keys, a node between r and x has at least the leading bytes that r and x have in common. -/
theorem State.sharedBytes_le_of_between {st : State} {r q x : Pos}
    (h : (st.key x < st.key q ∧ st.key q < st.key r) ∨ (st.key r < st.key q ∧ st.key q < st.key x)) :
    st.sharedBytes r x ≤ st.sharedBytes r q := by
  have h18 := st.sharedBytes_le r x
  refine State.le_sharedBytes_iff.mpr ⟨h18, fun k hk => ?_⟩
  induction k using Nat.strong_induction_on with
  | _ k ih =>
    have hrq : ∀ j, j < k → st.keyByte r j = st.keyByte q j := fun j hj => ih j hj (hj.trans hk)
    have hrx : ∀ j, j ≤ k → st.keyByte r j = st.keyByte x j := fun j hj =>
      State.keyByte_eq_of_lt_sharedBytes (hj.trans_lt hk)
    have hxq : ∀ j, j < k → st.keyByte x j = st.keyByte q j := fun j hj => (hrx j hj.le).symm.trans (hrq j hj)
    by_contra hne
    rcases Nat.lt_or_gt_of_ne (mt BitVec.eq_of_toNat_eq hne) with hlt | hgt
    · have hr := State.key_lt_of_byte_lt (by omega) hrq hlt
      have hx := State.key_lt_of_byte_lt (by omega) hxq (hrx k le_rfl ▸ hlt)
      exact h.elim (fun h => List.lt_asymm h.2 hr) fun h => List.lt_asymm h.2 hx
    · have hr := State.key_lt_of_byte_lt (by omega) (fun j hj => (hrq j hj).symm) hgt
      have hx := State.key_lt_of_byte_lt (by omega) (fun j hj => (hxq j hj).symm) (hrx k le_rfl ▸ hgt)
      exact h.elim (fun h => List.lt_asymm h.1 hx) fun h => List.lt_asymm h.1 hr

/-! ## The longest match -/

/-- MATCH_LEN never falls along the descent (R184). -/
theorem descend_matchLen_le {st v : State} {r : Pos} {fuel : Nat} {p : TreeIdx} {cmp : Int}
    (h : descend r fuel st p cmp = .ok v) : st.matchLen.toNat ≤ v.matchLen.toNat := by
  refine descend_induct (fun s => st.matchLen.toNat ≤ s.matchLen.toNat) (fun s q hs => ?_)
    (fun s u hu hs => ?_) (Nat.le_refl _) h
  · have hle := (compareKeys_spec s r q 17 1).2.1
    rw [recordMatch_len s q (by omega)]
    exact hs.trans (Nat.le_max_left _ _)
  · rw [matchLen_of_withoutTree hu]
    exact hs

/-- A visited node's count is reported or exceeded, and if it is below 18 the descent goes on (R182, R184). -/
theorem descend_visits {st v : State} {r q : Pos} {fuel : Nat} {p : TreeIdx} {cmp : Int}
    (hlink : st.child (decide (0 ≤ cmp), p) = nodeIdx q) (h : descend r (fuel + 1) st p cmp = .ok v) :
    (compareKeys st r q 17 1).1 ≤ v.matchLen.toNat ∧
      ((compareKeys st r q 17 1).1 < 18 → ∃ pos len,
        descend r fuel (withMatch pos len st) (nodeIdx q) (compareKeys st r q 17 1).2 = .ok v) := by
  have hle := (compareKeys_spec st r q 17 1).2.1
  have hlen := recordMatch_len st q (i := (compareKeys st r q 17 1).1) (by omega)
  rw [descend_of_node hlink] at h
  split at h
  · cases h
    rw [matchLen_of_withoutTree (withoutTree_replaceNode _ r q), hlen]
    exact ⟨Nat.le_max_right _ _, fun hlt => by omega⟩
  · refine ⟨?_, fun _ => ?_⟩
    · have hgrow := descend_matchLen_le h
      omega
    · rw [recordMatch_eq] at h
      split at h
      · exact ⟨_, _, h⟩
      · exact ⟨st.matchPos, st.matchLen, h⟩

/-- The descent through a search tree reports at least what any of its nodes has in common with r (R193). -/
theorem descend_longest {st v : State} {r : Pos} {fuel : Nat} {p : TreeIdx} {cmp : Int} {t : TreeShape}
    (hold : st.HoldsAt (decide (0 ≤ cmp), p) t) (hsorted : t.nodes.Pairwise fun p q => st.key p < st.key q)
    (hfirst : ∀ q ∈ t.nodes, st.keyByte q 0 = st.keyByte r 0) (h : descend r fuel st p cmp = .ok v) :
    ∀ x ∈ t.nodes, st.sharedBytes r x ≤ v.matchLen.toNat := by
  induction t generalizing st fuel p cmp with
  | leaf => exact nofun
  | node l q r' ihl ihr =>
    cases fuel with
    | zero => simp [descend] at h
    | succ fuel =>
      obtain ⟨hlink, -, hl, hr⟩ := State.holdsAt_node.mp hold
      simp only [TreeShape.nodes, List.forall_mem_append, List.forall_mem_cons] at hfirst ⊢
      obtain ⟨hfl, hfq, hfr⟩ := hfirst
      simp only [TreeShape.nodes, List.pairwise_append, List.pairwise_cons, List.mem_cons] at hsorted
      obtain ⟨hsl, ⟨hqr, hsr⟩, hlr⟩ := hsorted
      have hlq : ∀ x ∈ l.nodes, st.key x < st.key q := fun x hx => hlr x hx q (.inl rfl)
      obtain ⟨hq, hon⟩ := descend_visits hlink h
      obtain ⟨-, hcase⟩ := compareKeys_cases st hfq
      rw [compareKeys_eq_sharedBytes hfq] at hq hon hcase
      generalize (compareKeys st r q 17 1).2 = turn at hon hcase
      rcases hcase with ⟨h18, -⟩ | ⟨hlt18, hpos, hkey⟩ | ⟨hlt18, hneg, hkey⟩
      · have hall : ∀ x, st.sharedBytes r x ≤ v.matchLen.toNat := fun x => (st.sharedBytes_le r x).trans (h18 ▸ hq)
        exact ⟨fun x _ => hall x, hall q, fun x _ => hall x⟩
      · obtain ⟨pos, len, hgo⟩ := hon hlt18
        have hside : decide (0 ≤ turn) = true := by simpa using hpos
        exact ⟨fun x hx => (State.sharedBytes_le_of_between (.inl ⟨hlq x hx, hkey⟩)).trans hq, hq,
          ihr (st := withMatch pos len st) (by rw [hside]; exact hr.withMatch pos len) hsr hfr hgo⟩
      · obtain ⟨pos, len, hgo⟩ := hon hlt18
        have hside : decide (0 ≤ turn) = false := by simpa using hneg
        exact ⟨ihl (st := withMatch pos len st) (by rw [hside]; exact hl.withMatch pos len) hsl hfl hgo, hq,
          fun x hx => (State.sharedBytes_le_of_between (.inr ⟨hkey, hqr x hx⟩)).trans hq⟩

/-- InsertNode reports at least what any node has in common with r; in the other trees no node has a byte (R193). -/
theorem insertNode_longest {st t : State} {r : Pos} (htree : st.TreeInv) (hr : ¬ st.inTree r)
    (h : insertNode r st = .ok t) {p : Pos} (hp : st.inTree p) : st.sharedBytes r p ≤ t.matchLen.toNat := by
  obtain ⟨shape, htrees⟩ := State.treeInv_iff.mp htree
  obtain ⟨c, hpc⟩ := (htrees.members p).mp hp
  by_cases hc : st.keyByte r 0 = c
  · have hrc : r ∉ (shape c).nodes := fun hmem => hr (htrees.inTree_of_mem hmem)
    have hstart := (htrees.holds c).startInsert (nodeIdx_ne_rootIdx r c).symm hrc
    rw [insertNode_eq_descend, hc] at h
    rw [← State.sharedBytes_congr (keyByte_startInsert r st)]
    refine descend_longest (cmp := 1) hstart ?_ (fun q hq => ?_) h p hpc
    · simpa only [key_startInsert] using htrees.sorted c
    · rw [keyByte_startInsert, keyByte_startInsert, htrees.first c q hq, hc]
  · rw [State.sharedBytes_eq_zero fun heq => hc (heq.trans (htrees.first c p hpc))]
    exact Nat.zero_le _

/-- Settles O53: `insertNode_longest` bounds every node, and the reported node has the bytes it is reported for. -/
theorem insertNodeFindsTheLongestMatch : Obligations.InsertNodeFindsTheLongestMatch := by
  intro st t r htree hr h
  obtain ⟨u, hu, hinserted⟩ := insertNode_inserted htree hr
  cases h.symm.trans hu
  have hlongest := fun p => insertNode_longest htree hr h (p := p)
  obtain ⟨h18, hfound⟩ := hinserted.found
  refine ⟨hlongest, fun hpos => ?_⟩
  obtain ⟨hin, hbytes⟩ := hfound hpos
  exact ⟨hin, Nat.le_antisymm (hlongest _ hin) (State.le_sharedBytes_iff.mpr ⟨h18, fun k hk => (hbytes k hk).symm⟩)⟩

/-! ## The other statements of the match finder -/

/-- Settles O49: the frame of every path of the descent. -/
theorem insertNodeFrame : Obligations.InsertNodeFrame := by
  intro st t r h
  obtain ⟨hframe, hlen, -⟩ := insertNode_frame h
  exact ⟨eq_of_withoutSearch hframe, hlen⟩

/-- Settles O52: the two ends of the descent, each an edit of the search trees at one place. -/
theorem insertNodeKeepsSearchTree : Obligations.InsertNodeKeepsSearchTree := by
  intro st r htree hr
  obtain ⟨t, ht, hinserted⟩ := insertNode_inserted htree hr
  exact ⟨t, ht, hinserted.tree, hinserted.self, hinserted.old, hinserted.kept⟩

/-- Settles O54: each case of the deletion is an edit of the search trees at p's place. -/
theorem deleteNodeKeepsSearchTree : Obligations.DeleteNodeKeepsSearchTree := by
  intro st p htree
  obtain ⟨t, ht, hkeep, hmem⟩ := deleteNode_deleted p htree
  exact ⟨t, ht, hkeep, hmem, eq_of_withoutTree (deleteNode_frame ht).1⟩

/-- Settles O55: the first test of DeleteNode. -/
theorem deleteOfAbsentPositionDoesNothing : Obligations.DeleteOfAbsentPositionDoesNothing := by
  intro st p h
  unfold deleteNode
  exact if_pos h

/-! ## The running encoder -/

theorem State.searchInv_eIter {st : State} (hs : st.seq = .eIter) : st.SearchInv ↔ st.Searched := by
  simp only [State.SearchInv, hs]
  exact ⟨fun ⟨htree, hnodes, hresult⟩ => ⟨htree, hnodes, hresult⟩, fun h => ⟨h.tree, h.nodes, h.result⟩⟩

/-- The search trees are empty until the seeding (R181). -/
theorem encoderLoad_searchInv {st : State} (h : st.AtCallStart) : st.encoderLoad.SearchInv := by
  obtain ⟨-, -, hr, -, -, -, -, -, -, -, -, hlson, hrson, hdad⟩ := h
  have e := encoderLoad_frame st
  rcases encoderLoad_moves st with ⟨-, hseq, -⟩ | ⟨-, hseq, -⟩
  · simp only [State.SearchInv, hseq]
  · simp only [State.SearchInv, hseq]
    rw [e]
    exact ⟨hr, hlson, hrson, hdad⟩

theorem encoderSeed_searchInv {st : State} (hs : st.seq = .eSeed) (h : st.SearchInv) :
    ∃ t, st.encoderSeed = .ok t ∧ t.SearchInv := by
  simp only [State.SearchInv, hs] at h
  obtain ⟨-, -, hrson, hdad⟩ := h
  obtain ⟨t, ht, hsearched⟩ := encoderSeed_searched hrson hdad
  have hseq : t.seq = .eIter := by rw [eq_of_encoderSeed ht]
  exact ⟨t, ht, (State.searchInv_eIter hseq).mpr hsearched⟩

theorem encoderIter_searchInv {st : State} (hs : st.seq = .eIter) (hinv : st.EncoderInv) (h : st.SearchInv) :
    ∃ t, st.encoderIter = .ok t ∧ t.SearchInv := by
  obtain ⟨hw, hg, hlen⟩ := (State.encoderInv_eIter hs).mp hinv
  obtain ⟨t, ht, hsearched⟩ := encoderIter_searched hw hg hlen ((State.searchInv_eIter hs).mp h)
  refine ⟨t, ht, ?_⟩
  rcases encoderIter_moves ht with ⟨hne, hseq⟩ | ⟨-, hseq⟩
  · exact (State.searchInv_eIter hseq).mpr (hsearched hne)
  · simp only [State.SearchInv, hseq]

/-- In each of its phases the running encoder goes on, and the search keeps its invariant. -/
theorem blockStep_searchInv {st : State} (hrun : st.encoding = true) (hinv : st.EncoderInv) (h : st.SearchInv) :
    ∃ t, blockStep st = .next t ∧ t.SearchInv := by
  cases hs : st.seq
  case idle | dInit | dCycle | eInit | done => simp [State.encoding, hs] at hrun
  case eLoad =>
    simp only [State.EncoderInv, hs] at hinv
    exact ⟨st.encoderLoad, by simp only [blockStep, hs], encoderLoad_searchInv hinv⟩
  case eSeed =>
    obtain ⟨t, ht, hsearch⟩ := encoderSeed_searchInv hs h
    exact ⟨t, by simp only [blockStep, hs, ht, outcomeOf], hsearch⟩
  case eIter =>
    obtain ⟨t, ht, hsearch⟩ := encoderIter_searchInv hs hinv h
    exact ⟨t, by rw [blockStep_eIter hs, ht]; rfl, hsearch⟩
  case eFlush =>
    refine ⟨st.encoderFlush, by simp only [blockStep, hs], ?_⟩
    rw [(encoderFlush_frame st).1]
    trivial

/-- Settles O23: `blockStep_searchInv`, with the encoder's own invariant kept by every step. -/
theorem encoderNeverFaults : Obligations.EncoderNeverFaults := by
  intro st hh hrun hinv h
  obtain ⟨t, ht, hsearch⟩ := blockStep_searchInv hrun hinv h
  have hstep : step st = .next t := (step_of_no_move hh).trans ht
  exact ⟨t, hstep, stepKeepsEncoderInvariant st t hinv hstep, hsearch⟩

end Sys2Proof.Machine

/-! # COMPRESS reaches DONE within a bounded number of steps (spec/41_compress.md R141, R152, R153)

A bound on the steps that a running encoder still takes: each transition of the sequencer lowers it or ends the call. -/

namespace Sys2Proof.Machine

/-! ## Calls that are accepted -/

/-- The port's conditions make START the latch of the call (R221). -/
theorem startCall_of_ready {st : State} {b : List Byte} (op : BitVec 1) (hbusy : st.status ≠ .busy)
    (hlen : b.length ≤ st.params.maxInputLen) : st.startCall op b = .next (st.latchStart op b) := by
  rw [State.startCall, if_neg hbusy, if_neg (Nat.not_lt.mpr hlen)]

/-! ## The steps left -/

/-- A bound on the steps until DONE: the load, the seeding, at most one iteration for each byte not yet encoded, and the
flush. -/
def State.stepsLeft (st : State) : Nat :=
  match st.seq with
  | .eLoad => st.input.length + 3
  | .eSeed => st.input.length - st.encoded + 2
  | .eIter => st.input.length - st.encoded + 1
  | .eFlush => 1
  | .idle | .dInit | .dCycle | .eInit | .done => 0

/-- A call of COMPRESS has ended: the whole input is read and no lookahead is left (R152). -/
structure State.CompressEnded (st : State) : Prop where
  status : st.status = .done
  seq : st.seq = .done
  ip : st.ip = st.input.length
  len : st.len = 0#5

/-- While there is lookahead, input is left to encode (R161). -/
theorem State.Lookahead.encoded_lt {st : State} (h : st.Lookahead) (hlen : st.len ≠ 0#5) :
    st.encoded < st.input.length := by
  obtain ⟨hle, -, hip, -⟩ := h
  have hpos : st.len.toNat ≠ 0 := fun h0 => hlen (BitVec.eq_of_toNat_eq h0)
  unfold State.encoded
  omega

/-- A load that finds no input ends the call (R143). -/
theorem encoderLoad_ended {st : State} (h : st.AtCallStart) (h0 : st.encoderLoad.len = 0#5)
    (hseq : st.encoderLoad.seq = .done) (hstatus : st.encoderLoad.status = .done) : st.encoderLoad.CompressEnded := by
  obtain ⟨hip0, -⟩ := h
  obtain ⟨hip, hload⟩ := encoderLoad_loadedFrom hip0
  have hlen := hload.len
  rw [h0, BitVec.toNat_ofNat] at hlen
  refine ⟨hstatus, hseq, ?_, h0⟩
  rw [show st.encoderLoad.input = st.input by rw [encoderLoad_frame]]
  omega

theorem encoderFlush_ended {st : State} (hlook : st.Lookahead) (h0 : st.len = 0#5) :
    st.encoderFlush.CompressEnded := by
  have hencoded := hlook.encoded_of_empty h0
  rw [State.encoded, h0] at hencoded
  rw [(encoderFlush_frame st).1]
  exact ⟨rfl, rfl, hencoded, h0⟩

theorem encoderIter_stepsLeft {st t : State} (hs : st.seq = .eIter) (hw : st.WindowInv) (hg : st.GroupOpen)
    (hlen : st.len ≠ 0#5) (h : st.encoderIter = .ok t) : t.encoding = true ∧ t.stepsLeft < st.stepsLeft := by
  have hinput : t.input = st.input := (transition_encoderIter hs h).form.input
  have hencoded := encoderIter_encoded hw hg hlen h
  have hlt := hw.lookahead.encoded_lt hlen
  obtain ⟨hpos, -⟩ := State.tokenLen_bounds hw.matchLen hlen
  rw [span_token] at hencoded
  rcases encoderIter_moves h with ⟨-, hseq⟩ | ⟨-, hseq⟩
  · simp only [State.encoding, State.stepsLeft, hs, hseq, hinput, true_and]
    omega
  · simp only [State.encoding, State.stepsLeft, hs, hseq, true_and]
    omega

/-- A transition of the running encoder lowers the bound, or ends the call. -/
theorem blockStep_stepsLeft {st t : State} (hrun : st.encoding = true) (hinv : st.EncoderInv)
    (h : blockStep st = .next t) : (t.encoding = true ∧ t.stepsLeft < st.stepsLeft) ∨ t.CompressEnded := by
  have hinput := (blockStep_transition h).form.input
  cases hs : st.seq <;> simp only [blockStep, hs] at h
  case idle | dInit | dCycle | eInit | done => simp [State.encoding, hs] at hrun
  case eLoad =>
    cases h
    simp only [State.EncoderInv, hs] at hinv
    rcases encoderLoad_moves st with ⟨h0, hseq, hstatus⟩ | ⟨-, hseq, -⟩
    · exact .inr (encoderLoad_ended hinv h0 hseq hstatus)
    · left
      simp only [State.encoding, State.stepsLeft, hs, hseq, hinput, true_and]
      omega
  case eSeed =>
    have e := eq_of_encoderSeed (outcomeOf_eq_next h)
    have hseq : t.seq = .eIter := by rw [e]
    have hencoded : t.encoded = st.encoded := by rw [e]; rfl
    left
    simp only [State.encoding, State.stepsLeft, hs, hseq, hinput, hencoded, true_and]
    omega
  case eIter =>
    obtain ⟨hw, hg, hlen⟩ := (State.encoderInv_eIter hs).mp hinv
    exact .inl (encoderIter_stepsLeft hs hw hg hlen (outcomeOf_eq_next h))
  case eFlush =>
    cases h
    obtain ⟨hw, -, h0⟩ := (State.encoderInv_eFlush hs).mp hinv
    exact .inr (encoderFlush_ended hw.lookahead h0)

theorem stepsLeft_pos {st : State} (hrun : st.encoding = true) : 0 < st.stepsLeft := by
  unfold State.encoding at hrun
  unfold State.stepsLeft
  cases hs : st.seq <;> simp [hs] at hrun ⊢

/-! ## A whole call -/

/-- A running encoder ends its call within the steps left: it never faults, and each step lowers the bound. -/
theorem encoding_reaches_ended {st : State} (hh : st.host = []) (hrun : st.encoding = true) (hinv : st.EncoderInv)
    (hsearch : st.SearchInv) :
    ∃ n t, n ≤ st.stepsLeft ∧ stepMany n st = .next t ∧ t.input = st.input ∧ t.CompressEnded := by
  induction hleft : st.stepsLeft using Nat.strong_induction_on generalizing st with
  | _ left ih =>
    subst hleft
    obtain ⟨s, hstep, hinv', hsearch'⟩ := encoderNeverFaults st hh hrun hinv hsearch
    have hblock : blockStep st = .next s := (step_of_no_move hh).symm.trans hstep
    have htr := blockStep_transition hblock
    rcases blockStep_stepsLeft hrun hinv hblock with ⟨hrun', hless⟩ | hended
    · obtain ⟨n, t, hn, hsteps, hinput, hended⟩ := ih _ hless (htr.host.trans hh) hrun' hinv' hsearch' rfl
      exact ⟨n + 1, t, by omega, by rw [stepMany_succ, hstep]; exact hsteps, hinput.trans htr.form.input, hended⟩
    · exact ⟨1, s, stepsLeft_pos hrun, by rw [stepMany_succ, hstep]; rfl, htr.form.input, hended⟩

/-- Settles O45: one step of initialisation, and then at most L + 3 (`stepsLeft` at E_LOAD). -/
theorem compressReachesDone : Obligations.CompressReachesDone := by
  rintro st b ⟨hh, hbusy, hlen⟩
  have hstart : exec (.cmdCompress b) st = .next (st.latchStart 0#1 b) := startCall_of_ready 0#1 hbusy hlen
  have hinit : step (st.latchStart 0#1 b) = .next (st.latchStart 0#1 b).encoderInit := step_of_no_move hh
  obtain ⟨n, t, hn, hsteps, hinput, hended⟩ :=
    encoding_reaches_ended (st := (st.latchStart 0#1 b).encoderInit) hh rfl (encoderInit_atCallStart _) trivial
  exact ⟨_, n + 1, t, hstart, Nat.succ_le_succ hn, by rw [stepMany_succ, hinit]; exact hsteps, hended.status,
    hended.seq, hended.ip.trans (congrArg List.length hinput), hended.len⟩

end Sys2Proof.Machine

/-! # DECOMPRESS of a stream cut short (spec/43_host_interface.md R227, spec/40_decompress.md R101 to R105)

As long as the shorter stream lasts, the longer one is decoded in lockstep; after that OUT only grows. -/

namespace Sys2Proof.Machine

/-- The state with more bytes at the end of IN. -/
def withMore (more : List Byte) (st : State) : State := { st with input := st.input ++ more }

theorem unread_withMore {st : State} (more : List Byte) (hip : st.ip ≤ st.input.length) :
    (withMore more st).unread = st.unread ++ more :=
  List.drop_append_of_le_length hip

theorem copyMatch_withMore (more : List Byte) (pos : Pos) (n k : Nat) (st : State) :
    copyMatch pos n k (withMore more st) = withMore more (copyMatch pos n k st) := by
  induction n generalizing k st with
  | zero => rfl
  | succ n ih => exact ih (k + 1) (st.emitDecoded (st.windowByte (matchSource pos k)))

/-- Bytes available on the shorter stream are available on the longer one. -/
theorem available_withMore {st : State} (more : List Byte) {n : Nat} (h : st.ip + n ≤ st.input.length) :
    (withMore more st).ip + n ≤ (withMore more st).input.length :=
  h.trans (List.length_append ▸ Nat.le_add_right _ _)

/-- An element that the shorter stream holds runs the same on the longer one (R102 to R104). -/
theorem runElement_withMore {k : Kind} {st t : State} (more : List Byte) (hip : st.ip ≤ st.input.length)
    (h : runElement k st = .next t) (hgoes : t.seq ≠ .done) :
    runElement k (withMore more st) = .next (withMore more t) := by
  have hunread := unread_withMore more hip
  have hlen := st.unread_length
  rcases decode_cases k st.unread with ⟨e, hd, -⟩ | ⟨c, rest, rfl, hb, hd⟩ | ⟨d, rest, rfl, hb, hd⟩ |
    ⟨i, j, rest, rfl, hb, hd⟩ <;> simp only [runElement, hd] at h
  · cases h
    exact absurd rfl hgoes
  · have hav : st.ip + 1 ≤ st.input.length := by rw [hb, List.length_cons] at hlen; omega
    cases (execCtrl_of_avail c hav).symm.trans h
    simp only [runElement, hunread, hb]
    exact execCtrl_of_avail c (available_withMore more hav)
  · have hav : st.ip + 1 ≤ st.input.length := by rw [hb, List.length_cons] at hlen; omega
    cases (execLit_of_avail d hav).symm.trans h
    simp only [runElement, hunread, hb]
    exact execLit_of_avail d (available_withMore more hav)
  · have hav : st.ip + 2 ≤ st.input.length := by rw [hb, List.length_cons, List.length_cons] at hlen; omega
    cases (execMatch_of_avail (matchPosOf i j) (matchLenOf j) hav).symm.trans h
    simp only [runElement, hunread, hb, ← copyMatch_withMore]
    exact execMatch_of_avail (matchPosOf i j) (matchLenOf j) (available_withMore more hav)

/-- A token cycle that the shorter stream completes is the same on the longer one (R101). -/
theorem decoderCycle_withMore {st t : State} (more : List Byte) (hs : st.seq = .dCycle)
    (hip : st.ip ≤ st.input.length) (h : decoderCycle st = .next t) (hgoes : t.seq ≠ .done) :
    decoderCycle (withMore more st) = .next (withMore more t) := by
  cases hn : st.shiftFlags.needsRefill with
  | false =>
    rw [decoderCycle_of_no_refill hn] at h
    rw [decoderCycle_of_no_refill (st := withMore more st) hn]
    exact runElement_withMore more (st := st.shiftFlags) hip h hgoes
  | true =>
    cases hc : st.input[st.ip]? with
    | none =>
      rw [decoderCycle_of_end hn (List.getElem?_eq_none_iff.mp hc)] at h
      cases h
      exact absurd rfl hgoes
    | some c =>
      obtain ⟨hlt, -⟩ := List.getElem?_eq_some_iff.mp hc
      have hc' : (withMore more st).input[(withMore more st).ip]? = some c :=
        (List.getElem?_append_left hlt).trans hc
      rw [decoderCycle_of_refill hs hn hc] at h
      rw [decoderCycle_of_refill (st := withMore more st) hs hn hc']
      exact runElement_withMore more (st := { st with flags := refillValue c, ip := st.ip + 1 }) hlt h hgoes

/-! ## Two runs -/

/-- Only START leads to D_INIT (R40). -/
theorem Transition.seq_ne_dInit {st t : State} (h : Transition st t) (hs : st.seq ≠ .dInit) : t.seq ≠ .dInit := by
  have hm := h.moves
  unfold SeqMoves at hm
  intro ht
  cases hseq : st.seq <;> simp only [hseq] at hm
  case dInit => exact hs hseq
  case idle | done => exact hs (hm ▸ ht)
  all_goals simp [ht] at hm

/-- Two runs of DECOMPRESS, both initialised, on b and on b ++ more: they look the same until the first has stopped, and
the other's OUT begins with its OUT. -/
structure PrefixRuns (b more : List Byte) (st st' : State) : Prop where
  left : DecompressRun b st
  right : DecompressRun (b ++ more) st'
  initialised : st.seq ≠ .dInit ∧ st'.seq ≠ .dInit
  out : st.out <+: st'.out
  view : st.seq = .dCycle → decoderView st' = decoderView (withMore more st)

/-- While both decode, a token that the first run completes is completed alike in the second. -/
theorem PrefixRuns.view_of_completed {b more : List Byte} {st st' t t' : State} (h : PrefixRuns b more st st')
    (hs : st.seq = .dCycle) (ht : step st = .next t) (ht' : step st' = .next t') (hgoes : t.seq ≠ .done) :
    decoderView t' = decoderView (withMore more t) := by
  have hview := h.view hs
  have hs' : st'.seq = .dCycle := (congrArg State.seq hview).trans hs
  have hcycle := (step_of_dCycle h.left.host hs).symm.trans ht
  have hcycle' := (step_of_dCycle h.right.host hs').symm.trans ht'
  have hlonger := decoderCycle_withMore more hs (h.left.input ▸ h.left.ip) hcycle hgoes
  apply Host.Outcome.next.inj
  calc nextView (.next t') = decoderCycle (decoderView st') := by rw [decoderCycle_decoderView, hcycle']
    _ = decoderCycle (decoderView (withMore more st)) := by rw [hview]
    _ = nextView (.next (withMore more t)) := by rw [decoderCycle_decoderView, hlonger]

theorem PrefixRuns.step {b more : List Byte} {st st' t t' : State} (h : PrefixRuns b more st st')
    (ht : step st = .next t) (ht' : step st' = .next t') : PrefixRuns b more t t' := by
  obtain ⟨hinit, hinit'⟩ := h.initialised
  have htr := blockStep_transition ((step_of_no_move h.left.host).symm.trans ht)
  have htr' := blockStep_transition ((step_of_no_move h.right.host).symm.trans ht')
  have hgrows : st'.out <+: t'.out := htr'.out hinit' fun he => by
    rcases h.right.phase with hs | hs | hs <;> simp [hs] at he
  have hnext : t.out <+: t'.out ∧ (t.seq = .dCycle → decoderView t' = decoderView (withMore more t)) := by
    rcases h.left.phase with hs | hs | hs
    · exact absurd hs hinit
    · rcases step_tokenEnds h.left.host hs (h.left.input ▸ h.left.ip) ht with ⟨n, hc⟩ | hcut
      · have hview := h.view_of_completed hs ht ht' (by rw [hc.seq, hs]; decide)
        have hout : t'.out = t.out := (congrArg State.out hview :)
        exact ⟨by rw [hout], fun _ => hview⟩
      · rw [hcut]
        exact ⟨h.out.trans hgrows, nofun⟩
    · have hstays : t = st := by
        have hm := htr.moves
        simpa only [SeqMoves, hs] using hm
      rw [hstays]
      exact ⟨h.out.trans hgrows, fun he => by simp [hs] at he⟩
  exact ⟨h.left.of_step ht, h.right.of_step ht', ⟨htr.seq_ne_dInit hinit, htr'.seq_ne_dInit hinit'⟩, hnext.1, hnext.2⟩

theorem prefixRuns_decoderInit {st st' : State} (b more : List Byte) (hh : st.host = []) (hh' : st'.host = [])
    (hfill : st.params.unprimedFill = st'.params.unprimedFill) :
    PrefixRuns b more (st.latchStart 1#1 b).decoderInit (st'.latchStart 1#1 (b ++ more)).decoderInit where
  left := decompressRun_decoderInit (decompressRun_latchStart b hh)
  right := decompressRun_decoderInit (decompressRun_latchStart (b ++ more) hh')
  initialised := by simp [State.decoderInit]
  out := List.prefix_refl _
  view _ := congrArg (fun fill => { decoderView (State.reset.latchStart 1#1 (b ++ more)).decoderInit with
    params := { unprimedFill := fill, maxInputLen := 0 } }) hfill.symm

/-- Settles O33: the two calls keep `PrefixRuns` in lockstep. -/
theorem prefixDecompressesToPrefix : Obligations.PrefixDecompressesToPrefix := by
  rintro st st' t t' b more ⟨hh, -⟩ ⟨hh', -⟩ hfill h h'
  obtain ⟨n, hrun⟩ := h.decompress_run hh
  obtain ⟨n', hrun'⟩ := h'.decompress_run hh'
  obtain ⟨rest, hout⟩ := (lockstep_to_done (PrefixRuns b more) (fun _ _ _ _ => PrefixRuns.step)
    (prefixRuns_decoderInit b more hh hh' hfill) hrun hrun' (h.ended hh) (h'.ended hh')).out
  exact ⟨rest, hout.symm⟩

end Sys2Proof.Machine

/-! # The host's port and the host's use of the block (spec/43_host_interface.md R220 to R226, R230) -/

namespace Sys2Proof.Machine

/-! ## START -/

/-- Settles O4: the latch of START with OP = 0. -/
theorem compressCommandStartsCall : Obligations.CompressCommandStartsCall :=
  fun _ _ hbusy hlen => startCall_of_ready 0#1 hbusy hlen

/-- Settles O5: the latch of START with OP = 1. -/
theorem decompressCommandStartsCall : Obligations.DecompressCommandStartsCall :=
  fun _ _ hbusy hlen => startCall_of_ready 1#1 hbusy hlen

/-- Settles O6: START tests STATUS first, then the length of IN. -/
theorem startIsRefusedWhenBusyOrTooLong : Obligations.StartIsRefusedWhenBusyOrTooLong := by
  intro st op b
  rw [exec_decodeCommand, State.startCall]
  exact ⟨fun hbusy => if_pos hbusy, fun hready hlong => by rw [if_neg hready, if_pos hlong]⟩

/-! ## Reads -/

theorem step_of_readStatus {st : State} {rest : List HostMove} (hh : st.host = .readStatus :: rest) :
    step st = .next { st with host := rest, reply := some (.status st.status.value) } :=
  step_of_move hh

/-- Settles O8: the reply is the value of STATUS, which has three names. -/
theorem readStatusHasNoSideEffect : Obligations.ReadStatusHasNoSideEffect := by
  intro st rest hh
  rw [step_of_readStatus hh]
  exact ⟨fun hs => by rw [hs]; rfl, fun hs => by rw [hs]; rfl, fun hs => by rw [hs]; rfl⟩

theorem step_of_readOut {st : State} {rest : List HostMove} (hh : st.host = .readOut :: rest) :
    step st = if st.status = .done then .next { st with host := rest, reply := some (.out st.out st.out.length) }
      else .refused .outNotReadable :=
  step_of_move hh

/-- Settles O9: the port answers from OUT at DONE only. -/
theorem readOutOnlyWhenDone : Obligations.ReadOutOnlyWhenDone := by
  intro st rest hh
  rw [step_of_readOut hh]
  exact ⟨fun hdone => if_pos hdone, fun hnot => if_neg hnot⟩

/-! ## A finished block -/

/-- What the host sees of a finished call: OUT, STATUS = DONE, IN and IP are as in st. -/
def StaysFinished (st t : State) : Prop :=
  t.out = st.out ∧ t.status = .done ∧ t.input = st.input ∧ t.ip = st.ip

/-- A finished block waits (R312). -/
theorem blockStep_of_done {st : State} (hs : st.seq = .done) : blockStep st = .next st := by
  simp only [blockStep, hs]

/-- A host move that is no START and no block reset leaves a finished call as it is (R223). -/
theorem hostStep_of_finished {m : HostMove} {st t : State} (hs : st.seq = .done) (hdone : st.status = .done)
    (h : hostStep m st = .next t) : (∃ op b, m = .start op b) ∨ m = .blockReset ∨ StaysFinished st t := by
  cases m with
  | pass =>
    cases (blockStep_of_done hs).symm.trans h
    exact .inr (.inr ⟨rfl, hdone, rfl, rfl⟩)
  | start op b => exact .inl ⟨op, b, rfl⟩
  | readStatus =>
    cases h
    exact .inr (.inr ⟨rfl, hdone, rfl, rfl⟩)
  | readOut =>
    cases (if_pos hdone).symm.trans h
    exact .inr (.inr ⟨rfl, hdone, rfl, rfl⟩)
  | blockReset => exact .inr (.inl rfl)

/-- Settles O13: by the host's next move; without one, SEQ is DONE and the block waits. -/
theorem outputStaysUntilNextCall : Obligations.OutputStaysUntilNextCall := by
  intro st t hwf hdone h
  obtain ⟨-, -, hstatus, -⟩ := st.wf_iff.mp hwf
  have hs : st.seq = .done := seq_of_status_done hstatus hdone
  cases hm : st.host with
  | nil =>
    cases ((step_of_no_move hm).trans (blockStep_of_done hs)).symm.trans h
    exact .inr (.inr ⟨rfl, hdone, rfl, rfl⟩)
  | cons m rest =>
    rcases hostStep_of_finished (st := { st with host := rest }) hs hdone ((step_of_move hm).symm.trans h) with
      ⟨op, b, rfl⟩ | rfl | hstays
    · exact .inl ⟨op, b, rest, rfl⟩
    · exact .inr (.inl ⟨rest, rfl⟩)
    · exact .inr (.inr hstays)

/-! ## Stored entries -/

/-- A 32-bit field gives back a number that fits (R230). -/
theorem ofLe32_le32 {n : Nat} (h : n < 4294967296) :
    ofLe32 (BitVec.ofNat 8 n) (BitVec.ofNat 8 (n / 256)) (BitVec.ofNat 8 (n / 65536)) (BitVec.ofNat 8 (n / 16777216)) =
      n := by
  simp only [ofLe32, BitVec.toNat_ofNat]
  omega

theorem classifyEntry_compressedHeader {n : Nat} (payload : List Byte) (h : n < 4294967296) :
    classifyEntry (compressedHeader n ++ payload) = some (.compressed n) :=
  congrArg (fun k => some (EntryKind.compressed k)) (ofLe32_le32 h)

theorem classifyEntry_rawHeader (payload : List Byte) :
    classifyEntry (rawHeader ++ payload) = some .uncompressed := rfl

theorem storedEntry_of_smaller {requested : Bool} {raw compressed : List Byte} (hreq : requested = true)
    (hlarge : 8 < raw.length) (hless : compressed.length < raw.length) :
    storedEntry requested raw compressed = compressedHeader raw.length ++ compressed := by
  simp [storedEntry, runsCompress, hreq, hlarge, hless]

theorem storedEntry_of_not_smaller {requested : Bool} {raw compressed : List Byte}
    (h : requested = false ∨ raw.length ≤ 8 ∨ raw.length ≤ compressed.length) :
    storedEntry requested raw compressed = rawHeader ++ raw := by
  rcases h with h | h | h <;> simp [storedEntry, runsCompress, h]

theorem length_compressedHeader (n : Nat) : (compressedHeader n).length = 6 := rfl

theorem length_rawHeader : rawHeader.length = 4 := rfl

/-- Settles O56: the policy's two entries, and what is read from the front of each. -/
theorem storedEntryFollowsThePolicy : Obligations.StoredEntryFollowsThePolicy := by
  refine fun requested raw compressed => ⟨fun hreq hlarge hless => ?_, fun hraw => ?_⟩
  · rw [storedEntry_of_smaller hreq hlarge hless, List.length_append, length_compressedHeader, Nat.add_comm]
    exact ⟨rfl, classifyEntry_compressedHeader compressed⟩
  · rw [storedEntry_of_not_smaller hraw, List.length_append, length_rawHeader, Nat.add_comm]
    exact ⟨rfl, classifyEntry_rawHeader raw⟩

end Sys2Proof.Machine

/-! # Where the sequencer waits, and where it can stop (spec/60_exceptions.md R300, R301, R312)

The port may refuse a host's move; the sequencer's own transitions refuse nothing, and outside the two phases that walk
the match tree each of them answers a next state. -/

namespace Sys2Proof.Machine

/-- Outside E_SEED and E_ITER the sequencer has a next state, whatever the state holds (R300). -/
theorem blockStep_progress {st : State} (hseed : st.seq ≠ .eSeed) (hiter : st.seq ≠ .eIter) :
    ∃ t, blockStep st = .next t := by
  cases hs : st.seq <;> simp only [blockStep, hs]
  case idle | dInit | eInit | eLoad | eFlush | done => exact ⟨_, rfl⟩
  case dCycle =>
    obtain ⟨t, ht, -⟩ := decoderCycle_effect st
    exact ⟨t, ht⟩
  case eSeed => exact absurd hs hseed
  case eIter => exact absurd hs hiter

/-- Settles O16: without a host move the step is the sequencer's own. -/
theorem sequencerStopsOnlyInTreePhases : Obligations.SequencerStopsOnlyInTreePhases := by
  intro st hh
  rw [step_of_no_move hh]
  exact ⟨blockStep_ne_refused st, blockStep_progress⟩

/-- A block in IDLE or in DONE waits (R312). -/
theorem blockStep_of_waiting {st : State} (hs : st.seq = .idle ∨ st.seq = .done) : blockStep st = .next st := by
  rcases hs with hs | hs
  · simp only [blockStep, hs]
  · exact blockStep_of_done hs

/-- Settles O11: with no move and with pass the step is the sequencer's own, which waits. -/
theorem waitingBlockTakesNoStep : Obligations.WaitingBlockTakesNoStep := by
  intro st hs
  refine ⟨fun hh => ?_, fun rest hh => ?_⟩
  · exact (step_of_no_move hh).trans (blockStep_of_waiting hs)
  · have hpass : step st = blockStep { st with host := rest } := step_of_move hh
    exact hpass.trans (blockStep_of_waiting hs)

end Sys2Proof.Machine

/-! # Reset, call start, and the byte-serial copy (spec/70_reset_and_hazards.md R400 to R402, R404)

RING with nothing listed is the window of a call start, and both initialisations leave it so; block reset leaves every
array so. -/

namespace Sys2Proof.Machine

/-! ## Block reset -/

/-- A block reset at the port takes the move and resets the block, whatever it was doing (R225, R400). -/
theorem step_of_blockReset {st : State} {rest : List HostMove} (hh : st.host = .blockReset :: rest) :
    step st = .next { st with host := rest }.blockReset :=
  step_of_move hh

/-- Settles O10: a reset block is not BUSY, so its port is ready for START. -/
theorem blockResetGivesIdle : Obligations.BlockResetGivesIdle := by
  refine ⟨rfl, rfl, fun st rest hh => ⟨_, step_of_blockReset hh, rfl, rfl, rfl, rfl, fun op b hlen => ?_⟩⟩
  rw [exec_decodeCommand]
  exact ⟨_, startCall_of_ready op nofun hlen, rfl⟩

/-- Settles O20: RING lists nothing, and the invariants of a running encoder say nothing of an idle block. -/
theorem resetMeetsTheInvariants : Obligations.ResetMeetsTheInvariants :=
  ⟨blockReset_wf State.reset, encoderInv_of_not_encoding rfl, trivial, Memory.wf_nil _⟩

/-! ## Call start -/

theorem ringDefault_of_primed (fill : Byte) {a : Nat} (h : a ≤ 4077) : ringDefault fill a = 0x20#8 :=
  if_pos (Nat.lt_succ_of_le h)

theorem ringDefault_of_unprimed (fill : Byte) {a : Nat} (h : 4078 ≤ a) : ringDefault fill a = fill :=
  if_neg (Nat.not_lt.mpr h)

/-- RING as both operations find it: the primed cells, then the unprimed ones (R401, R402). -/
theorem ringRead_at_call_start {st : State} (h : st.ring = []) :
    (∀ a, a ≤ 4077 → st.ringRead a = 0x20#8) ∧
      ∀ a, 4078 ≤ a → a ≤ 4112 → st.ringRead a = st.params.unprimedFill :=
  ⟨fun a ha => (State.ringRead_of_nil h a).trans (ringDefault_of_primed _ ha),
    fun a ha _ => (State.ringRead_of_nil h a).trans (ringDefault_of_unprimed _ ha)⟩

theorem step_of_dInit {st : State} (hh : st.host = []) (hs : st.seq = .dInit) : step st = .next st.decoderInit := by
  rw [step_of_no_move hh, blockStep, hs]

theorem step_of_eInit {st : State} (hh : st.host = []) (hs : st.seq = .eInit) : step st = .next st.encoderInit := by
  rw [step_of_no_move hh, blockStep, hs]

/-- Settles O24: the registers by definition, RING as at every call start. -/
theorem decoderInitialises : Obligations.DecoderInitialises :=
  fun st hh hs => ⟨_, step_of_dInit hh hs, rfl, ringRead_at_call_start (st := st.decoderInit) rfl⟩

/-- Settles O35: the registers and the NIL cells by definition, RING as at every call start. -/
theorem encoderInitialises : Obligations.EncoderInitialises :=
  fun st hh hs =>
    ⟨_, step_of_eInit hh hs, rfl, rfl, fun _ => ⟨rfl, rfl, rfl⟩, ringRead_at_call_start (st := st.encoderInit) rfl⟩

/-! ## A match at distance 1 -/

theorem matchSource_succ (pos : Pos) (k : Nat) : matchSource pos (k + 1) = matchSource pos k + 1#12 := by
  rw [matchSource, matchSource, BitVec.ofNat_add, BitVec.add_assoc]

/-- A copy whose next source byte is the one before the cursor repeats it: each byte is written at R before the next one
is read, and R moves on with the source (R404). -/
theorem copyMatch_out_of_distance_one {pos : Pos} {n k : Nat} {st : State} (h : matchSource pos k = st.r - 1#12) :
    (copyMatch pos n k st).out = st.out ++ List.replicate n (st.windowByte (st.r - 1#12)) := by
  induction n generalizing k st with
  | zero => exact (List.append_nil _).symm
  | succ n ih =>
    have hnext (c : Byte) : matchSource pos (k + 1) = (st.emitDecoded c).r - 1#12 := by
      rw [State.emitDecoded_r, add_sub_cancel_right, matchSource_succ, h, sub_add_cancel]
    have hwritten (c : Byte) : (st.emitDecoded c).windowByte ((st.emitDecoded c).r - 1#12) = c := by
      rw [State.emitDecoded_r, add_sub_cancel_right, State.windowByte, State.ringRead_emitDecoded, if_pos rfl]
    rw [copyMatch_succ, ih (hnext _), hwritten, h, State.emitDecoded_out, List.append_assoc]
    rfl

/-- Settles O28: the two bytes of the match are taken, and its copy is one at distance 1. -/
theorem distanceOneMatchRepeatsTheByte : Obligations.DistanceOneMatchRepeatsTheByte := by
  intro st len _ _ hav
  refine ⟨_, execMatch_of_avail _ len hav, copyMatch_out_of_distance_one ?_⟩
  exact BitVec.add_zero _

end Sys2Proof.Machine
